-- ==== Sys2Proof/Word.lean ====
section
/-! DEFINITION. The two word types of the engine: the byte of the byte spaces and the 32-bit register word. -/

namespace Sys2Proof

/-- One byte of a byte space (20_memory.md, section 1). -/
abbrev Byte := BitVec 8

/-- One register of the register space, 32 bits (10_state.md R22). -/
abbrev Word := BitVec 32

end Sys2Proof
end

