-- ==== Sys2Proof/Syntax.lean ====
section
/-! DEFINITION. The commands: one constructor of Instr per row of spec/opcode_table.json. -/

namespace Sys2Proof

/-- The permutation selector: the SEL field of a command word, of ERR_CODE and of a DIAG event
(30_encoding.md R80, R82; 10_state.md R27, R36). -/
inductive Sel where
  /-- SEL = 0: the address permutation (APERM, ASPEC). -/
  | addr
  /-- SEL = 1: the data permutation (DPERM, DSPEC). -/
  | data
deriving DecidableEq, Repr

/-- A command (30_encoding.md R81, R87). PARSE carries its WIDTH field; every other operand comes from a
register or byte space (R84). -/
inductive Instr where
  /-- SIZE, OP 0x1 (43_transform.md R166). -/
  | size
  /-- TRANSFORM, OP 0x2 (43_transform.md R185). -/
  | transform
  /-- PARSE.A w, OP 0x3, SEL 0 (40_parser.md R123). -/
  | parseA (width : Nat)
  /-- PARSE.D w, OP 0x3, SEL 1 (40_parser.md R124). -/
  | parseD (width : Nat)
  /-- SWIZZLE.A, OP 0x4, SEL 0 (41_swizzler.md R145). -/
  | swizzleA
  /-- SWIZZLE.D, OP 0x4, SEL 1 (41_swizzler.md R146). -/
  | swizzleD
  /-- DECODE, OP 0x5 (42_endian.md R154). -/
  | decode
  /-- ENCODE, OP 0x6 (42_endian.md R155). -/
  | encode
deriving DecidableEq, Repr

end Sys2Proof
end

