-- ==== Sys2Proof/WellFormed.lean ====
section
/-! DEFINITION. Which commands have a command word: the WIDTH of a PARSE must fit its 6-bit field. -/

namespace Sys2Proof

/-- A PARSE width is encodable exactly when it lies in 0..63 (30_encoding.md R83, R87, R91). A width outside
1..32 that is encodable is a well-formed command, which fails with BAD_WIDTH (R83). -/
def Instr.wellFormed : Instr → Bool
  | .parseA w => decide (w ≤ 63)
  | .parseD w => decide (w ≤ 63)
  | .size => true
  | .transform => true
  | .swizzleA => true
  | .swizzleD => true
  | .decode => true
  | .encode => true

end Sys2Proof
end

