-- ==== Sys2Proof/Decode.lean ====
section
/-! DEFINITION. The command word: its fields, the decoder (total on every 32-bit word, rejecting by name) and the
encoder (30_encoding.md section 1). -/

namespace Sys2Proof

/-- Why a command word is illegal (30_encoding.md R85). Each is the engine's BAD_CMD. -/
inductive DecodeReject where
  /-- Bits [31:11] are not all zero. -/
  | reservedBits
  /-- OP is 0x0 or in 0x7 to 0xF. -/
  | reservedOp
  /-- SEL is 1 for an OP that does not use it. -/
  | selNotZero
  /-- WIDTH is not 0 for an OP other than PARSE. -/
  | widthNotZero
deriving DecidableEq, Repr

/-- What the decoder answers: a command, or BAD_CMD with the reason. -/
inductive Decoded where
  | cmd (i : Instr)
  | badCmd (why : DecodeReject)
deriving DecidableEq, Repr

/-- Field [3:0] OP of a command word (R80). -/
def cmdOp (c : Word) : BitVec 4 := c.extractLsb' 0 4

/-- Field [4] SEL of a command word (R80). -/
def cmdSel (c : Word) : BitVec 1 := c.extractLsb' 4 1

/-- Field [10:5] WIDTH of a command word (R80). -/
def cmdWidth (c : Word) : BitVec 6 := c.extractLsb' 5 6

/-- The reserved field [31:11] of a command word (R80). -/
def cmdReserved (c : Word) : BitVec 21 := c.extractLsb' 11 21

/-- A command that uses neither SEL nor WIDTH (R82, R83). -/
def plainCmd (c : Word) (i : Instr) : Decoded :=
  if cmdSel c ≠ 0 then .badCmd .selNotZero
  else if cmdWidth c ≠ 0 then .badCmd .widthNotZero
  else .cmd i

/-- The decoder of R86, total on every word. -/
def decode (c : Word) : Decoded :=
  if cmdReserved c ≠ 0 then .badCmd .reservedBits
  else if cmdOp c = 0x1 then plainCmd c .size
  else if cmdOp c = 0x2 then plainCmd c .transform
  else if cmdOp c = 0x3 then
    if cmdSel c = 0 then .cmd (.parseA (cmdWidth c).toNat) else .cmd (.parseD (cmdWidth c).toNat)
  else if cmdOp c = 0x4 then
    if cmdWidth c ≠ 0 then .badCmd .widthNotZero
    else if cmdSel c = 0 then .cmd .swizzleA else .cmd .swizzleD
  else if cmdOp c = 0x5 then plainCmd c .decode
  else if cmdOp c = 0x6 then plainCmd c .encode
  else .badCmd .reservedOp

/-- A command word put together from its fields (R80). -/
def cmdWord (op : BitVec 4) (sel : BitVec 1) (width : BitVec 6) : Word :=
  (0 : BitVec 21) ++ width ++ sel ++ op

/-- The command word of a well-formed command (R81, R87). -/
def encode : Instr → Word
  | .size => cmdWord 0x1 0 0
  | .transform => cmdWord 0x2 0 0
  | .parseA w => cmdWord 0x3 0 (BitVec.ofNat 6 w)
  | .parseD w => cmdWord 0x3 1 (BitVec.ofNat 6 w)
  | .swizzleA => cmdWord 0x4 0 0
  | .swizzleD => cmdWord 0x4 1 0
  | .decode => cmdWord 0x5 0 0
  | .encode => cmdWord 0x6 0 0

/-- The command word of a row of spec/opcode_table.json whose `nbits` bits are `w`: a command is one 32-bit
word (R84), and every bit above `nbits` is 0. -/
def tableWord (nbits w : Nat) : Word := BitVec.ofNat 32 (w % 2 ^ nbits)

/-- The instruction the decoder reads from a row's bits. -/
def decodeTableWord (nbits w : Nat) : Option Instr :=
  match decode (tableWord nbits w) with
  | .cmd i => some i
  | .badCmd _ => none

end Sys2Proof
end

