-- ==== Sys2Proof/Config.lean ====
section
/-! DEFINITION. The parameters an implementation fixes (00_scope.md section 4; 93_implementation_defined.md P1, P2)
and the free values of the model (93_implementation_defined.md U1, U2, U3). -/

namespace Sys2Proof

/-- The four byte spaces (20_memory.md R60, R61). -/
inductive Space where
  | ibuf
  | obuf
  | aspec
  | dspec
deriving DecidableEq, Repr

/-- The open parameters of the engine: not engine state (10_state.md R44), fixed for one machine.
HOST_BUS_ORDER is left out: no rule depends on it (20_memory.md R69; 93_implementation_defined.md P3). -/
structure Params where
  /-- BUF_BYTES: the size of IBUF and of OBUF (20_memory.md R60). -/
  bufBytes  : Nat
  /-- SPEC_BYTES: the size of ASPEC and of DSPEC (20_memory.md R61). -/
  specBytes : Nat
deriving DecidableEq, Repr

/-- The constraints the spec puts on the parameters: BUF_BYTES at least 2 and SPEC_BYTES at least 1
(00_scope.md section 4), SPEC_BYTES at most 65535 (93_implementation_defined.md P2). -/
abbrev Params.wf (p : Params) : Prop :=
  2 ≤ p.bufBytes ∧ 1 ≤ p.specBytes ∧ p.specBytes ≤ 65535

/-- The size in bytes of a byte space (20_memory.md section 1). -/
def Params.size (p : Params) : Space → Nat
  | .ibuf => p.bufBytes
  | .obuf => p.bufBytes
  | .aspec => p.specBytes
  | .dspec => p.specBytes

/-- The parameters of the machine of State.reset. DESIGN CHOICE (log entry 1, unsafe): the spec leaves both
open; no statement rests on these values, since every statement is about every state. -/
def Params.chosen : Params := { bufBytes := 65536, specBytes := 65535 }

/-- FREE VALUE (log entry 2): the byte that byte space `sp` holds at offset `k` when nothing has written that
byte since the reset that took draw `n` (70_reset_and_hazards.md R222; U2, U3). -/
opaque Config.freeByte : (n : Nat) → (sp : Space) → (k : Nat) → Byte

/-- FREE VALUE (log entry 3): the entry `i` of the permutation register file after the failed parse that took
draw `n` (40_parser.md R121; U1). -/
opaque Config.freePermEntry : (n : Nat) → (i : Nat) → BitVec 5

end Sys2Proof
end

