-- ==== Sys2Proof/Machine/State.lean ====
section
/-! DEFINITION. The state of the engine as plain data (10_state.md), what a step can stop with, and the state
after reset (70_reset_and_hazards.md R220). -/

namespace Sys2Proof.Machine

/-- STATUS.STATE (10_state.md R25, R26). -/
inductive RunState where
  | idle
  | busy
  | done
  | error
deriving DecidableEq, Repr

/-- The fatal error codes (60_exceptions.md R191); exactly the listed ones (93_implementation_defined.md U10). -/
inductive ErrCode where
  | none
  | badCmd
  | badBpw
  | badWidth
  | noPerm
  | addrWidth
  | count
  | range
  | alloc
deriving DecidableEq, Repr

/-- The warning kinds (60_exceptions.md R198). -/
inductive WarnKind where
  | notPow2
  | notMult
  | dup
deriving DecidableEq, Repr

/-- One event of the diagnostics log (10_state.md R36; 60_exceptions.md R197). -/
structure DiagEvent where
  kind  : WarnKind
  sel   : Sel
  info0 : Word
  info1 : Word
deriving DecidableEq, Repr

/-- The fields of STATUS (10_state.md R25). -/
structure Status where
  state    : RunState
  outValid : Bool
  wPow2    : Bool
  wMult    : Bool
  wDup     : Bool
deriving DecidableEq, Repr

/-- ERR_CODE, ERR_INFO0 and ERR_INFO1 (10_state.md R27). -/
structure ErrRegs where
  code  : ErrCode
  sel   : Sel
  info0 : Word
  info1 : Word
deriving DecidableEq, Repr

/-- The fields of CFG (10_state.md R28); BPW stores any 3-bit value (R29). -/
structure Cfg where
  aen : Bool
  den : Bool
  big : Bool
  bpw : BitVec 3
deriving DecidableEq, Repr

/-- A permutation register file: 32 entries of 5 bits, indexed by output bit position (10_state.md R38). -/
abbrev PermFile := Vector (BitVec 5) 32

/-- A byte space: the bytes written since reset, as (offset, byte) pairs with offsets strictly rising. An
offset that is not listed holds no value here: it was never written since reset, and a read of it gives a free
value (log entry 2). -/
abbrev Memory := List Host.Cell

/-- One action of the host on the engine, the only other party (10_state.md R20). -/
inductive Access where
  /-- A write of `nbytes` bytes at a register offset; only whole aligned registers count (20_memory.md R72). -/
  | regWrite (off : Nat) (nbytes : Nat) (v : Word)
  /-- A read of `nbytes` bytes at a register offset. -/
  | regRead (off : Nat) (nbytes : Nat)
  /-- A write of one byte to a byte space. -/
  | byteWrite (sp : Space) (k : Nat) (b : Byte)
  /-- A read of one byte of a byte space. -/
  | byteRead (sp : Space) (k : Nat)
  /-- The platform's reset input (70_reset_and_hazards.md R221). -/
  | reset
deriving DecidableEq, Repr

/-- Everything the spec gives the engine, and the model's own fields at the end. The transient state of
10_state.md R40 to R43 exists only inside a command, which is one step here (R20). -/
structure State where
  /-- BUF_BYTES and SPEC_BYTES: the machine's parameters (R44), changed by no step. -/
  params      : Params
  /-- STATUS (R25). -/
  status      : Status
  /-- ERR_CODE, ERR_INFO0, ERR_INFO1 (R27). -/
  err         : ErrRegs
  /-- CFG (R28). -/
  cfg         : Cfg
  /-- FILE_SIZE, HI:LO (R31). -/
  fileSize    : BitVec 64
  /-- WORKING_SIZE, HI:LO (R32). -/
  workingSize : BitVec 64
  /-- BITS.NAB (R32). -/
  nab         : BitVec 6
  /-- BITS.NDB (R32). -/
  ndb         : BitVec 6
  /-- OPERAND (R33). -/
  operand     : Word
  /-- RESULT (R33). -/
  result      : Word
  /-- PW.APW (R34). -/
  apw         : BitVec 6
  /-- PW.DPW (R34). -/
  dpw         : BitVec 6
  /-- APERM[0..31] (R38). -/
  aperm       : PermFile
  /-- DPERM[0..31] (R38). -/
  dperm       : PermFile
  /-- ASPEC_LEN.LEN (R35). -/
  aspecLen    : BitVec 16
  /-- DSPEC_LEN.LEN (R35). -/
  dspecLen    : BitVec 16
  /-- The DIAG log, oldest event first; DIAG_COUNT is its length (R36). -/
  diag        : List DiagEvent
  /-- IBUF (20_memory.md R60). -/
  ibuf        : Memory
  /-- OBUF (20_memory.md R60). -/
  obuf        : Memory
  /-- ASPEC (20_memory.md R61). -/
  aspec       : Memory
  /-- DSPEC (20_memory.md R61). -/
  dspec       : Memory
  /-- THE MODEL'S OWN: the number of the next free draw (log entry 4). -/
  draw        : Nat
  /-- THE MODEL'S OWN: the draw that gives the bytes nothing has written since reset (log entry 2). -/
  memDraw     : Nat
  /-- THE MODEL'S OWN: the host's accesses still to come, next first (log entry 5). -/
  bus         : List Access
  /-- THE MODEL'S OWN: what the host's last read returned (log entry 5). -/
  rdata       : Word
deriving DecidableEq, Repr

/-- What stops the machine with a fault: nothing. Every error the spec gives the engine ends a command in
STATE = ERROR, which is a next state (60_exceptions.md R193, R201), so this type has no constructor (log entry 6). -/
inductive Fault where
deriving DecidableEq, Repr

/-- What the model does not admit (93_implementation_defined.md, treatment "refuse"). -/
inductive Refusal where
  /-- Raised by exec for an instruction that has no meaning yet. Safe: the model stops. -/
  | notModelled (mnemonic : String)
  /-- Raised by hostAccess for any host access but a read of STATUS while STATE = BUSY: the host breaks its
  duty and the effect is unspecified (70_reset_and_hazards.md R226; U4). Safe: the model stops. -/
  | hostAccessWhileBusy
  /-- Raised by SWIZZLE when the selected width is above 32, where swizzleWord is undefined (41_swizzler.md
  R143; U5). No run reaches such a width. Safe: the model stops. -/
  | swizzleWidthAbove32
deriving DecidableEq, Repr

/-- ERR_CODE, ERR_INFO0 and ERR_INFO1 with no error recorded (60_exceptions.md R191, R192). -/
def ErrRegs.clear : ErrRegs := { code := .none, sel := .addr, info0 := 0, info1 := 0 }

/-- The state after reset (70_reset_and_hazards.md R220). Every value is the spec's but `params` (log entry 1)
and the model's own fields (log entries 2, 4, 5). -/
def State.reset : State where
  params      := Params.chosen
  status      := { state := .idle, outValid := false, wPow2 := false, wMult := false, wDup := false }
  err         := ErrRegs.clear
  cfg         := { aen := false, den := false, big := false, bpw := 1 }
  fileSize    := 0
  workingSize := 0
  nab         := 0
  ndb         := 0
  operand     := 0
  result      := 0
  apw         := 0
  dpw         := 0
  aperm       := Vector.replicate 32 0
  dperm       := Vector.replicate 32 0
  aspecLen    := 0
  dspecLen    := 0
  diag        := []
  ibuf        := []
  obuf        := []
  aspec       := []
  dspec       := []
  draw        := 1
  memDraw     := 0
  bus         := []
  rdata       := 0

end Sys2Proof.Machine
end

