-- ==== Sys2Proof/Machine/Flags.lean ====
section
/-! DEFINITION. The flags of the engine: the bits of STATUS, what sets them and what clears them
(10_state.md R25; 60_exceptions.md R197, R198, R204). -/

namespace Sys2Proof.Machine

/-- A flag as a number: 1 when set. -/
def flagBit (b : Bool) : Nat := if b then 1 else 0

/-- The two bits of STATUS.STATE (R25). -/
def RunState.code : RunState → Nat
  | .idle => 0
  | .busy => 1
  | .done => 2
  | .error => 3

/-- STATUS as the host reads it: STATE in [1:0], OUT_VALID [2], W_POW2 [3], W_MULT [4], W_DUP [5], zeros above
(R25). -/
def Status.word (t : Status) : Word :=
  BitVec.ofNat 32 (t.state.code + 4 * flagBit t.outValid + 8 * flagBit t.wPow2 + 16 * flagBit t.wMult +
    32 * flagBit t.wDup)

/-- STATUS at command start: BUSY, with OUT_VALID and every warning bit cleared (60_exceptions.md R204). -/
def Status.started : Status :=
  { state := .busy, outValid := false, wPow2 := false, wMult := false, wDup := false }

/-- STATUS with the bit of a warning kind set (60_exceptions.md R197, R198). -/
def Status.setWarning (t : Status) : WarnKind → Status
  | .notPow2 => { t with wPow2 := true }
  | .notMult => { t with wMult := true }
  | .dup => { t with wDup := true }

/-- The STATUS bit of a warning kind (60_exceptions.md R198). -/
def Status.warning (t : Status) : WarnKind → Bool
  | .notPow2 => t.wPow2
  | .notMult => t.wMult
  | .dup => t.wDup

end Sys2Proof.Machine
end

