-- ==== Sys2Proof/Machine/Ops.lean ====
section
/-! DEFINITION. The named operations over memory and registers, the start and the end of a command, and the
engine's one exception entry, `raiseFatal` (60_exceptions.md R193). -/

namespace Sys2Proof.Machine

/-! ## Byte spaces (20_memory.md) -/

/-- The canonical form: offsets strictly rising. An unlisted offset holds no value, so no entry can equal what
an unlisted offset holds (log entry 2). -/
abbrev Memory.wf (m : Memory) : Prop := m.Pairwise (fun x y => x.1 < y.1)

/-- The byte written at an offset, if one was. -/
def Memory.read : Memory → Nat → Option Byte
  | [], _ => none
  | (a, b) :: m, k => if a = k then some b else Memory.read m k

/-- Write one byte, keeping the canonical form. -/
def Memory.write : Memory → Nat → Byte → Memory
  | [], k, v => [(k, v)]
  | (a, b) :: m, k, v =>
    if k < a then (k, v) :: (a, b) :: m
    else if k = a then (k, v) :: m
    else (a, b) :: Memory.write m k v

/-- `MemWrite(S, a, n, bytes)`: the bytes in increasing offset order from `a` (00_scope.md section 5). -/
def Memory.writeBytes : Memory → Nat → List Byte → Memory
  | m, _, [] => m
  | m, a, b :: bs => Memory.writeBytes (m.write a b) (a + 1) bs

/-- Set the bytes at offsets below `n` to 0 and leave the rest (43_transform.md R171). -/
def Memory.zeroFill (m : Memory) (n : Nat) : Memory :=
  (List.range n).map (fun k => (k, (0 : Byte))) ++ m.filter (fun c => decide (n ≤ c.1))

/-- The contents of a byte space. -/
def State.mem (s : State) : Space → Memory
  | .ibuf => s.ibuf
  | .obuf => s.obuf
  | .aspec => s.aspec
  | .dspec => s.dspec

/-- Replace the contents of a byte space. -/
def State.setMem (s : State) (sp : Space) (m : Memory) : State :=
  match sp with
  | .ibuf => { s with ibuf := m }
  | .obuf => { s with obuf := m }
  | .aspec => { s with aspec := m }
  | .dspec => { s with dspec := m }

/-- The byte a byte space holds at an offset: what was written there since reset, else a free value
(70_reset_and_hazards.md R222; log entry 2). -/
def State.byte (s : State) (sp : Space) (k : Nat) : Byte :=
  ((s.mem sp).read k).getD (Config.freeByte s.memDraw sp k)

/-- `MemRead(S, a, n)`: `n` bytes from offset `a` (00_scope.md section 5). -/
def State.bytes (s : State) (sp : Space) (a n : Nat) : List Byte :=
  (List.range n).map (fun i => s.byte sp (a + i))

/-! ## Permutation registers (10_state.md R34, R38) -/

/-- `PW(SEL)` (00_scope.md section 5). -/
def State.pw (s : State) : Sel → BitVec 6
  | .addr => s.apw
  | .data => s.dpw

/-- `PERM(SEL)` (00_scope.md section 5). -/
def State.perm (s : State) : Sel → PermFile
  | .addr => s.aperm
  | .data => s.dperm

/-- `PW(SEL) <- w`. -/
def State.setPw (s : State) (sel : Sel) (w : BitVec 6) : State :=
  match sel with
  | .addr => { s with apw := w }
  | .data => { s with dpw := w }

/-- `PERM(SEL) <- p`. -/
def State.setPerm (s : State) (sel : Sel) (p : PermFile) : State :=
  match sel with
  | .addr => { s with aperm := p }
  | .data => { s with dperm := p }

/-- Entry `i` of a permutation register file, as a bit index. -/
def permAt (p : PermFile) (i : Nat) : Nat := (p[i]?.getD 0).toNat

/-- A permutation register file whose 32 entries are the free values of draw `n` (40_parser.md R121). It is
marked irreducible so that comparing two states field by field never unfolds its 32 entries. -/
@[irreducible] def freePerm (n : Nat) : PermFile := Vector.ofFn (fun i : Fin 32 => Config.freePermEntry n i.val)

/-- `PERM(SEL)[0..31]` become unspecified: one fresh free value each (40_parser.md R121; U1). -/
def State.losePerm (s : State) (sel : Sel) : State :=
  { s.setPerm sel (freePerm s.draw) with draw := s.draw + 1 }

/-! ## Result and size registers -/

/-- `RESULT <- v` (10_state.md R33). -/
def State.setResult (s : State) (v : Word) : State := { s with result := v }

/-- `WORKING_SIZE <- ws; BITS.NAB <- nab; BITS.NDB <- ndb` (43_transform.md R163). -/
def State.setSizing (s : State) (ws nab ndb : Nat) : State :=
  { s with workingSize := BitVec.ofNat 64 ws, nab := BitVec.ofNat 6 nab, ndb := BitVec.ofNat 6 ndb }

/-- OBUF holds `m`, and OUT_VALID says so (43_transform.md R181). -/
def State.setOutput (s : State) (m : Memory) : State :=
  { s with obuf := m, status := { s.status with outValid := true } }

/-! ## Errors and warnings (60_exceptions.md) -/

/-- Taking an exception: `raise Fatal(code, info0, info1, sel)`. It writes the three error registers and sets
STATE to ERROR; OUT_VALID and the warning bits stay (R193). There is no vector and no handler (R201). -/
def raiseFatal (code : ErrCode) (info0 info1 : Word) (sel : Sel) (s : State) : State :=
  { s with
    err := { code := code, sel := sel, info0 := info0, info1 := info1 }
    status := { s.status with state := .error } }

/-- The start of a command (R204). There is no return from an error: this is what ends the ERROR state (R202). -/
def commandStart (s : State) : State :=
  { s with status := Status.started, diag := [], err := ErrRegs.clear }

/-- The end of a command without a fatal error: `STATE <- DONE` (R204). -/
def commandDone (s : State) : State :=
  { s with status := { s.status with state := .done } }

/-- `warn(kind, sel, info0, info1)`: append the event and set its STATUS bit (R197). -/
def warn (e : DiagEvent) (s : State) : State :=
  { s with diag := s.diag ++ [e], status := s.status.setWarning e.kind }

/-- Log events in order. -/
def warnAll (es : List DiagEvent) (s : State) : State := es.foldl (fun s e => warn e s) s

/-! ## Phases of a command -/

/-- How a phase of a command ends. -/
inductive Res (α : Type) where
  /-- The phase is over and the command goes on. -/
  | ok (a : α) (s : State)
  /-- A fatal error was raised: the command performs none of its later steps (60_exceptions.md R193). -/
  | stop (s : State)
  /-- The model does not admit the step. -/
  | refuse (r : Refusal)

/-- One phase after another. -/
def Res.andThen {α β : Type} (x : Res α) (f : α → State → Res β) : Res β :=
  match x with
  | .ok a s => f a s
  | .stop s => .stop s
  | .refuse r => .refuse r

/-- A whole command, from the write of CMD to DONE or ERROR, as one atomic step (10_state.md R20; 60_exceptions.md
R204). -/
def runCommand (body : State → Res Unit) (s : State) : Host.Outcome State Fault Refusal :=
  match body (commandStart s) with
  | .ok _ t => .next (commandDone t)
  | .stop t => .next t
  | .refuse r => .refused r

end Sys2Proof.Machine
end

