-- ==== Sys2Proof/Machine/Operands.lean ====
section
/-! DEFINITION. Every operand form of the commands: CFG.BPW, FILE_SIZE, the spec string, the bytes packed in
OPERAND and the padded input byte. -/

namespace Sys2Proof.Machine

/-- The space of the spec string a selector names (40_parser.md R110). -/
def specSpace : Sel → Space
  | .addr => .aspec
  | .data => .dspec

/-- `SPEC_LEN(SEL)` (00_scope.md section 5). -/
def State.specLen (s : State) : Sel → Nat
  | .addr => s.aspecLen.toNat
  | .data => s.dspecLen.toNat

/-- The spec string of a selector: `MemRead(SPEC(sel), 0, SPEC_LEN(sel))`, every byte an ordinary character
(40_parser.md R110). -/
def State.specString (s : State) (sel : Sel) : List Byte := s.bytes (specSpace sel) 0 (s.specLen sel)

/-- Whether CFG.BPW is one of 1, 2, 3, 4 (00_scope.md R1; 10_state.md R29). -/
def Cfg.bpwLegal (c : Cfg) : Bool := decide (1 ≤ c.bpw.toNat ∧ c.bpw.toNat ≤ 4)

/-- The BAD_BPW check of SIZE, TRANSFORM, DECODE and ENCODE, which gives BPW when it is legal (60_exceptions.md
R191; 10_state.md R29). -/
def checkBpw (s : State) : Res Nat :=
  if s.cfg.bpwLegal then .ok s.cfg.bpw.toNat s
  else .stop (raiseFatal .badBpw (s.cfg.bpw.setWidth 32) 0 .addr s)

/-- `b[k] <- v[8k+7:8k]` for `k` in `0..n-1`: the bytes packed in a register, byte 0 lowest (42_endian.md R154). -/
def packedBytes (v : Word) (n : Nat) : List Byte :=
  (List.range n).map (fun k => v.extractLsb' (8 * k) 8)

/-- `inByte(k)`: the padded input byte, read from IBUF only below FILE_SIZE (43_transform.md R167; 20_memory.md R63). -/
def State.inByte (s : State) (k : Nat) : Byte :=
  if k < s.fileSize.toNat then s.byte .ibuf k else 0

/-- `[inByte(pos), ..., inByte(pos + n - 1)]` (43_transform.md R174). -/
def State.inBytes (s : State) (pos n : Nat) : List Byte :=
  (List.range n).map (fun i => s.inByte (pos + i))

end Sys2Proof.Machine
end

