-- ==== Sys2Proof/Machine/Endian.lean ====
section
/-! DEFINITION. The endianness decoder and encoder and the commands DECODE and ENCODE (42_endian.md). -/

namespace Sys2Proof.Machine

/-- The bit offset in a word of `n` bytes of the byte at position `k` (R150, R151). -/
def byteShift (n : Nat) (big : Bool) (k : Nat) : Nat := 8 * (if big then n - 1 - k else k)

/-- `decodeWord(b, n, big)` (R150). -/
def decodeWord (b : List Byte) (n : Nat) (big : Bool) : Nat :=
  ((List.range n).map (fun k => (b.getD k 0).toNat <<< byteShift n big k)).sum

/-- `encodeWord(w, n, big)` (R151). -/
def encodeWord (w n : Nat) (big : Bool) : List Byte :=
  (List.range n).map (fun k => BitVec.ofNat 8 (w >>> byteShift n big k))

/-- The body of DECODE (R154, R156). -/
def decodeBody (s : State) : Res Unit :=
  (checkBpw s).andThen fun n s =>
    .ok () (s.setResult (BitVec.ofNat 32 (decodeWord (packedBytes s.operand n) n s.cfg.big)))

/-- The body of ENCODE (R155, R156). -/
def encodeBody (s : State) : Res Unit :=
  (checkBpw s).andThen fun n s =>
    .ok () (s.setResult (BitVec.ofNat 32
      (decodeWord (encodeWord (s.operand.toNat % 2 ^ (8 * n)) n s.cfg.big) n false)))

/-- DECODE (R154). -/
def execDecode (s : State) : Host.Outcome State Fault Refusal := runCommand decodeBody s

/-- ENCODE (R155). -/
def execEncode (s : State) : Host.Outcome State Fault Refusal := runCommand encodeBody s

end Sys2Proof.Machine
end

