-- ==== Sys2Proof/Machine/Parse.lean ====
section
/-! DEFINITION. The permutation parser and validator and the commands PARSE.A and PARSE.D (40_parser.md). -/

namespace Sys2Proof.Machine

/-- Split on every byte 0x2C, keeping empty tokens (R111): `c` commas give `c + 1` tokens. -/
def splitTokens : List Byte → List (List Byte)
  | [] => [[]]
  | b :: bs =>
    if b = 0x2C then [] :: splitTokens bs
    else
      match splitTokens bs with
      | [] => [[b]]
      | tok :: toks => (b :: tok) :: toks

/-- The white space a token may begin with (R113). -/
def isSpaceByte (b : Byte) : Bool := b = 0x20 || (decide (0x09 ≤ b.toNat) && decide (b.toNat ≤ 0x0D))

/-- A decimal digit (R113). -/
def isDigitByte (b : Byte) : Bool := decide (0x30 ≤ b.toNat) && decide (b.toNat ≤ 0x39)

/-- The value of the longest prefix of decimal digits, after `n` (R113). -/
def digitsValue : Nat → List Byte → Nat
  | n, [] => n
  | n, b :: bs => if isDigitByte b then digitsValue (10 * n + (b.toNat - 0x30)) bs else n

/-- `tokenValue(tok)` (R113): white space, a sign, decimal digits, the rest ignored; unbounded. -/
def tokenValue (tok : List Byte) : Int :=
  match tok.dropWhile isSpaceByte with
  | [] => 0
  | b :: bs =>
    if b = 0x2D then - (digitsValue 0 bs : Int)
    else if b = 0x2B then (digitsValue 0 bs : Int)
    else (digitsValue 0 (b :: bs) : Int)

/-- `sat32(v)`: clamped to [-2^31, 2^31 - 1], in 32-bit two's complement (R112, R116). -/
def sat32 (v : Int) : Word :=
  BitVec.ofInt 32 (max (-2147483648) (min v 2147483647))

/-- What the token loop of R112 carries: the slots written, the seen-index mask (10_state.md R40) and the DUP
events in order. -/
structure ParseAcc where
  perm   : PermFile
  seen   : BitVec 32
  events : List DiagEvent
deriving DecidableEq, Repr

/-- The DUP event of token `t` with value `v` (R117). -/
def dupEvent (sel : Sel) (v t : Nat) : DiagEvent :=
  { kind := .dup, sel := sel, info0 := BitVec.ofNat 32 v, info1 := BitVec.ofNat 32 t }

/-- One in-range token of R112: its DUP check, then its slot `width - 1 - t` (R115, R117). -/
def scanToken (sel : Sel) (width t v : Nat) (a : ParseAcc) : ParseAcc :=
  { perm := a.perm.setIfInBounds (width - 1 - t) (BitVec.ofNat 5 v)
    seen := a.seen ||| BitVec.ofNat 32 (1 <<< v)
    events := if a.seen.getLsbD v then a.events ++ [dupEvent sel v t] else a.events }

/-- The token loop of R112 from token `t` on. The second part is the first out-of-range value, where the loop
stops (R116), and none when every token was in range. -/
def scanTokens (sel : Sel) (width : Nat) : List (List Byte) → Nat → ParseAcc → ParseAcc × Option Int
  | [], _, a => (a, none)
  | tok :: toks, t, a =>
    let v := tokenValue tok
    if v < 0 ∨ (width : Int) ≤ v then (a, some v)
    else scanTokens sel width toks (t + 1) (scanToken sel width t v.toNat a)

/-- `parsePermutation(sel, width)` (R112). A failed parse leaves PW(sel) = 0 and PERM(sel) unspecified (R121);
a successful one leaves the entries at and above `width` as they were (R120). -/
def parsePermutation (sel : Sel) (width : Nat) (s : State) : Res Unit :=
  let toks := splitTokens (s.specString sel)
  if toks.length ≠ width then
    .stop (raiseFatal .count (BitVec.ofNat 32 width) (BitVec.ofNat 32 toks.length) sel
      ((s.setPw sel 0).losePerm sel))
  else
    match scanTokens sel width toks 0 { perm := s.perm sel, seen := 0, events := [] } with
    | (a, some v) =>
      .stop (raiseFatal .range (sat32 v) (BitVec.ofNat 32 width) sel
        ((warnAll a.events (s.setPw sel 0)).losePerm sel))
    | (a, none) => .ok () (((warnAll a.events s).setPerm sel a.perm).setPw sel (BitVec.ofNat 6 width))

/-- The body of a PARSE: BAD_WIDTH first, before the spec string is read (R123, R124, R125). -/
def parseBody (sel : Sel) (width : Nat) (s : State) : Res Unit :=
  if width < 1 ∨ 32 < width then .stop (raiseFatal .badWidth (BitVec.ofNat 32 width) 0 sel s)
  else parsePermutation sel width s

/-- PARSE.A w (R123). -/
def execParseA (width : Nat) (s : State) : Host.Outcome State Fault Refusal := runCommand (parseBody .addr width) s

/-- PARSE.D w (R124). -/
def execParseD (width : Nat) (s : State) : Host.Outcome State Fault Refusal := runCommand (parseBody .data width) s

end Sys2Proof.Machine
end

