-- ==== Sys2Proof/Machine/Swizzle.lean ====
section
/-! DEFINITION. The word swizzler and the commands SWIZZLE.A and SWIZZLE.D (41_swizzler.md). -/

namespace Sys2Proof.Machine

/-- One iteration of R140: the bit at `srcBit` of `value`, moved to position `i`. -/
def swizzleBit (value srcBit i : Nat) : Nat :=
  if i ≤ srcBit then (value &&& (1 <<< srcBit)) >>> (srcBit - i)
  else (value &&& (1 <<< srcBit)) <<< (i - srcBit)

/-- `swizzleWord(value, perm, width)` (R140). `value` is an unsigned integer of any width. -/
def swizzleWord (value : Nat) (perm : PermFile) (width : Nat) : Nat :=
  (List.range width).foldl (fun acc i => acc ||| swizzleBit value (permAt perm i) i) 0

/-- The body of a SWIZZLE (R145, R146, R147). A width above 32 is refused by name (R143; U5). -/
def swizzleBody (sel : Sel) (s : State) : Res Unit :=
  if s.pw sel = 0 then .stop (raiseFatal .noPerm 0 0 sel s)
  else if 32 < (s.pw sel).toNat then .refuse .swizzleWidthAbove32
  else .ok () (s.setResult (BitVec.ofNat 32 (swizzleWord s.operand.toNat (s.perm sel) (s.pw sel).toNat)))

/-- SWIZZLE.A (R145). -/
def execSwizzleA (s : State) : Host.Outcome State Fault Refusal := runCommand (swizzleBody .addr) s

/-- SWIZZLE.D (R146). -/
def execSwizzleD (s : State) : Host.Outcome State Fault Refusal := runCommand (swizzleBody .data) s

end Sys2Proof.Machine
end

