-- ==== Sys2Proof/Machine/Transform.lean ====
section
/-! DEFINITION. The buffer orchestrator and the address-permutation unit, and the commands SIZE and TRANSFORM
(43_transform.md). -/

namespace Sys2Proof.Machine

/-! ## Sizing -/

/-- `floor_log2(n)` (00_scope.md section 5). -/
def floorLog2 (n : Nat) : Nat := Nat.log2 n

/-- `is_pow2(n)`; 0 is no power of two (00_scope.md section 5). -/
def isPow2 (n : Nat) : Bool := decide (n ≠ 0 ∧ 2 ^ floorLog2 n = n)

/-- `next_pow2(n)`: the least power of two at or above `n`; 1 for 0 (00_scope.md section 5). -/
def nextPow2 (n : Nat) : Nat := if isPow2 n then n else if n = 0 then 1 else 2 ^ (floorLog2 n + 1)

/-- `ceil_mult(n, b)`: the least multiple of `b` at or above `n` (00_scope.md section 5). -/
def ceilMult (n b : Nat) : Nat := (n + b - 1) / b * b

/-- A sizing warning carries a size, low word then high word (60_exceptions.md R198). -/
def sizeEvent (kind : WarnKind) (n : Nat) : DiagEvent :=
  { kind := kind, sel := .addr, info0 := BitVec.ofNat 32 n, info1 := BitVec.ofNat 32 (n / 2 ^ 32) }

/-- Step 2 of R160: the size after power-of-two padding (R161). -/
def paddedPow2 (fileSize : Nat) (aen : Bool) : Nat :=
  if aen && !isPow2 fileSize then nextPow2 fileSize else fileSize

/-- Step 3 of R160: the size after word-multiple padding (R162). -/
def paddedSize (fileSize bpw : Nat) (aen : Bool) : Nat :=
  let ws := paddedPow2 fileSize aen
  if ws % bpw ≠ 0 then ceilMult ws bpw else ws

/-- The warnings of steps 2 and 3 of R160, in order. -/
def sizingEvents (fileSize bpw : Nat) (aen : Bool) : List DiagEvent :=
  (if aen && !isPow2 fileSize then [sizeEvent .notPow2 fileSize] else []) ++
  (if paddedPow2 fileSize aen % bpw ≠ 0 then [sizeEvent .notMult (paddedPow2 fileSize aen)] else [])

/-- What sizing gives the transform. -/
structure Sizing where
  ws  : Nat
  nab : Nat
  ndb : Nat
deriving DecidableEq, Repr

/-- `sizeImage(fileSize, bpw, aen)` (R160), on unbounded naturals. -/
def sizeImage (fileSize bpw : Nat) (aen : Bool) (s : State) : Res Sizing :=
  let s1 := warnAll (sizingEvents fileSize bpw aen) s
  let ws := paddedSize fileSize bpw aen
  let words := ws / bpw
  if words = 0 then .stop (raiseFatal .addrWidth 0xFFFFFFFF 0 .addr s1)
  else
    let nab := floorLog2 words
    if nab < 1 ∨ 32 < nab then .stop (raiseFatal .addrWidth (BitVec.ofNat 32 nab) 0 .addr s1)
    else .ok { ws := ws, nab := nab, ndb := 8 * bpw } (s1.setSizing ws nab (8 * bpw))

/-- The sizing phase of SIZE and TRANSFORM: BAD_BPW, then `sizeImage` (R166, R169). -/
def sizingPhase (s : State) : Res Sizing :=
  (checkBpw s).andThen fun bpw s => sizeImage s.fileSize.toNat bpw s.cfg.aen s

/-- The body of SIZE (R166). -/
def sizeBody (s : State) : Res Unit := (sizingPhase s).andThen fun _ s => .ok () s

/-- SIZE (R166). -/
def execSize (s : State) : Host.Outcome State Fault Refusal := runCommand sizeBody s

/-! ## The transform -/

/-- The parse of TRANSFORM's step 6 for one selector, when that permutation is enabled (R168). -/
def parseIf (enabled : Bool) (sel : Sel) (width : Nat) (s : State) : Res Unit :=
  if enabled then parsePermutation sel width s else .ok () s

/-- `outAddr` of the word at offset `pos`: the address-permutation unit (R173). -/
def outAddr (s : State) (z : Sizing) (bpw pos : Nat) : Nat :=
  if s.cfg.aen then bpw * swizzleWord (pos / bpw) s.aperm z.nab else pos

/-- The word at offset `pos` after decoding and the data permutation (R174, R175). -/
def outWord (s : State) (z : Sizing) (bpw pos : Nat) : Nat :=
  let word := decodeWord (s.inBytes pos bpw) bpw s.cfg.big
  if s.cfg.den then swizzleWord word s.dperm z.ndb else word

/-- One iteration of the loop: the word at `pos` goes to its destination in OBUF (R176). -/
def storeWord (s : State) (z : Sizing) (bpw : Nat) (m : Memory) (pos : Nat) : Memory :=
  m.writeBytes (outAddr s z bpw pos) (encodeWord (outWord s z bpw pos) bpw s.cfg.big)

/-- Steps 7 and 8 of R169 on OBUF: the zero fill, then `pos = 0, bpw, 2*bpw, ...` below `ws` in rising order
(R171, R172); a later write replaces an earlier one (R177). -/
def outputImage (s : State) (z : Sizing) (bpw : Nat) : Memory :=
  ((List.range (z.ws / bpw)).map (fun i => i * bpw)).foldl (storeWord s z bpw) (s.obuf.zeroFill z.ws)

/-- Steps 7 to 9 of R169: the ALLOC check (R170), the output and OUT_VALID (R181). -/
def outputPhase (z : Sizing) (s : State) : Res Unit :=
  if s.params.bufBytes < z.ws then
    .stop (raiseFatal .alloc (BitVec.ofNat 32 z.ws) (BitVec.ofNat 32 (z.ws / 2 ^ 32)) .addr s)
  else .ok () (s.setOutput (outputImage s z s.cfg.bpw.toNat))

/-- The body of TRANSFORM (R169). -/
def transformBody (s : State) : Res Unit :=
  (sizingPhase s).andThen fun z s =>
    (parseIf s.cfg.aen .addr z.nab s).andThen fun _ s =>
      (parseIf s.cfg.den .data z.ndb s).andThen fun _ s =>
        outputPhase z s

/-- TRANSFORM (R185). -/
def execTransform (s : State) : Host.Outcome State Fault Refusal := runCommand transformBody s

end Sys2Proof.Machine
end

