-- ==== Sys2Proof/Machine/Dispatch.lean ====
section
/-! DEFINITION. One arm per command, each a direct call of its meaning. -/

namespace Sys2Proof.Machine

def exec (i : Instr) (s : State) : Host.Outcome State Fault Refusal :=
  match i with
  | .size => Sys2Proof.Machine.execSize s
  | .transform => Sys2Proof.Machine.execTransform s
  | .parseA width => Sys2Proof.Machine.execParseA width s
  | .parseD width => Sys2Proof.Machine.execParseD width s
  | .swizzleA => Sys2Proof.Machine.execSwizzleA s
  | .swizzleD => Sys2Proof.Machine.execSwizzleD s
  | .decode => Sys2Proof.Machine.execDecode s
  | .encode => Sys2Proof.Machine.execEncode s

end Sys2Proof.Machine
end

