-- ==== Sys2Proof/Machine/Registers.lean ====
section
/-! DEFINITION. The register map: the registers, their offsets, what a read returns and what a write does
(10_state.md section 2). -/

namespace Sys2Proof.Machine

/-- The registers of the map (10_state.md section 2). -/
inductive Reg where
  | cmd
  | status
  | errCode
  | errInfo0
  | errInfo1
  | cfg
  | fileSizeLo
  | fileSizeHi
  | workingSizeLo
  | workingSizeHi
  | bits
  | operand
  | result
  | pw
  | aspecLen
  | dspecLen
  | diagCount
  | aperm (i : Fin 32)
  | dperm (i : Fin 32)
  | diagEvent (j : Fin 64)
  | diagInfo0 (j : Fin 64)
  | diagInfo1 (j : Fin 64)
deriving DecidableEq, Repr

/-- A register's offset from the register base (10_state.md section 2). -/
def Reg.offset : Reg → Nat
  | .cmd => 0x000
  | .status => 0x004
  | .errCode => 0x008
  | .errInfo0 => 0x00C
  | .errInfo1 => 0x010
  | .cfg => 0x014
  | .fileSizeLo => 0x018
  | .fileSizeHi => 0x01C
  | .workingSizeLo => 0x020
  | .workingSizeHi => 0x024
  | .bits => 0x028
  | .operand => 0x02C
  | .result => 0x030
  | .pw => 0x034
  | .aspecLen => 0x038
  | .dspecLen => 0x03C
  | .diagCount => 0x040
  | .aperm i => 0x080 + 4 * i.val
  | .dperm i => 0x100 + 4 * i.val
  | .diagEvent j => 0x200 + 16 * j.val
  | .diagInfo0 j => 0x204 + 16 * j.val
  | .diagInfo1 j => 0x208 + 16 * j.val

/-- The registers below 0x080, in the order of their offsets 0x000, 0x004, ... (10_state.md section 2). -/
def lowRegs : List Reg :=
  [.cmd, .status, .errCode, .errInfo0, .errInfo1, .cfg, .fileSizeLo, .fileSizeHi, .workingSizeLo, .workingSizeHi,
   .bits, .operand, .result, .pw, .aspecLen, .dspecLen, .diagCount]

/-- The register of a DIAG entry at word `q` of its 16 bytes; the fourth word is reserved (10_state.md section 2). -/
def diagReg (j : Fin 64) (q : Nat) : Option Reg :=
  if q = 0 then some (.diagEvent j)
  else if q = 1 then some (.diagInfo0 j)
  else if q = 2 then some (.diagInfo1 j)
  else none

/-- The register at an offset, if the map lists one there (R22, R23). -/
def Reg.ofOffset (off : Nat) : Option Reg :=
  if off % 4 ≠ 0 then none
  else if off < 0x080 then lowRegs[off / 4]?
  else if off < 0x100 then some (.aperm (Fin.ofNat 32 ((off - 0x080) / 4)))
  else if off < 0x180 then some (.dperm (Fin.ofNat 32 ((off - 0x100) / 4)))
  else if off < 0x200 then none
  else if off < 0x600 then diagReg (Fin.ofNat 64 ((off - 0x200) / 16)) (off % 16 / 4)
  else none

/-! ## The numeric codes of the fields -/

/-- The SEL bit (10_state.md R27, R36). -/
def selBit : Sel → Nat
  | .addr => 0
  | .data => 1

/-- CODE of ERR_CODE (60_exceptions.md R191). -/
def ErrCode.code : ErrCode → Nat
  | .none => 0
  | .badCmd => 1
  | .badBpw => 2
  | .badWidth => 3
  | .noPerm => 4
  | .addrWidth => 5
  | .count => 6
  | .range => 7
  | .alloc => 8

/-- KIND of a DIAG event (60_exceptions.md R198). -/
def WarnKind.code : WarnKind → Nat
  | .notPow2 => 1
  | .notMult => 2
  | .dup => 3

/-- ERR_CODE: CODE in [7:0], SEL in [8] (R27). -/
def ErrRegs.word (e : ErrRegs) : Word := BitVec.ofNat 32 (e.code.code + 256 * selBit e.sel)

/-- CFG: AEN, DEN, BIG in [0], [1], [2], BPW in [6:4], the rest 0 (R28). -/
def Cfg.word (c : Cfg) : Word :=
  BitVec.ofNat 32 (flagBit c.aen + 2 * flagBit c.den + 4 * flagBit c.big + 16 * c.bpw.toNat)

/-- A pair of 6-bit fields at [5:0] and [13:8]: the layout of BITS and PW (R32, R34). -/
def fieldPair (lo hi : BitVec 6) : Word := BitVec.ofNat 32 (lo.toNat + 256 * hi.toNat)

/-- EVENT of a DIAG entry: KIND in [3:0], SEL in [4] (R36). -/
def DiagEvent.word (e : DiagEvent) : Word := BitVec.ofNat 32 (e.kind.code + 16 * selBit e.sel)

/-- A field of DIAG[j], which reads 0 at and above DIAG_COUNT (R36). -/
def State.diagField (s : State) (j : Nat) (f : DiagEvent → Word) : Word :=
  match s.diag[j]? with
  | some e => f e
  | none => 0

/-! ## Reads and writes -/

/-- What a read of a register returns; it changes nothing (20_memory.md R73). A read of CMD returns 0 (R23). -/
def Reg.read (r : Reg) (s : State) : Word :=
  match r with
  | .cmd => 0
  | .status => s.status.word
  | .errCode => s.err.word
  | .errInfo0 => s.err.info0
  | .errInfo1 => s.err.info1
  | .cfg => s.cfg.word
  | .fileSizeLo => s.fileSize.extractLsb' 0 32
  | .fileSizeHi => s.fileSize.extractLsb' 32 32
  | .workingSizeLo => s.workingSize.extractLsb' 0 32
  | .workingSizeHi => s.workingSize.extractLsb' 32 32
  | .bits => fieldPair s.nab s.ndb
  | .operand => s.operand
  | .result => s.result
  | .pw => fieldPair s.apw s.dpw
  | .aspecLen => s.aspecLen.setWidth 32
  | .dspecLen => s.dspecLen.setWidth 32
  | .diagCount => BitVec.ofNat 32 s.diag.length
  | .aperm i => (s.aperm.get i).setWidth 32
  | .dperm i => (s.dperm.get i).setWidth 32
  | .diagEvent j => s.diagField j DiagEvent.word
  | .diagInfo0 j => s.diagField j DiagEvent.info0
  | .diagInfo1 j => s.diagField j DiagEvent.info1

/-- The fields of CFG that a written word gives; its reserved bits are dropped (R28, R29). -/
def Cfg.ofWord (v : Word) : Cfg :=
  { aen := v.getLsbD 0, den := v.getLsbD 1, big := v.getLsbD 2, bpw := v.extractLsb' 4 3 }

/-- What a write to ASPEC_LEN or DSPEC_LEN stores: `min(v[15:0], SPEC_BYTES)` (R35). -/
def storedLen (p : Params) (v : Word) : BitVec 16 :=
  BitVec.ofNat 16 (min (v.extractLsb' 0 16).toNat p.specBytes)

/-- What a write to a register other than CMD does; a read-only register ignores it (R23). CMD is not written
here: writing it starts a command (R24), which `hostAccess` does. -/
def Reg.write (r : Reg) (v : Word) (s : State) : State :=
  match r with
  | .cfg => { s with cfg := Cfg.ofWord v }
  | .fileSizeLo => { s with fileSize := s.fileSize.extractLsb' 32 32 ++ v }
  | .fileSizeHi => { s with fileSize := v ++ s.fileSize.extractLsb' 0 32 }
  | .operand => { s with operand := v }
  | .aspecLen => { s with aspecLen := storedLen s.params v }
  | .dspecLen => { s with dspecLen := storedLen s.params v }
  | .cmd | .status | .errCode | .errInfo0 | .errInfo1 | .workingSizeLo | .workingSizeHi | .bits | .result | .pw
  | .diagCount | .aperm _ | .dperm _ | .diagEvent _ | .diagInfo0 _ | .diagInfo1 _ => s

end Sys2Proof.Machine
end

