-- ==== Sys2Proof/Machine/Bus.lean ====
section
/-! DEFINITION. What each access of the host does to the engine (10_state.md R22 to R24; 20_memory.md R64, R72, R73;
70_reset_and_hazards.md R221, R226). -/

namespace Sys2Proof.Machine

/-- A write of a command word to CMD: the word is decoded after the command start, and an illegal word raises
BAD_CMD and nothing else (R24; 30_encoding.md R85; 60_exceptions.md R204). -/
def writeCmd (c : Word) (s : State) : Host.Outcome State Fault Refusal :=
  match decode c with
  | .cmd i => exec i s
  | .badCmd _ => .next (raiseFatal .badCmd c 0 .addr (commandStart s))

/-- A register write: only a whole register at a listed offset counts (20_memory.md R72; 10_state.md R23). -/
def regWrite (off nbytes : Nat) (v : Word) (s : State) : Host.Outcome State Fault Refusal :=
  if nbytes ≠ 4 then .next s
  else
    match Reg.ofOffset off with
    | none => .next s
    | some r => if r = .cmd then writeCmd v s else .next (r.write v s)

/-- What a register read returns: 0 for an access of another width or at an unlisted offset (20_memory.md R72;
10_state.md R23). -/
def regRead (off nbytes : Nat) (s : State) : Word :=
  if nbytes ≠ 4 then 0
  else
    match Reg.ofOffset off with
    | none => 0
    | some r => r.read s

/-- A host write of one byte: OBUF and offsets beyond the space ignore it (20_memory.md R64). -/
def hostWriteByte (sp : Space) (k : Nat) (b : Byte) (s : State) : State :=
  if sp = .obuf then s
  else if k < s.params.size sp then s.setMem sp ((s.mem sp).write k b)
  else s

/-- What a host read of one byte returns: 0 beyond the space (20_memory.md R64). -/
def hostReadByte (sp : Space) (k : Nat) (s : State) : Byte :=
  if k < s.params.size sp then s.byte sp k else 0

/-- Reset: the state of R220 with the machine's own parameters. The contents of the byte spaces are unspecified, so
they take a fresh draw (R221, R222; log entry 2). What the host still has to do, and has read, is the host's. -/
def resetEngine (s : State) : State :=
  { State.reset with
    params := s.params
    draw := s.draw + 1
    memDraw := s.draw
    bus := s.bus
    rdata := s.rdata }

/-- Whether the host may do this while STATE = BUSY: reading STATUS and applying reset, nothing else
(70_reset_and_hazards.md R221, R226). -/
def allowedWhileBusy : Access → Bool
  | .regRead off nbytes => decide (off = 0x004 ∧ nbytes = 4)
  | .reset => true
  | .regWrite _ _ _ => false
  | .byteWrite _ _ _ => false
  | .byteRead _ _ => false

/-- One access of the host. -/
def hostAccess (a : Access) (s : State) : Host.Outcome State Fault Refusal :=
  if s.status.state = .busy ∧ allowedWhileBusy a = false then .refused .hostAccessWhileBusy
  else
    match a with
    | .regWrite off nbytes v => regWrite off nbytes v s
    | .regRead off nbytes => .next { s with rdata := regRead off nbytes s }
    | .byteWrite sp k b => .next (hostWriteByte sp k b s)
    | .byteRead sp k => .next { s with rdata := (hostReadByte sp k s).setWidth 32 }
    | .reset => .next (resetEngine s)

/-- STATUS as a command write needs it: STATE other than BUSY (R24). -/
def Status.notBusy (t : Status) : Status :=
  if t.state = .busy then { t with state := .done } else t

end Sys2Proof.Machine
end

