-- ==== Sys2Proof/Machine/Step.lean ====
section
/-! DEFINITION. One step of the machine: the host's next access, with the command it may start, or an idle step. -/

namespace Sys2Proof.Machine

/-- One step. With no access pending the engine is idle and holds all its state (60_exceptions.md R211). -/
def step (s : State) : Host.Outcome State Fault Refusal :=
  match s.bus with
  | [] => .next s
  | a :: rest => hostAccess a { s with bus := rest }

/-- `s` with a write of the row's command word to CMD as the host's next access, and STATE other than BUSY, so
that the write starts the command (log entry 5). -/
def State.withFetchWord (s : State) (nbits w : Nat) : State :=
  { s with
    bus := .regWrite 0x000 4 (tableWord nbits w) :: s.bus
    status := s.status.notBusy }

end Sys2Proof.Machine
end

