-- ==== Sys2Proof/Machine/HostAsm.lean ====
section
/-! DEFINITION. The host's side: the spellings of spec strings (30_encoding.md section 2), the host assembly with its
pseudo-instructions (section 3), and the mapping of the source's command line onto the engine (section 4). -/

namespace Sys2Proof.Machine

/-! ## Spec strings -/

/-- The decimal digits of a number as bytes (93_implementation_defined.md G1). -/
def decimalText (n : Nat) : List Byte := (Nat.toDigits 10 n).map (fun c => BitVec.ofNat 8 c.toNat)

/-- The spec string whose tokens are the given indices, most significant output bit first (R88). -/
def specText : List Nat → List Byte
  | [] => []
  | [n] => decimalText n
  | n :: ns => decimalText n ++ 0x2C :: specText ns

/-- The canonical spelling of the identity permutation of width `w` (R90). -/
def identitySpec (w : Nat) : List Byte := specText (List.range w).reverse

/-- The canonical spelling of bit reversal of width `w` (R90). -/
def reversalSpec (w : Nat) : List Byte := specText (List.range w)

/-! ## Host statements -/

/-- The straight-line statements and pseudo-instructions of the host assembly (R91 to R95). -/
inductive HostStmt where
  /-- `wr REG, v` -/
  | wr (r : Reg) (v : Word)
  /-- `rd REG` -/
  | rd (r : Reg)
  /-- `cmd M` -/
  | cmd (i : Instr)
  /-- `wait` -/
  | wait
  /-- `wrb S, a, b0 b1 ...` -/
  | wrb (sp : Space) (a : Nat) (bs : List Byte)
  /-- `rdb S, a, n` -/
  | rdb (sp : Space) (a n : Nat)
  /-- `wrs A, "text"` and `wrs D, "text"` -/
  | wrs (sel : Sel) (text : List Byte)
  /-- `wrsize n` -/
  | wrsize (n : Nat)
  /-- `run` -/
  | run
deriving DecidableEq, Repr

/-- A write of a whole register. -/
def wrAccess (r : Reg) (v : Word) : Access := .regWrite r.offset 4 v

/-- A read of a whole register. -/
def rdAccess (r : Reg) : Access := .regRead r.offset 4

/-- Writes of bytes at rising offsets from `a` (R92, `wrb`). -/
def wrbAccesses (sp : Space) : Nat → List Byte → List Access
  | _, [] => []
  | a, b :: bs => .byteWrite sp a b :: wrbAccesses sp (a + 1) bs

/-- Reads of `n` bytes at rising offsets from `a` (R92, `rdb`). -/
def rdbAccesses (sp : Space) (a n : Nat) : List Access :=
  (List.range n).map (fun i => .byteRead sp (a + i))

/-- The space a `wrs` writes (R93). -/
def wrsSpace : Sel → Space
  | .addr => .aspec
  | .data => .dspec

/-- The length register a `wrs` writes (R93). -/
def wrsLen : Sel → Reg
  | .addr => .aspecLen
  | .data => .dspecLen

/-- The accesses of a statement, with the expansions of R93, R94 and R95. A `wait` is one read of STATUS: a command
is one step here, so that read finds STATE other than BUSY (log entry 5). -/
def HostStmt.accesses : HostStmt → List Access
  | .wr r v => [wrAccess r v]
  | .rd r => [rdAccess r]
  | .cmd i => [wrAccess .cmd (encode i)]
  | .wait => [rdAccess .status]
  | .wrb sp a bs => wrbAccesses sp a bs
  | .rdb sp a n => rdbAccesses sp a n
  | .wrs sel text =>
    wrbAccesses (wrsSpace sel) 0 text ++ [wrAccess (wrsLen sel) (BitVec.ofNat 32 text.length)]
  | .wrsize n =>
    [wrAccess .fileSizeLo (BitVec.ofNat 32 (n % 2 ^ 32)), wrAccess .fileSizeHi (BitVec.ofNat 32 (n / 2 ^ 32))]
  | .run => [wrAccess .cmd (encode .transform), rdAccess .status]

/-- A host program: statements, and the branch `if STATE = X then ... else ...` (R92). -/
inductive HostProg where
  | nil
  | stmt (x : HostStmt) (rest : HostProg)
  | ifState (x : RunState) (thenProg elseProg rest : HostProg)
deriving DecidableEq, Repr

/-- A host program under way: the engine, the STATE the host last read from STATUS, and every value it read. -/
structure HostRun where
  engine    : State
  lastState : RunState
  reads     : List Word
deriving DecidableEq, Repr

/-- STATE as the host reads it from STATUS[1:0] (10_state.md R25). -/
def stateOfStatus (v : Word) : RunState :=
  if v.extractLsb' 0 2 = 0 then .idle
  else if v.extractLsb' 0 2 = 1 then .busy
  else if v.extractLsb' 0 2 = 2 then .done
  else .error

/-- What the host knows after an access that left the engine in `t`. -/
def HostRun.after (h : HostRun) (a : Access) (t : State) : HostRun :=
  match a with
  | .regRead off _ =>
    { engine := t
      lastState := if off = Reg.status.offset then stateOfStatus t.rdata else h.lastState
      reads := h.reads ++ [t.rdata] }
  | .byteRead _ _ => { h with engine := t, reads := h.reads ++ [t.rdata] }
  | .regWrite _ _ _ => { h with engine := t }
  | .byteWrite _ _ _ => { h with engine := t }
  | .reset => { h with engine := t }

/-- Accesses one after another. -/
def performAll : List Access → HostRun → Host.Outcome HostRun Fault Refusal
  | [], h => .next h
  | a :: rest, h =>
    match hostAccess a h.engine with
    | .next t => performAll rest (h.after a t)
    | .fault r => .fault r
    | .refused r => .refused r

/-- A host program run to its end (R92). -/
def HostProg.run : HostProg → HostRun → Host.Outcome HostRun Fault Refusal
  | .nil, h => .next h
  | .stmt x rest, h =>
    match performAll x.accesses h with
    | .next h' => rest.run h'
    | .fault r => .fault r
    | .refused r => .refused r
  | .ifState x thenProg elseProg rest, h =>
    match (if h.lastState = x then thenProg.run h else elseProg.run h) with
    | .next h' => rest.run h'
    | .fault r => .fault r
    | .refused r => .refused r

/-- Statements one after another, as a program. -/
def HostProg.ofStmts : List HostStmt → HostProg
  | [] => .nil
  | x :: xs => .stmt x (HostProg.ofStmts xs)

/-! ## The command line (R96, R97) -/

/-- The source's invocation after its glue has parsed the options: `-a`, `-d`, `-w`, `-b` and the bytes of
in_path (R96). -/
structure Invocation where
  addr  : Option (List Byte)
  data  : Option (List Byte)
  word  : Option Nat
  big   : Bool
  input : List Byte
deriving DecidableEq, Repr

/-- N of R97: 1 when `-w` is absent. -/
def Invocation.bytesPerWord (v : Invocation) : Nat := v.word.getD 1

/-- The glue rejects an N outside [1, 4] before touching the engine (R97). -/
def Invocation.legal (v : Invocation) : Bool := decide (1 ≤ v.bytesPerWord ∧ v.bytesPerWord ≤ 4)

/-- The statements of R97 up to `run`. -/
def Invocation.stmts (v : Invocation) : List HostStmt :=
  [.wr .cfg (BitVec.ofNat 32
    (flagBit v.addr.isSome + 2 * flagBit v.data.isSome + 4 * flagBit v.big + 16 * v.bytesPerWord))]
  ++ (match v.addr with | some t => [.wrs .addr t] | none => [])
  ++ (match v.data with | some t => [.wrs .data t] | none => [])
  ++ [.wrb .ibuf 0 v.input, .wrsize v.input.length, .run]

/-- What the host makes of a finished run (60_exceptions.md R206). -/
inductive CliResult where
  /-- STATE = DONE: OBUF[0, WORKING_SIZE) goes to out_path, and the DIAG events are printed as warnings. -/
  | written (output : List Byte) (warnings : List DiagEvent)
  /-- Otherwise: a message for ERR_CODE, and the warnings. -/
  | failed (err : ErrRegs) (warnings : List DiagEvent)
deriving DecidableEq, Repr

/-- The end of R97's program, read off the engine. -/
def cliResult (s : State) : CliResult :=
  if s.status.state = .done then
    .written ((List.range s.workingSize.toNat).map (fun k => hostReadByte .obuf k s)) s.diag
  else .failed s.err s.diag

/-- The pseudo-instruction `swizzle` (R97) from an engine state; none when the glue rejects the invocation. -/
def Invocation.swizzle (v : Invocation) (s : State) : Option (Host.Outcome CliResult Fault Refusal) :=
  if v.legal then
    match (HostProg.ofStmts v.stmts).run { engine := s, lastState := s.status.state, reads := [] } with
    | .next h => some (.next (cliResult h.engine))
    | .fault r => some (.fault r)
    | .refused r => some (.refused r)
  else none

end Sys2Proof.Machine
end

