-- ==== Sys2Proof/Safety.lean ====
section
/-! DEFINITION. What a good state of the engine is (the invariant every step keeps), and the terms in which the
statements speak of spec strings, sizings and transforms. -/

namespace Sys2Proof.Machine

/-- Every entry of the permutation is below its width (40_parser.md R116, R120). -/
def PermBelow (p : PermFile) (w : BitVec 6) : Prop :=
  ∀ i, i < w.toNat → permAt p i < w.toNat

/-- The byte space is in canonical form and lies inside its size (20_memory.md R60, R61). -/
def MemOk (m : Memory) (size : Nat) : Prop :=
  m.wf ∧ ∀ c ∈ m, c.1 < size

/-- A warning bit of STATUS says whether the log holds an event of its kind (10_state.md R25). -/
def WarningsAgree (t : Status) (d : List DiagEvent) : Prop :=
  ∀ k, t.warning k = d.any (fun e => decide (e.kind = k))

/-- The invariant of the engine between two accesses of the host. -/
structure State.Inv (s : State) : Prop where
  /-- The parameters meet the spec's constraints. -/
  params : s.params.wf
  /-- No command is under way: a command is one step (10_state.md R20, R26). -/
  notBusy : s.status.state ≠ .busy
  /-- OUT_VALID only after a command that ended DONE (10_state.md R25). -/
  outValid : s.status.outValid = true → s.status.state = .done
  /-- An error is recorded exactly in STATE = ERROR (60_exceptions.md R192, R193). -/
  errIff : s.status.state = .error ↔ s.err.code ≠ .none
  /-- Without an error the error registers are 0 (60_exceptions.md R192). -/
  errClear : s.status.state ≠ .error → s.err = ErrRegs.clear
  /-- The warning bits agree with the log (10_state.md R25). -/
  warnings : WarningsAgree s.status s.diag
  /-- The log never overflows (10_state.md R37). -/
  diagLen : s.diag.length ≤ 64
  /-- Permutation widths are at most 32 (00_scope.md R4). -/
  apwLe : s.apw.toNat ≤ 32
  dpwLe : s.dpw.toNat ≤ 32
  /-- The loaded permutations name bits below their widths (40_parser.md R116). -/
  apermBelow : PermBelow s.aperm s.apw
  dpermBelow : PermBelow s.dperm s.dpw
  /-- WORKING_SIZE and BITS hold a sizing that succeeded, or 0 (43_transform.md R163 to R165). -/
  workingSizeLt : s.workingSize.toNat < 2 ^ 35
  nabLe : s.nab.toNat ≤ 32
  ndbOk : s.ndb.toNat ∈ [0, 8, 16, 24, 32]
  /-- A result that OUT_VALID announces fits OBUF (43_transform.md R170). -/
  outFits : s.status.outValid = true → s.workingSize.toNat ≤ s.params.bufBytes
  /-- The spec lengths are legal (10_state.md R35). -/
  aspecLenLe : s.aspecLen.toNat ≤ s.params.specBytes
  dspecLenLe : s.dspecLen.toNat ≤ s.params.specBytes
  /-- The byte spaces are canonical and inside their sizes. -/
  ibufOk : MemOk s.ibuf s.params.bufBytes
  obufOk : MemOk s.obuf s.params.bufBytes
  aspecOk : MemOk s.aspec s.params.specBytes
  dspecOk : MemOk s.dspec s.params.specBytes
  /-- The draw of the unwritten bytes was taken (log entry 4). -/
  drawn : s.memDraw < s.draw

/-! ## The commands by selector -/

/-- PARSE.A or PARSE.D. -/
def parseCmd : Sel → Nat → Instr
  | .addr, w => .parseA w
  | .data, w => .parseD w

/-- SWIZZLE.A or SWIZZLE.D. -/
def swizzleCmd : Sel → Instr
  | .addr => .swizzleA
  | .data => .swizzleD

/-! ## Spec strings -/

/-- The tokens of the spec string of a selector (40_parser.md R110, R111). -/
def State.tokens (s : State) (sel : Sel) : List (List Byte) := splitTokens (s.specString sel)

/-- The value of token `t` (40_parser.md R113). -/
def tokenAt (toks : List (List Byte)) (t : Nat) : Int := tokenValue (toks.getD t [])

/-- Token `t` is in range for a width (40_parser.md R116). -/
def InRange (toks : List (List Byte)) (width t : Nat) : Prop :=
  0 ≤ tokenAt toks t ∧ tokenAt toks t < (width : Int)

/-- The spec string of a selector parses against a width: the right number of tokens, each in range
(40_parser.md R114, R116). -/
def SpecOk (s : State) (sel : Sel) (width : Nat) : Prop :=
  (s.tokens sel).length = width ∧ ∀ t, t < width → InRange (s.tokens sel) width t

/-- Token `t` has the value of an earlier token (40_parser.md R117). -/
def repeatsEarlier (toks : List (List Byte)) (t : Nat) : Bool :=
  (List.range t).any (fun u => decide (tokenAt toks u = tokenAt toks t))

/-- The DUP events of the tokens before token `n`, in order (40_parser.md R117). -/
def dupEvents (sel : Sel) (toks : List (List Byte)) (n : Nat) : List DiagEvent :=
  ((List.range n).filter (repeatsEarlier toks)).map (fun t => dupEvent sel (tokenAt toks t).toNat t)

/-- The entries a successful parse leaves: token `t` in slot `width - 1 - t`, the entries at and above `width` as
they were (40_parser.md R115, R120). -/
def PermParsed (toks : List (List Byte)) (width : Nat) (old new : PermFile) : Prop :=
  (∀ t, t < width → permAt new (width - 1 - t) = (tokenAt toks t).toNat) ∧
  (∀ i, width ≤ i → i < 32 → permAt new i = permAt old i)

/-- How the parse of a spec string that is not good ends: the error it records (60_exceptions.md R191) and the DUP
events it has logged. The wrong number of tokens is COUNT, before any token's value (40_parser.md R114); otherwise the
first token `t` out of range is RANGE, after the DUP events of the tokens before it (40_parser.md R116, R117). -/
def ParseError (sel : Sel) (toks : List (List Byte)) (width : Nat) (e : ErrRegs) (es : List DiagEvent) : Prop :=
  (toks.length ≠ width ∧ es = [] ∧
    e = { code := .count, sel := sel, info0 := BitVec.ofNat 32 width, info1 := BitVec.ofNat 32 toks.length }) ∨
  (toks.length = width ∧ ∃ t, t < width ∧ (∀ u, u < t → InRange toks width u) ∧ ¬ InRange toks width t ∧
    es = dupEvents sel toks t ∧
    e = { code := .range, sel := sel, info0 := sat32 (tokenAt toks t), info1 := BitVec.ofNat 32 width })

/-! ## Sizings and transforms -/

/-- What sizing computes from CFG and FILE_SIZE (43_transform.md R160). -/
def State.sizing (s : State) : Sizing :=
  let ws := paddedSize s.fileSize.toNat s.cfg.bpw.toNat s.cfg.aen
  { ws := ws, nab := floorLog2 (ws / s.cfg.bpw.toNat), ndb := 8 * s.cfg.bpw.toNat }

/-- The word count sizing computes (43_transform.md R160). -/
def State.words (s : State) : Nat := s.sizing.ws / s.cfg.bpw.toNat

/-- CFG.BPW is legal (10_state.md R29). -/
def BpwLegal (s : State) : Prop := 1 ≤ s.cfg.bpw.toNat ∧ s.cfg.bpw.toNat ≤ 4

/-- Sizing succeeds: BPW is legal and `2 <= words < 2^33` (43_transform.md R163). -/
def SizingOk (s : State) : Prop := BpwLegal s ∧ 2 ≤ s.words ∧ s.words < 2 ^ 33

/-- Both parses of a TRANSFORM succeed (43_transform.md R168). -/
def SpecsOk (s : State) : Prop :=
  (s.cfg.aen = true → SpecOk s .addr s.sizing.nab) ∧ (s.cfg.den = true → SpecOk s .data s.sizing.ndb)

/-- A TRANSFORM passes all its checks (43_transform.md R185). -/
def TransformReady (s : State) : Prop :=
  SizingOk s ∧ SpecsOk s ∧ s.sizing.ws ≤ s.params.bufBytes

/-- The events of a TRANSFORM whose parses succeed, in order (43_transform.md R185). -/
def State.transformEvents (s : State) : List DiagEvent :=
  sizingEvents s.fileSize.toNat s.cfg.bpw.toNat s.cfg.aen ++
  (if s.cfg.aen then dupEvents .addr (s.tokens .addr) s.sizing.nab else []) ++
  (if s.cfg.den then dupEvents .data (s.tokens .data) s.sizing.ndb else [])

/-- STATUS at the end of a command: its STATE, OUT_VALID, and a warning bit for each kind that was logged. -/
def endStatus (state : RunState) (outValid : Bool) (events : List DiagEvent) : Status :=
  { state := state
    outValid := outValid
    wPow2 := events.any (fun e => decide (e.kind = .notPow2))
    wMult := events.any (fun e => decide (e.kind = .notMult))
    wDup := events.any (fun e => decide (e.kind = .dup)) }

/-- The entries of a permutation of width `w` name bits below `w`, each once (41_swizzler.md R144). -/
def IsBijection (p : PermFile) (w : Nat) : Prop :=
  (∀ i, i < w → permAt p i < w) ∧ (∀ i j, i < w → j < w → permAt p i = permAt p j → i = j)

/-- The fields only the host writes, and the bytes of the spaces the engine only reads, are the same in both states
(10_state.md R30, R31, R33, R35; 20_memory.md R62). -/
def SameHostSide (s t : State) : Prop :=
  t.params = s.params ∧ t.cfg = s.cfg ∧ t.fileSize = s.fileSize ∧ t.operand = s.operand ∧
  t.aspecLen = s.aspecLen ∧ t.dspecLen = s.dspecLen ∧ t.bus = s.bus ∧ t.rdata = s.rdata ∧
  ∀ sp k, sp ≠ .obuf → t.byte sp k = s.byte sp k

end Sys2Proof.Machine
end

