-- ==== Sys2Proof/Certificates/Slice0/Obligations.lean ====
section
/-! DEFINITION. The statements for the provers. Each docstring names the rule of the spec it formalises. -/

open Sys2Proof Sys2Proof.Machine

/-! ## Reset and the host's accesses -/

/-- R220: what every register reads after reset, and that the byte spaces hold free values (log entry 2). -/
def Obligations.ResetRegistersReadTheirResetValues : Prop :=
  (∀ r : Reg, r.read State.reset = if r = .cfg then 0x00000010 else 0) ∧
  State.reset.status.state = .idle ∧ State.reset.apw = 0 ∧ State.reset.dpw = 0 ∧ State.reset.diag = [] ∧
  ∀ sp k, State.reset.byte sp k = Config.freeByte State.reset.memDraw sp k

/-- R221, R222: reset may come in any state, BUSY included; every register reads its reset value, the parameters stay,
and the byte spaces hold fresh free values (the draw is the model's, log entries 2 and 4). That the parameters and the
accesses still pending survive reset is the model's choice (log entry 11). No access but reset leads back to
STATE = IDLE. -/
def Obligations.ResetFromEveryState : Prop :=
  (∀ (a : Access) (s t : State), hostAccess a s = .next t → s.status.state ≠ .idle → t.status.state = .idle →
    a = .reset) ∧
  ∀ (s : State) (rest : List Access), s.bus = .reset :: rest →
    ∃ t, step s = .next t ∧ (∀ r : Reg, r.read t = r.read State.reset) ∧ t.status.state = .idle ∧
      t.params = s.params ∧ t.bus = rest ∧ t.memDraw = s.draw ∧ t.draw = s.draw + 1 ∧
      ∀ sp k, t.byte sp k = Config.freeByte s.draw sp k

/-- R24, R20: the host's write of a legal command word is that command, and the row's word placed by withFetchWord
is the very next one; with no access pending the engine holds its state (R211). -/
def Obligations.StepRunsTheDecodedCommand : Prop :=
  (∀ (s : State) (rest : List Access) (c : Word) (i : Instr),
    s.bus = .regWrite 0x000 4 c :: rest → s.status.state ≠ .busy → decode c = .cmd i →
      step s = exec i { s with bus := rest }) ∧
  (∀ (s : State) (i : Instr), i.wellFormed = true →
    step (s.withFetchWord 32 (encode i).toNat) = exec i s) ∧
  (∀ s : State, s.bus = [] → step s = .next s)

/-- R226, U4: while STATE = BUSY every access but a read of STATUS and reset is refused by name; the read gives
STATUS and changes nothing else. -/
def Obligations.AccessWhileBusyIsRefused : Prop :=
  ∀ (s : State) (a : Access) (rest : List Access), s.bus = a :: rest → s.status.state = .busy → a ≠ .reset →
    (a = .regRead 0x004 4 → step s = .next { s with bus := rest, rdata := s.status.word }) ∧
    (a ≠ .regRead 0x004 4 → step s = .refused .hostAccessWhileBusy)

/-- R64: accesses to the byte spaces at or above their size, and writes to OBUF. -/
def Obligations.AccessesOutsideTheByteSpaces : Prop :=
  ∀ (s : State) (sp : Space) (k : Nat) (b : Byte), s.status.state ≠ .busy →
    (s.params.size sp ≤ k → hostAccess (.byteRead sp k) s = .next { s with rdata := 0 }) ∧
    (s.params.size sp ≤ k → hostAccess (.byteWrite sp k b) s = .next s) ∧
    hostAccess (.byteWrite .obuf k b) s = .next s

/-- R60, R61, R73: a byte the host writes inside a space other than OBUF is read back, and no other byte of any space
and no register changes. -/
def Obligations.HostWrittenByteIsReadBack : Prop :=
  ∀ (s : State) (sp : Space) (k : Nat) (b : Byte), s.status.state ≠ .busy → sp ≠ .obuf → k < s.params.size sp →
    ∃ t, hostAccess (.byteWrite sp k b) s = .next t ∧
      hostAccess (.byteRead sp k) t = .next { t with rdata := b.setWidth 32 } ∧
      (∀ sp' k', (sp', k') ≠ (sp, k) → t.byte sp' k' = s.byte sp' k') ∧
      (∀ r : Reg, r.read t = r.read s) ∧ t.draw = s.draw ∧ t.bus = s.bus ∧ t.rdata = s.rdata ∧ t.params = s.params

/-- R23, R72, R73: a read of a listed register returns what the register holds and changes nothing; unlisted offsets,
read-only registers, reads of CMD, and accesses at an offset that is no multiple of 4 or of another width than a whole
register. -/
def Obligations.RegisterAccessesOutsideTheMap : Prop :=
  ∀ (s : State) (v : Word), s.status.state ≠ .busy →
    (∀ r : Reg, hostAccess (.regRead r.offset 4) s = .next { s with rdata := r.read s }) ∧
    (∀ off, Reg.ofOffset off = none →
      hostAccess (.regRead off 4) s = .next { s with rdata := 0 } ∧ hostAccess (.regWrite off 4 v) s = .next s) ∧
    (∀ r : Reg, r ∉ [Reg.cmd, .cfg, .fileSizeLo, .fileSizeHi, .operand, .aspecLen, .dspecLen] →
      hostAccess (.regWrite r.offset 4 v) s = .next s) ∧
    hostAccess (.regRead 0x000 4) s = .next { s with rdata := 0 } ∧
    (∀ off nbytes, (off % 4 ≠ 0 ∨ nbytes ≠ 4) →
      hostAccess (.regWrite off nbytes v) s = .next s ∧
      hostAccess (.regRead off nbytes) s = .next { s with rdata := 0 })

/-- 10_state.md section 2: the offset of each register names that register and no other offset does. -/
def Obligations.RegisterOffsetsAreUnambiguous : Prop :=
  ∀ (off : Nat) (r : Reg), Reg.ofOffset off = some r ↔ off = r.offset

/-- R25, R27, R28, R31 to R36, R38: what each register reads, field by field, in every state; the fields' numbers are
those of the spec's tables (R191, R198 for CODE and KIND). DIAG_COUNT and the order of the log are
`DiagRegistersReadTheLog`. -/
def Obligations.PackedRegisterFields : Prop :=
  ∀ s : State,
    ((s.status.state, (Reg.status.read s).extractLsb' 0 2) ∈
        ([(.idle, 0), (.busy, 1), (.done, 2), (.error, 3)] : List (RunState × BitVec 2)) ∧
      (Reg.status.read s).getLsbD 2 = s.status.outValid ∧ (Reg.status.read s).getLsbD 3 = s.status.wPow2 ∧
      (Reg.status.read s).getLsbD 4 = s.status.wMult ∧ (Reg.status.read s).getLsbD 5 = s.status.wDup ∧
      (Reg.status.read s).extractLsb' 6 26 = 0) ∧
    ((s.err.code, (Reg.errCode.read s).extractLsb' 0 8) ∈
        ([(.none, 0), (.badCmd, 1), (.badBpw, 2), (.badWidth, 3), (.noPerm, 4), (.addrWidth, 5), (.count, 6),
          (.range, 7), (.alloc, 8)] : List (ErrCode × BitVec 8)) ∧
      (Reg.errCode.read s).getLsbD 8 = decide (s.err.sel = .data) ∧ (Reg.errCode.read s).extractLsb' 9 23 = 0 ∧
      Reg.errInfo0.read s = s.err.info0 ∧ Reg.errInfo1.read s = s.err.info1) ∧
    ((Reg.cfg.read s).getLsbD 0 = s.cfg.aen ∧ (Reg.cfg.read s).getLsbD 1 = s.cfg.den ∧
      (Reg.cfg.read s).getLsbD 2 = s.cfg.big ∧ (Reg.cfg.read s).getLsbD 3 = false ∧
      (Reg.cfg.read s).extractLsb' 4 3 = s.cfg.bpw ∧ (Reg.cfg.read s).extractLsb' 7 25 = 0) ∧
    ((Reg.fileSizeLo.read s).toNat + 2 ^ 32 * (Reg.fileSizeHi.read s).toNat = s.fileSize.toNat ∧
      (Reg.workingSizeLo.read s).toNat + 2 ^ 32 * (Reg.workingSizeHi.read s).toNat = s.workingSize.toNat) ∧
    ((Reg.bits.read s).extractLsb' 0 6 = s.nab ∧ (Reg.bits.read s).extractLsb' 6 2 = 0 ∧
      (Reg.bits.read s).extractLsb' 8 6 = s.ndb ∧ (Reg.bits.read s).extractLsb' 14 18 = 0) ∧
    ((Reg.pw.read s).extractLsb' 0 6 = s.apw ∧ (Reg.pw.read s).extractLsb' 6 2 = 0 ∧
      (Reg.pw.read s).extractLsb' 8 6 = s.dpw ∧ (Reg.pw.read s).extractLsb' 14 18 = 0) ∧
    (Reg.operand.read s = s.operand ∧ Reg.result.read s = s.result ∧
      (Reg.aspecLen.read s).toNat = s.aspecLen.toNat ∧ (Reg.dspecLen.read s).toNat = s.dspecLen.toNat) ∧
    (∀ i : Fin 32, ((Reg.aperm i).read s).toNat = permAt s.aperm i.val ∧
      ((Reg.dperm i).read s).toNat = permAt s.dperm i.val) ∧
    ∀ (j : Fin 64) (e : DiagEvent), s.diag[j.val]? = some e →
      (e.kind, ((Reg.diagEvent j).read s).extractLsb' 0 4) ∈
        ([(.notPow2, 1), (.notMult, 2), (.dup, 3)] : List (WarnKind × BitVec 4)) ∧
      ((Reg.diagEvent j).read s).getLsbD 4 = decide (e.sel = .data) ∧
      ((Reg.diagEvent j).read s).extractLsb' 5 27 = 0

/-- R35: a write of a spec length stores `min(v[15:0], SPEC_BYTES)`, and the register reads that back. -/
def Obligations.SpecLengthWritesAreClamped : Prop :=
  ∀ (s : State) (sel : Sel) (v : Word), s.status.state ≠ .busy →
    ∃ t, hostAccess (.regWrite (wrsLen sel).offset 4 v) s = .next t ∧
      t.specLen sel = min (v.toNat % 65536) s.params.specBytes ∧
      ((wrsLen sel).read t).toNat = min (v.toNat % 65536) s.params.specBytes ∧
      t = { s with aspecLen := t.aspecLen, dspecLen := t.dspecLen } ∧
      (∀ sel', sel' ≠ sel → t.specLen sel' = s.specLen sel')

/-- R31, R33: the host's writes of OPERAND and of the two halves of FILE_SIZE, each with nothing else changed. The write
of CFG is in `IllegalBpwIsStoredAndRaisesBadBpw`, that of a spec length in `SpecLengthWritesAreClamped`. -/
def Obligations.HostWritesOfOperandAndFileSize : Prop :=
  ∀ (s : State) (v : Word), s.status.state ≠ .busy →
    hostAccess (.regWrite 0x02C 4 v) s = .next { s with operand := v } ∧
    (∃ n : BitVec 64, hostAccess (.regWrite 0x018 4 v) s = .next { s with fileSize := n } ∧
      n.toNat = s.fileSize.toNat / 2 ^ 32 * 2 ^ 32 + v.toNat) ∧
    ∃ n : BitVec 64, hostAccess (.regWrite 0x01C 4 v) s = .next { s with fileSize := n } ∧
      n.toNat = v.toNat * 2 ^ 32 + s.fileSize.toNat % 2 ^ 32

/-- R93, R94: after `wrs` the spec string of the selector is the text (its first SPEC_BYTES bytes when the space holds
no more, R35, R64), whatever stood there, and `wrsize n` leaves FILE_SIZE = n through its two registers (R31). -/
def Obligations.PseudoInstructionsFillTheOperands : Prop :=
  (∀ (h : HostRun) (sel : Sel) (text : List Byte), h.engine.status.state ≠ .busy → h.engine.params.wf → text.length < 65536 →
    ∃ h', performAll (HostStmt.wrs sel text).accesses h = .next h' ∧
      h'.engine.specString sel = text.take h.engine.params.specBytes ∧
      (∀ sel', sel' ≠ sel → h'.engine.specString sel' = h.engine.specString sel') ∧
      h'.engine = { h.engine with aspec := h'.engine.aspec, dspec := h'.engine.dspec,
                                  aspecLen := h'.engine.aspecLen, dspecLen := h'.engine.dspecLen }) ∧
  (∀ (h : HostRun) (n : Nat), h.engine.status.state ≠ .busy → n < 2 ^ 64 →
    ∃ h', performAll (HostStmt.wrsize n).accesses h = .next h' ∧ h'.engine.fileSize.toNat = n ∧
      h'.engine = { h.engine with fileSize := h'.engine.fileSize } ∧
      (Reg.fileSizeLo.read h'.engine).toNat = n % 2 ^ 32 ∧ (Reg.fileSizeHi.read h'.engine).toNat = n / 2 ^ 32)

/-- R36: DIAG_COUNT is the number of events, and DIAG[j] the j-th event in the order it was raised, or 0. -/
def Obligations.DiagRegistersReadTheLog : Prop :=
  ∀ (s : State) (j : Fin 64), s.diag.length ≤ 64 →
    (Reg.diagCount.read s).toNat = s.diag.length ∧
    (∀ e, s.diag[j.val]? = some e → (Reg.diagEvent j).read s = e.word ∧ (Reg.diagInfo0 j).read s = e.info0 ∧
      (Reg.diagInfo1 j).read s = e.info1) ∧
    (s.diag.length ≤ j.val → (Reg.diagEvent j).read s = 0 ∧ (Reg.diagInfo0 j).read s = 0 ∧
      (Reg.diagInfo1 j).read s = 0)

/-! ## Encoding -/

/-- 30_encoding.md R87: words of the spec, one of each command, decode to their commands. -/
def Obligations.SpecWordsDecode : Prop :=
  decode 0x00000001 = .cmd .size ∧ decode 0x00000002 = .cmd .transform ∧ decode 0x00000103 = .cmd (.parseA 8) ∧
  decode 0x00000413 = .cmd (.parseD 32) ∧ decode 0x00000004 = .cmd .swizzleA ∧ decode 0x00000014 = .cmd .swizzleD ∧
  decode 0x00000005 = .cmd .decode ∧ decode 0x00000006 = .cmd .encode

/-- R87: the legal command words are exactly the encodings of the well-formed commands, and each is the word the rule
gives. -/
def Obligations.LegalWordsAreExactlyTheEncodings : Prop :=
  (∀ i : Instr, i.wellFormed = true → decode (encode i) = .cmd i) ∧
  (∀ (c : Word) (i : Instr), decode c = .cmd i → i.wellFormed = true ∧ encode i = c) ∧
  encode .size = 0x00000001 ∧ encode .transform = 0x00000002 ∧ encode .swizzleA = 0x00000004 ∧
  encode .swizzleD = 0x00000014 ∧ encode .decode = 0x00000005 ∧ encode .encode = 0x00000006 ∧
  ∀ w, w ≤ 63 → encode (.parseA w) = 0x00000003 ||| (BitVec.ofNat 32 w <<< 5) ∧
    encode (.parseD w) = 0x00000013 ||| (BitVec.ofNat 32 w <<< 5)

/-- R85: which words are illegal, and that an illegal one raises BAD_CMD and changes nothing else. -/
def Obligations.IllegalWordsRaiseBadCmd : Prop :=
  ∀ (c : Word), ((∃ e, decode c = .badCmd e) ↔
      ((cmdOp c).toNat = 0 ∨ 7 ≤ (cmdOp c).toNat ∨ cmdReserved c ≠ 0 ∨
        (cmdSel c = 1 ∧ (cmdOp c).toNat ≠ 3 ∧ (cmdOp c).toNat ≠ 4) ∨ (cmdWidth c ≠ 0 ∧ (cmdOp c).toNat ≠ 3))) ∧
    ∀ (s : State) (e : DecodeReject), s.status.state ≠ .busy → decode c = .badCmd e →
      hostAccess (.regWrite 0x000 4 c) s = .next { s with
        status := endStatus .error false []
        err := { code := .badCmd, sel := .addr, info0 := c, info1 := 0 }
        diag := [] }

/-! ## The parser -/

/-- R111: the split keeps every byte, cuts at every comma and nowhere else, and gives one token more than there are
commas. -/
def Obligations.SplitCutsAtEveryComma : Prop :=
  ∀ text : List Byte,
    List.flatten (List.intersperse [(0x2C : Byte)] (splitTokens text)) = text ∧
    (∀ tok ∈ splitTokens text, (0x2C : Byte) ∉ tok) ∧
    (splitTokens text).length = text.count 0x2C + 1

/-- R113: white space, one sign, decimal digits, and the rest ignored; 0 where no digit stands after the white space
and the sign. -/
def Obligations.TokenValueReadsSignedDecimal : Prop :=
  ∀ (blanks digits rest : List Byte),
    (∀ b ∈ blanks, b ∈ [(0x20 : Byte), 0x09, 0x0A, 0x0B, 0x0C, 0x0D]) →
    (∀ b ∈ digits, 0x30 ≤ b.toNat ∧ b.toNat ≤ 0x39) →
    (∀ b, rest.head? = some b → ¬ (0x30 ≤ b.toNat ∧ b.toNat ≤ 0x39)) →
    (digits ≠ [] → tokenValue (blanks ++ digits ++ rest) =
      ((digits.foldl (fun n b => 10 * n + (b.toNat - 0x30)) 0 : Nat) : Int)) ∧
    (tokenValue (blanks ++ 0x2B :: digits ++ rest) =
      ((digits.foldl (fun n b => 10 * n + (b.toNat - 0x30)) 0 : Nat) : Int)) ∧
    (tokenValue (blanks ++ 0x2D :: digits ++ rest) =
      - ((digits.foldl (fun n b => 10 * n + (b.toNat - 0x30)) 0 : Nat) : Int)) ∧
    ((∀ b, rest.head? = some b → b ∉ [(0x20 : Byte), 0x09, 0x0A, 0x0B, 0x0C, 0x0D, 0x2B, 0x2D]) →
      tokenValue (blanks ++ rest) = 0)

/-- R115, R117, R120: a parse of a good spec string, its permutation, its DUP events and all it leaves alone. -/
def Obligations.ParseOfGoodSpec : Prop :=
  ∀ (sel : Sel) (w : Nat) (s : State), 1 ≤ w → w ≤ 32 → SpecOk s sel w →
    (dupEvents sel (s.tokens sel) w).length ≤ w - 1 ∧
    ∃ p, PermParsed (s.tokens sel) w (s.perm sel) p ∧
      exec (parseCmd sel w) s = .next ((State.setPerm { s with
        status := endStatus .done false (dupEvents sel (s.tokens sel) w)
        err := ErrRegs.clear
        diag := dupEvents sel (s.tokens sel) w } sel p).setPw sel (BitVec.ofNat 6 w))

/-- R114: the count check, before any token's value. Some permutation `p` is left (R121 leaves it open, so the
statement holds for whichever it is; log entry 3), and `n` is the model's own counter (log entry 4). -/
def Obligations.ParseCountMismatch : Prop :=
  ∀ (sel : Sel) (w : Nat) (s : State), 1 ≤ w → w ≤ 32 → (s.tokens sel).length ≠ w →
    ∃ p n, exec (parseCmd sel w) s = .next ((State.setPerm { s with
        status := endStatus .error false []
        err := { code := .count, sel := sel, info0 := BitVec.ofNat 32 w,
                 info1 := BitVec.ofNat 32 (s.tokens sel).length }
        diag := []
        draw := n } sel p).setPw sel 0)

/-- R116: the range check reports the first out-of-range token, saturated, after the DUP events of the tokens
before it. Some permutation `p` is left (R121 leaves it open; log entry 3), and `n` is the model's own counter
(log entry 4). -/
def Obligations.ParseRangeError : Prop :=
  (∀ (sel : Sel) (w t : Nat) (s : State), 1 ≤ w → w ≤ 32 → (s.tokens sel).length = w → t < w →
    (∀ u, u < t → InRange (s.tokens sel) w u) → ¬ InRange (s.tokens sel) w t →
    ∃ p n, exec (parseCmd sel w) s = .next ((State.setPerm { s with
        status := endStatus .error false (dupEvents sel (s.tokens sel) t)
        err := { code := .range, sel := sel, info0 := sat32 (tokenAt (s.tokens sel) t), info1 := BitVec.ofNat 32 w }
        diag := dupEvents sel (s.tokens sel) t
        draw := n } sel p).setPw sel 0)) ∧
  ∀ v : Int, (sat32 v).toInt = max (-2 ^ 31) (min v (2 ^ 31 - 1))

/-- R125: a width of 0 or above 32, before the spec string is read. -/
def Obligations.ParseBadWidth : Prop :=
  ∀ (sel : Sel) (w : Nat) (s : State), w = 0 ∨ 32 < w →
    exec (parseCmd sel w) s = .next { s with
      status := endStatus .error false []
      err := { code := .badWidth, sel := sel, info0 := BitVec.ofNat 32 w, info1 := 0 }
      diag := [] }

/-- R79, R110, R231: a PARSE reads its own spec string below its length and no other byte of ASPEC and DSPEC. -/
def Obligations.ParseReadsOnlyItsSpecString : Prop :=
  ∀ (sel : Sel) (w : Nat) (s t : State) (m m' : Memory),
    State.specString { s with aspec := m, dspec := m' } sel = s.specString sel →
    exec (parseCmd sel w) s = .next t →
    exec (parseCmd sel w) { s with aspec := m, dspec := m' } = .next { t with aspec := m, dspec := m' }

/-- R88, R115: the spec string spelled from a list of bit indices, first one the most significant output bit, parses
to exactly that permutation. -/
def Obligations.SpelledPermutationParsesBack : Prop :=
  ∀ (sel : Sel) (idx : List Nat) (s : State), 1 ≤ idx.length → idx.length ≤ 32 → (∀ n ∈ idx, n < idx.length) →
    s.specString sel = specText idx →
    ∃ t, exec (parseCmd sel idx.length) s = .next t ∧ t.status.state = .done ∧
      (t.pw sel).toNat = idx.length ∧
      ∀ k, k < idx.length → permAt (t.perm sel) (idx.length - 1 - k) = idx.getD k 0

/-- R90: the canonical spellings of the identity and of bit reversal, at every width. -/
def Obligations.CanonicalSpellings : Prop :=
  ∀ (sel : Sel) (w : Nat) (s : State), 1 ≤ w → w ≤ 32 →
    (s.specString sel = identitySpec w → ∃ t, exec (parseCmd sel w) s = .next t ∧ t.diag = [] ∧
      (t.pw sel).toNat = w ∧ ∀ i, i < w → permAt (t.perm sel) i = i) ∧
    (s.specString sel = reversalSpec w → ∃ t, exec (parseCmd sel w) s = .next t ∧ t.diag = [] ∧
      (t.pw sel).toNat = w ∧ ∀ i, i < w → permAt (t.perm sel) i = w - 1 - i)

/-! ## The swizzler -/

/-- R144: the round trip of a bijection and its inverse, the identity, and the two constant words. -/
def Obligations.SwizzleLaws : Prop :=
  (∀ (p q : PermFile) (w v : Nat), IsBijection p w → (∀ i, i < w → permAt q (permAt p i) = i) → v < 2 ^ w →
    swizzleWord (swizzleWord v p w) q w = v) ∧
  (∀ (p : PermFile) (w v : Nat), (∀ i, i < w → permAt p i = i) → swizzleWord v p w = v % 2 ^ w) ∧
  (∀ (p : PermFile) (w : Nat), swizzleWord 0 p w = 0) ∧
  (∀ (p : PermFile) (w : Nat), (∀ i, i < w → permAt p i < w) → swizzleWord (2 ^ w - 1) p w = 2 ^ w - 1)

/-- R145, R146: a SWIZZLE with a loaded permutation of width at most 32, which every run has. -/
def Obligations.SwizzleResult : Prop :=
  ∀ (sel : Sel) (s : State), 1 ≤ (s.pw sel).toNat → (s.pw sel).toNat ≤ 32 →
    ∃ r : Word, (∀ i, r.getLsbD i = (decide (i < (s.pw sel).toNat) && s.operand.getLsbD (permAt (s.perm sel) i))) ∧
      exec (swizzleCmd sel) s = .next { s with
        status := endStatus .done false []
        err := ErrRegs.clear
        diag := []
        result := r }

/-- R147: a SWIZZLE with no usable permutation; and R143, U5: a width above 32, which no run reaches, is refused by
name (the refusal is the model's reading, log entry 9). -/
def Obligations.SwizzleWidthChecks : Prop :=
  ∀ (sel : Sel) (s : State),
    (s.pw sel = 0 → exec (swizzleCmd sel) s = .next { s with
      status := endStatus .error false []
      err := { code := .noPerm, sel := sel, info0 := 0, info1 := 0 }
      diag := [] }) ∧
    (32 < (s.pw sel).toNat → exec (swizzleCmd sel) s = .refused .swizzleWidthAbove32)

/-! ## The endianness unit -/

/-- R154, R155: DECODE and ENCODE with a legal BPW: byte `j` of the result is byte `j` of OPERAND, or byte
`BPW - 1 - j` when CFG.BIG is set, and the bits above are 0. -/
def Obligations.DecodeAndEncodeResult : Prop :=
  ∀ (s : State) (i : Instr), BpwLegal s → i = .decode ∨ i = .encode →
    ∃ r : Word, (∀ k, r.getLsbD k = (decide (k < 8 * s.cfg.bpw.toNat) &&
        s.operand.getLsbD (8 * (if s.cfg.big then s.cfg.bpw.toNat - 1 - k / 8 else k / 8) + k % 8))) ∧
      exec i s = .next { s with
        status := endStatus .done false []
        err := ErrRegs.clear
        diag := []
        result := r }

/-- R152, R153: the codec's two inverses, and one byte in either order. -/
def Obligations.CodecInverts : Prop :=
  (∀ (b : List Byte) (n : Nat) (big : Bool), 1 ≤ n → n ≤ 4 → b.length = n →
    encodeWord (decodeWord b n big) n big = b ∧ decodeWord b n big < 2 ^ (8 * n)) ∧
  (∀ (w n : Nat) (big : Bool), 1 ≤ n → n ≤ 4 → w < 2 ^ (8 * n) → decodeWord (encodeWord w n big) n big = w) ∧
  (∀ (b : Byte) (big : Bool), decodeWord [b] 1 big = b.toNat) ∧
  (∀ (w : Nat) (big : Bool), w < 256 → encodeWord w 1 big = [BitVec.ofNat 8 w])

/-- R28, R29: a write of CFG stores its four fields, BPW whatever its value, drops the reserved bits and changes nothing
else; and the four commands that use BPW raise BAD_BPW on 0, 5, 6 and 7. -/
def Obligations.IllegalBpwIsStoredAndRaisesBadBpw : Prop :=
  (∀ (s : State) (v : Word), s.status.state ≠ .busy →
    hostAccess (.regWrite 0x014 4 v) s = .next { s with
      cfg := { aen := v.getLsbD 0, den := v.getLsbD 1, big := v.getLsbD 2, bpw := v.extractLsb' 4 3 } }) ∧
  ∀ (s : State) (i : Instr), s.cfg.bpw.toNat ∈ [0, 5, 6, 7] → i ∈ [Instr.size, .transform, .decode, .encode] →
    exec i s = .next { s with
      status := endStatus .error false []
      err := { code := .badBpw, sel := .addr, info0 := BitVec.ofNat 32 s.cfg.bpw.toNat, info1 := 0 }
      diag := [] }

/-! ## Sizing -/

/-- 00_scope.md section 5: the functions of the sizing pseudocode are what the notation says they are. -/
def Obligations.SizingNotation : Prop :=
  (∀ n, isPow2 n = true ↔ ∃ k, n = 2 ^ k) ∧
  (∀ n, 1 ≤ n → 2 ^ floorLog2 n ≤ n ∧ n < 2 ^ (floorLog2 n + 1)) ∧
  (∀ n, (∃ k, nextPow2 n = 2 ^ k) ∧ n ≤ nextPow2 n ∧ ∀ k, n ≤ 2 ^ k → nextPow2 n ≤ 2 ^ k) ∧
  (∀ n b, 1 ≤ b → ceilMult n b % b = 0 ∧ n ≤ ceilMult n b ∧ ∀ m, n ≤ m → m % b = 0 → ceilMult n b ≤ m)

/-- R161, R162: the two paddings and their warnings. -/
def Obligations.PaddingAndItsWarnings : Prop :=
  ∀ (n bpw : Nat) (aen : Bool), 1 ≤ bpw →
    ((aen = true ∧ ¬ ∃ k, n = 2 ^ k) → paddedPow2 n aen = nextPow2 n) ∧
    (¬ (aen = true ∧ ¬ ∃ k, n = 2 ^ k) → paddedPow2 n aen = n) ∧
    (paddedSize n bpw aen = if paddedPow2 n aen % bpw = 0 then paddedPow2 n aen else ceilMult (paddedPow2 n aen) bpw) ∧
    (sizeEvent .notPow2 n ∈ sizingEvents n bpw aen ↔ (aen = true ∧ ¬ ∃ k, n = 2 ^ k)) ∧
    ((∃ e ∈ sizingEvents n bpw aen, e.kind = .notMult) ↔ paddedPow2 n aen % bpw ≠ 0) ∧
    (∀ e ∈ sizingEvents n bpw aen, e = sizeEvent .notPow2 n ∨ e = sizeEvent .notMult (paddedPow2 n aen)) ∧
    (sizingEvents n bpw aen).length ≤ 2

/-- R165: what holds after a successful sizing. -/
def Obligations.SizingBounds : Prop :=
  (∀ s : State, SizingOk s →
    s.fileSize.toNat ≤ s.sizing.ws ∧ s.sizing.ws % s.cfg.bpw.toNat = 0 ∧ s.sizing.ws < 2 ^ 35 ∧
    1 ≤ s.sizing.nab ∧ s.sizing.nab ≤ 32 ∧ s.sizing.ndb ∈ [8, 16, 24, 32] ∧
    (s.cfg.aen = true → s.cfg.bpw.toNat ≠ 3 → ∃ k, s.words = 2 ^ k)) ∧
  ∃ s : State, SizingOk s ∧ s.cfg.aen = true ∧ s.cfg.bpw.toNat = 3 ∧ ¬ ∃ k, s.words = 2 ^ k

/-- R166: SIZE when sizing succeeds, and all it leaves alone. -/
def Obligations.SizeResult : Prop :=
  ∀ s : State, SizingOk s →
    exec .size s = .next { s with
      status := endStatus .done false (sizingEvents s.fileSize.toNat s.cfg.bpw.toNat s.cfg.aen)
      err := ErrRegs.clear
      diag := sizingEvents s.fileSize.toNat s.cfg.bpw.toNat s.cfg.aen
      workingSize := BitVec.ofNat 64 s.sizing.ws
      nab := BitVec.ofNat 6 s.sizing.nab
      ndb := BitVec.ofNat 6 s.sizing.ndb }

/-- R163: SIZE and TRANSFORM when the word count is below 2 or at least 2^33: ADDR_WIDTH, with WORKING_SIZE and BITS
as they were. -/
def Obligations.AddressWidthError : Prop :=
  ∀ (s : State) (i : Instr), BpwLegal s → (s.words < 2 ∨ 2 ^ 33 ≤ s.words) → i = .size ∨ i = .transform →
    exec i s = .next { s with
      status := endStatus .error false (sizingEvents s.fileSize.toNat s.cfg.bpw.toNat s.cfg.aen)
      err := { code := .addrWidth, sel := .addr,
               info0 := if s.words = 0 then 0xFFFFFFFF else BitVec.ofNat 32 (floorLog2 s.words), info1 := 0 }
      diag := sizingEvents s.fileSize.toNat s.cfg.bpw.toNat s.cfg.aen }

/-! ## The transform -/

/-- R185: a TRANSFORM that passes its checks ends DONE with every register the rule lists. -/
def Obligations.TransformRegisters : Prop :=
  ∀ s : State, TransformReady s →
    ∃ t, exec .transform s = .next t ∧
      t.status = endStatus .done true s.transformEvents ∧ t.err = ErrRegs.clear ∧ t.diag = s.transformEvents ∧
      t.workingSize.toNat = s.sizing.ws ∧ t.nab.toNat = s.sizing.nab ∧ t.ndb.toNat = s.sizing.ndb ∧
      (s.cfg.aen = true → t.apw.toNat = s.sizing.nab ∧
        PermParsed (s.tokens .addr) s.sizing.nab s.aperm t.aperm) ∧
      (s.cfg.den = true → t.dpw.toNat = s.sizing.ndb ∧
        PermParsed (s.tokens .data) s.sizing.ndb s.dperm t.dperm) ∧
      (s.cfg.aen = false → t.apw = s.apw ∧ t.aperm = s.aperm) ∧
      (s.cfg.den = false → t.dpw = s.dpw ∧ t.dperm = s.dperm)

/-- R171, R177: every byte of OBUF after a TRANSFORM that passes its checks. The word at `i * BPW` is what its
destination holds when no later word has the same destination; a byte no word reaches is 0; from WORKING_SIZE on OBUF
is as it was. The destinations and words are those of `outAddr` (R173) and `outWord` (R174, R175), with the
permutations the parses left. -/
def Obligations.TransformOutputBytes : Prop :=
  ∀ s t : State, TransformReady s → exec .transform s = .next t →
    (∀ i j, i < s.words → j < s.cfg.bpw.toNat →
      (∀ i', i < i' → i' < s.words →
        outAddr t s.sizing s.cfg.bpw.toNat (i' * s.cfg.bpw.toNat) ≠
          outAddr t s.sizing s.cfg.bpw.toNat (i * s.cfg.bpw.toNat)) →
      t.byte .obuf (outAddr t s.sizing s.cfg.bpw.toNat (i * s.cfg.bpw.toNat) + j) =
        (encodeWord (outWord t s.sizing s.cfg.bpw.toNat (i * s.cfg.bpw.toNat)) s.cfg.bpw.toNat s.cfg.big).getD j 0) ∧
    (∀ k, k < s.sizing.ws →
      (∀ i, i < s.words → ¬ (outAddr t s.sizing s.cfg.bpw.toNat (i * s.cfg.bpw.toNat) ≤ k ∧
        k < outAddr t s.sizing s.cfg.bpw.toNat (i * s.cfg.bpw.toNat) + s.cfg.bpw.toNat)) →
      t.byte .obuf k = 0) ∧
    (∀ k, s.sizing.ws ≤ k → t.byte .obuf k = s.byte .obuf k)

/-- R178: every destination is a multiple of BPW and its word lies below WORKING_SIZE. -/
def Obligations.EveryWriteLiesInsideTheOutput : Prop :=
  ∀ (s : State) (i : Nat), SizingOk s → i < s.words →
    outAddr s s.sizing s.cfg.bpw.toNat (i * s.cfg.bpw.toNat) % s.cfg.bpw.toNat = 0 ∧
    outAddr s s.sizing s.cfg.bpw.toNat (i * s.cfg.bpw.toNat) + s.cfg.bpw.toNat ≤ s.sizing.ws

/-- R179: with a bijective address permutation and a full word count, every destination receives exactly one word. -/
def Obligations.BijectiveAddressPermutationIsOneToOne : Prop :=
  ∀ (s : State) (d : Nat), SizingOk s → s.cfg.aen = true → IsBijection s.aperm s.sizing.nab →
    s.words = 2 ^ s.sizing.nab → d < s.words →
    ∃ i, i < s.words ∧ outAddr s s.sizing s.cfg.bpw.toNat (i * s.cfg.bpw.toNat) = d * s.cfg.bpw.toNat ∧
      ∀ j, j < s.words → outAddr s s.sizing s.cfg.bpw.toNat (j * s.cfg.bpw.toNat) = d * s.cfg.bpw.toNat → j = i

/-- R185: with no permutation a TRANSFORM copies the input with its padding. -/
def Obligations.TransformWithoutPermutationsCopies : Prop :=
  ∀ s t : State, TransformReady s → s.cfg.aen = false → s.cfg.den = false → exec .transform s = .next t →
    ∀ k, k < s.sizing.ws → t.byte .obuf k = if k < s.fileSize.toNat then s.byte .ibuf k else 0

/-- R185's example: data reversal at BPW 1 with no address permutation reverses every byte of an image of any size. -/
def Obligations.TransformReversesEveryByte : Prop :=
  ∀ s t : State, TransformReady s → s.cfg.aen = false → s.cfg.den = true → s.cfg.bpw = 1 →
    s.specString .data = reversalSpec 8 → exec .transform s = .next t →
    t.workingSize = s.fileSize ∧
    ∀ k, k < s.fileSize.toNat → t.byte .obuf k = (s.byte .ibuf k).reverse

/-- R170, R195: ALLOC, after both parses and before any write to OBUF; the sizes and the complete results of both parses
are kept. -/
def Obligations.TransformBeyondCapacity : Prop :=
  ∀ s : State, SizingOk s → SpecsOk s → s.params.bufBytes < s.sizing.ws →
    ∃ t, exec .transform s = .next t ∧ t.status = endStatus .error false s.transformEvents ∧
      t.err = { code := .alloc, sel := .addr, info0 := BitVec.ofNat 32 s.sizing.ws,
                info1 := BitVec.ofNat 32 (s.sizing.ws / 2 ^ 32) } ∧
      t.diag = s.transformEvents ∧
      t.workingSize.toNat = s.sizing.ws ∧ t.nab.toNat = s.sizing.nab ∧ t.ndb.toNat = s.sizing.ndb ∧
      (s.cfg.aen = true → t.apw.toNat = s.sizing.nab ∧
        PermParsed (s.tokens .addr) s.sizing.nab s.aperm t.aperm) ∧
      (s.cfg.den = true → t.dpw.toNat = s.sizing.ndb ∧
        PermParsed (s.tokens .data) s.sizing.ndb s.dperm t.dperm) ∧
      (s.cfg.aen = false → t.apw = s.apw ∧ t.aperm = s.aperm) ∧
      (s.cfg.den = false → t.dpw = s.dpw ∧ t.dperm = s.dperm) ∧
      ∀ k, t.byte .obuf k = s.byte .obuf k

/-- R168, R191, R195, R199: the errors of the spec strings inside a TRANSFORM, the address spec first, before the
capacity check: what the error registers hold, the log (sizing, then the address spec's DUP events, then those of the
data spec's tokens before the failing one) and every other field. Some permutation `p` stands where the parse failed
(R121 leaves it open; log entry 3), and `n` is the model's own counter (log entry 4). -/
def Obligations.TransformSpecErrorsInOrder : Prop :=
  (∀ s : State, SizingOk s → s.cfg.aen = true → ¬ SpecOk s .addr s.sizing.nab →
    ∃ e es p n, ParseError .addr (s.tokens .addr) s.sizing.nab e es ∧
      exec .transform s = .next { s with
        status := endStatus .error false (sizingEvents s.fileSize.toNat s.cfg.bpw.toNat s.cfg.aen ++ es)
        err := e
        diag := sizingEvents s.fileSize.toNat s.cfg.bpw.toNat s.cfg.aen ++ es
        workingSize := BitVec.ofNat 64 s.sizing.ws
        nab := BitVec.ofNat 6 s.sizing.nab
        ndb := BitVec.ofNat 6 s.sizing.ndb
        apw := 0
        aperm := p
        draw := n }) ∧
  (∀ s : State, SizingOk s → (s.cfg.aen = true → SpecOk s .addr s.sizing.nab) → s.cfg.den = true →
    ¬ SpecOk s .data s.sizing.ndb →
    ∃ e es pa p n, ParseError .data (s.tokens .data) s.sizing.ndb e es ∧
      (s.cfg.aen = true → PermParsed (s.tokens .addr) s.sizing.nab s.aperm pa) ∧
      (s.cfg.aen = false → pa = s.aperm) ∧
      exec .transform s = .next { s with
        status := endStatus .error false (sizingEvents s.fileSize.toNat s.cfg.bpw.toNat s.cfg.aen ++
          (if s.cfg.aen then dupEvents .addr (s.tokens .addr) s.sizing.nab else []) ++ es)
        err := e
        diag := sizingEvents s.fileSize.toNat s.cfg.bpw.toNat s.cfg.aen ++
          (if s.cfg.aen then dupEvents .addr (s.tokens .addr) s.sizing.nab else []) ++ es
        workingSize := BitVec.ofNat 64 s.sizing.ws
        nab := BitVec.ofNat 6 s.sizing.nab
        ndb := BitVec.ofNat 6 s.sizing.ndb
        apw := if s.cfg.aen then BitVec.ofNat 6 s.sizing.nab else s.apw
        aperm := pa
        dpw := 0
        dperm := p
        draw := n })

/-- R195: what a TRANSFORM that ends in ERROR has changed, by its error. -/
def Obligations.FailedTransformKeepsEarlierWork : Prop :=
  ∀ s t : State, exec .transform s = .next t → t.status.state = .error →
    (t.err.code = .badBpw →
      t = { s with status := endStatus .error false [], err := t.err, diag := [] }) ∧
    (t.err.code = .addrWidth → t.workingSize = s.workingSize ∧ t.nab = s.nab ∧ t.ndb = s.ndb ∧
      t.apw = s.apw ∧ t.aperm = s.aperm ∧ t.dpw = s.dpw ∧ t.dperm = s.dperm) ∧
    (t.err.code ≠ .badBpw → t.err.code ≠ .addrWidth → t.workingSize.toNat = s.sizing.ws ∧
      t.nab.toNat = s.sizing.nab ∧ t.ndb.toNat = s.sizing.ndb) ∧
    ((t.err.code = .count ∨ t.err.code = .range) → t.err.sel = .addr →
      t.apw = 0 ∧ t.dpw = s.dpw ∧ t.dperm = s.dperm) ∧
    ((t.err.code = .count ∨ t.err.code = .range) → t.err.sel = .data → t.dpw = 0 ∧
      (s.cfg.aen = true → t.apw.toNat = s.sizing.nab ∧
        PermParsed (s.tokens .addr) s.sizing.nab s.aperm t.aperm) ∧
      (s.cfg.aen = false → t.apw = s.apw ∧ t.aperm = s.aperm)) ∧
    (t.err.code = .alloc →
      (s.cfg.aen = true → t.apw.toNat = s.sizing.nab ∧
        PermParsed (s.tokens .addr) s.sizing.nab s.aperm t.aperm) ∧
      (s.cfg.den = true → t.dpw.toNat = s.sizing.ndb ∧
        PermParsed (s.tokens .data) s.sizing.ndb s.dperm t.dperm) ∧
      (s.cfg.aen = false → t.apw = s.apw ∧ t.aperm = s.aperm) ∧
      (s.cfg.den = false → t.dpw = s.dpw ∧ t.dperm = s.dperm)) ∧
    (t.err.code ≠ .badBpw → (sizingEvents s.fileSize.toNat s.cfg.bpw.toNat s.cfg.aen) <+: t.diag)

/-- R228: what earlier parses left in the permutation registers changes nothing a TRANSFORM computes. -/
def Obligations.TransformIgnoresEarlierParses : Prop :=
  ∀ (s t t' : State) (wa wd : BitVec 6) (pa pd : PermFile), exec .transform s = .next t →
    exec .transform { s with apw := wa, dpw := wd, aperm := pa, dperm := pd } = .next t' →
    t'.status = t.status ∧ t'.err = t.err ∧ t'.diag = t.diag ∧ t'.workingSize = t.workingSize ∧ t'.nab = t.nab ∧
    t'.ndb = t.ndb ∧ (∀ k, t'.byte .obuf k = t.byte .obuf k) ∧
    (s.cfg.aen = false → t'.apw = wa ∧ t'.aperm = pa) ∧ (s.cfg.den = false → t'.dpw = wd ∧ t'.dperm = pd)

/-! ## All commands -/

/-- R192, R193, R26: every command that is not refused ends DONE with no error recorded, or ERROR with one. -/
def Obligations.EveryCommandEndsDoneOrError : Prop :=
  ∀ (i : Instr) (s t : State), exec i s = .next t →
    (t.status.state = .done ∧ t.err = ErrRegs.clear) ∨ (t.status.state = .error ∧ t.err.code ≠ .none)

/-- R194: a command that ends in ERROR leaves OBUF as it was and OUT_VALID = 0. -/
def Obligations.FatalErrorLeavesOutputBuffer : Prop :=
  ∀ (i : Instr) (s t : State), exec i s = .next t → t.status.state = .error →
    t.status.outValid = false ∧ ∀ k, t.byte .obuf k = s.byte .obuf k

/-- R230: OBUF is written and OUT_VALID set only by a TRANSFORM that passes all its checks. -/
def Obligations.OnlyTransformWritesOutput : Prop :=
  ∀ (i : Instr) (s t : State), exec i s = .next t →
    (t.status.outValid = true ↔ (i = .transform ∧ TransformReady s)) ∧
    (t.status.outValid = false → ∀ k, t.byte .obuf k = s.byte .obuf k)

/-- R39: which commands write the permutation registers and their widths. -/
def Obligations.OnlyParsesWritePermutations : Prop :=
  ∀ (i : Instr) (s t : State), exec i s = .next t →
    ((t.aperm ≠ s.aperm ∨ t.apw ≠ s.apw) → (∃ w, i = .parseA w) ∨ (i = .transform ∧ s.cfg.aen = true)) ∧
    ((t.dperm ≠ s.dperm ∨ t.dpw ≠ s.dpw) → (∃ w, i = .parseD w) ∨ (i = .transform ∧ s.cfg.den = true))

/-- R62: a command changes nothing of what the host owns, every byte of IBUF, ASPEC and DSPEC included; and it never
reads OBUF: with other bytes in OBUF it ends in the same state but for OBUF, and what it stores there is the same. -/
def Obligations.CommandsLeaveTheHostSide : Prop :=
  (∀ (i : Instr) (s t : State), exec i s = .next t → SameHostSide s t) ∧
  ∀ (i : Instr) (s t : State) (m : Memory), exec i s = .next t →
    ∃ m', exec i { s with obuf := m } = .next { t with obuf := m' } ∧
      (t.status.outValid = true → ∀ k, k < t.workingSize.toNat →
        State.byte { t with obuf := m' } .obuf k = t.byte .obuf k)

/-- The frames of the commands that store nothing and parse nothing. SWIZZLE.A, SWIZZLE.D, DECODE and ENCODE (R145,
R146, R154, R155): RESULT, STATUS, the error registers and the log, and RESULT only when the command ends DONE (R33).
SIZE (R166): STATUS, the error registers, the log, WORKING_SIZE and BITS. No byte of any space. -/
def Obligations.RegisterCommandFrames : Prop :=
  (∀ (i : Instr) (s t : State), i ∈ [Instr.swizzleA, .swizzleD, .decode, .encode] → exec i s = .next t →
    t = { s with status := t.status, err := t.err, diag := t.diag, result := t.result } ∧ t.diag = [] ∧
    t.status = endStatus t.status.state false [] ∧ (∀ sp k, t.byte sp k = s.byte sp k) ∧
    (t.status.state = .error → t.result = s.result)) ∧
  (∀ s t : State, exec .size s = .next t →
    t = { s with status := t.status, err := t.err, diag := t.diag, workingSize := t.workingSize, nab := t.nab,
                 ndb := t.ndb } ∧
    t.status.outValid = false ∧ t.status.wDup = false ∧ ∀ sp k, t.byte sp k = s.byte sp k)

/-- The frame of PARSE.A and PARSE.D (R122): STATUS, the error registers, the log, PERM(sel) and PW(sel), and the
model's draw; no byte of any space. -/
def Obligations.ParseFrame : Prop :=
  ∀ (sel : Sel) (w : Nat) (s t : State), exec (parseCmd sel w) s = .next t →
    t = (State.setPerm { s with status := t.status, err := t.err, diag := t.diag, draw := t.draw } sel
      (t.perm sel)).setPw sel (t.pw sel) ∧
    t.status.outValid = false ∧ t.status.wPow2 = false ∧ t.status.wMult = false ∧ ∀ sp k, t.byte sp k = s.byte sp k

/-- The frame of TRANSFORM (R185): the registers the rule lists and the model's draw; of all bytes only those of OBUF
below WORKING_SIZE, and those only when it ends DONE. -/
def Obligations.TransformFrame : Prop :=
  ∀ s t : State, exec .transform s = .next t →
    t = { s with status := t.status, err := t.err, diag := t.diag, workingSize := t.workingSize, nab := t.nab,
                 ndb := t.ndb, apw := t.apw, aperm := t.aperm, dpw := t.dpw, dperm := t.dperm, obuf := t.obuf,
                 draw := t.draw } ∧
    (∀ sp k, sp ≠ .obuf → t.byte sp k = s.byte sp k) ∧
    (∀ k, (t.status.state = .done → t.workingSize.toNat ≤ k) → t.byte .obuf k = s.byte .obuf k)

/-- R203, R204: a command runs as from DONE whatever STATUS, the error registers and the log held before it. -/
def Obligations.CommandsIgnoreEarlierOutcomes : Prop :=
  ∀ (i : Instr) (s : State) (st : Status) (e : ErrRegs) (d : List DiagEvent),
    exec i { s with status := st, err := e, diag := d } = exec i s

/-- R63: what IBUF holds at and above FILE_SIZE affects no result of any command. -/
def Obligations.InputBeyondFileSizeIsNeverRead : Prop :=
  ∀ (i : Instr) (s t : State) (m : Memory),
    (∀ k, k < s.fileSize.toNat → State.byte { s with ibuf := m } .ibuf k = s.byte .ibuf k) →
    exec i s = .next t → exec i { s with ibuf := m } = .next { t with ibuf := m }

/-! ## The invariant -/

/-- R220: the state after reset meets the invariant. -/
def Obligations.ResetMeetsTheInvariant : Prop := State.reset.Inv

/-- R26, R37, R4, R165, R170, R178, R192: every step keeps the invariant: the log never overflows, the widths and
indices stay legal, the memories stay canonical and inside their sizes, and STATUS agrees with the log and the error
registers. -/
def Obligations.EveryStepKeepsTheInvariant : Prop :=
  ∀ s t : State, s.Inv → step s = .next t → t.Inv

/-- Under the invariant nothing is refused: every command of any state and every step answers a next state
(93_implementation_defined.md U4, U5 are unreachable). -/
def Obligations.NothingIsRefusedUnderTheInvariant : Prop :=
  ∀ s : State, s.Inv → (∃ t, step s = .next t) ∧ ∀ i : Instr, ∃ t, exec i s = .next t

/-! ## The command line -/

/-- R97, R206: with no permutation, the source's invocation writes its input, padded with zeros to a multiple of the
word size, with at most the NOT_MULT warning. That its end is read off the engine after the run is the model's form
(log entry 13). -/
def Obligations.CommandLineWithoutPermutationsCopies : Prop :=
  ∀ (v : Invocation) (s : State), s.Inv → v.legal = true → v.addr = none → v.data = none →
    2 * v.bytesPerWord ≤ paddedSize v.input.length v.bytesPerWord false →
    paddedSize v.input.length v.bytesPerWord false ≤ s.params.bufBytes →
    paddedSize v.input.length v.bytesPerWord false < 2 ^ 33 →
    v.swizzle s = some (.next (.written
      (v.input ++ List.replicate (paddedSize v.input.length v.bytesPerWord false - v.input.length) 0)
      (sizingEvents v.input.length v.bytesPerWord false)))
end

