-- ==== Sys2Proof/Laws/State.lean ====
section
/-! SUPPORT. What each named update of the state does to each field. -/

namespace Sys2Proof.Machine

/-! ## setMem -/

@[simp] theorem setMem_params (s : State) (sp : Space) (m : Memory) : (s.setMem sp m).params = s.params := by cases sp <;> rfl
@[simp] theorem setMem_status (s : State) (sp : Space) (m : Memory) : (s.setMem sp m).status = s.status := by cases sp <;> rfl
@[simp] theorem setMem_err (s : State) (sp : Space) (m : Memory) : (s.setMem sp m).err = s.err := by cases sp <;> rfl
@[simp] theorem setMem_cfg (s : State) (sp : Space) (m : Memory) : (s.setMem sp m).cfg = s.cfg := by cases sp <;> rfl
@[simp] theorem setMem_fileSize (s : State) (sp : Space) (m : Memory) : (s.setMem sp m).fileSize = s.fileSize := by cases sp <;> rfl
@[simp] theorem setMem_workingSize (s : State) (sp : Space) (m : Memory) : (s.setMem sp m).workingSize = s.workingSize := by cases sp <;> rfl
@[simp] theorem setMem_nab (s : State) (sp : Space) (m : Memory) : (s.setMem sp m).nab = s.nab := by cases sp <;> rfl
@[simp] theorem setMem_ndb (s : State) (sp : Space) (m : Memory) : (s.setMem sp m).ndb = s.ndb := by cases sp <;> rfl
@[simp] theorem setMem_operand (s : State) (sp : Space) (m : Memory) : (s.setMem sp m).operand = s.operand := by cases sp <;> rfl
@[simp] theorem setMem_result (s : State) (sp : Space) (m : Memory) : (s.setMem sp m).result = s.result := by cases sp <;> rfl
@[simp] theorem setMem_apw (s : State) (sp : Space) (m : Memory) : (s.setMem sp m).apw = s.apw := by cases sp <;> rfl
@[simp] theorem setMem_dpw (s : State) (sp : Space) (m : Memory) : (s.setMem sp m).dpw = s.dpw := by cases sp <;> rfl
@[simp] theorem setMem_aperm (s : State) (sp : Space) (m : Memory) : (s.setMem sp m).aperm = s.aperm := by cases sp <;> rfl
@[simp] theorem setMem_dperm (s : State) (sp : Space) (m : Memory) : (s.setMem sp m).dperm = s.dperm := by cases sp <;> rfl
@[simp] theorem setMem_aspecLen (s : State) (sp : Space) (m : Memory) : (s.setMem sp m).aspecLen = s.aspecLen := by cases sp <;> rfl
@[simp] theorem setMem_dspecLen (s : State) (sp : Space) (m : Memory) : (s.setMem sp m).dspecLen = s.dspecLen := by cases sp <;> rfl
@[simp] theorem setMem_diag (s : State) (sp : Space) (m : Memory) : (s.setMem sp m).diag = s.diag := by cases sp <;> rfl
@[simp] theorem setMem_draw (s : State) (sp : Space) (m : Memory) : (s.setMem sp m).draw = s.draw := by cases sp <;> rfl
@[simp] theorem setMem_memDraw (s : State) (sp : Space) (m : Memory) : (s.setMem sp m).memDraw = s.memDraw := by cases sp <;> rfl
@[simp] theorem setMem_bus (s : State) (sp : Space) (m : Memory) : (s.setMem sp m).bus = s.bus := by cases sp <;> rfl
@[simp] theorem setMem_rdata (s : State) (sp : Space) (m : Memory) : (s.setMem sp m).rdata = s.rdata := by cases sp <;> rfl

/-! ## setPw -/

@[simp] theorem setPw_params (s : State) (sel : Sel) (w : BitVec 6) : (s.setPw sel w).params = s.params := by cases sel <;> rfl
@[simp] theorem setPw_status (s : State) (sel : Sel) (w : BitVec 6) : (s.setPw sel w).status = s.status := by cases sel <;> rfl
@[simp] theorem setPw_err (s : State) (sel : Sel) (w : BitVec 6) : (s.setPw sel w).err = s.err := by cases sel <;> rfl
@[simp] theorem setPw_cfg (s : State) (sel : Sel) (w : BitVec 6) : (s.setPw sel w).cfg = s.cfg := by cases sel <;> rfl
@[simp] theorem setPw_fileSize (s : State) (sel : Sel) (w : BitVec 6) : (s.setPw sel w).fileSize = s.fileSize := by cases sel <;> rfl
@[simp] theorem setPw_workingSize (s : State) (sel : Sel) (w : BitVec 6) : (s.setPw sel w).workingSize = s.workingSize := by cases sel <;> rfl
@[simp] theorem setPw_nab (s : State) (sel : Sel) (w : BitVec 6) : (s.setPw sel w).nab = s.nab := by cases sel <;> rfl
@[simp] theorem setPw_ndb (s : State) (sel : Sel) (w : BitVec 6) : (s.setPw sel w).ndb = s.ndb := by cases sel <;> rfl
@[simp] theorem setPw_operand (s : State) (sel : Sel) (w : BitVec 6) : (s.setPw sel w).operand = s.operand := by cases sel <;> rfl
@[simp] theorem setPw_result (s : State) (sel : Sel) (w : BitVec 6) : (s.setPw sel w).result = s.result := by cases sel <;> rfl
@[simp] theorem setPw_aperm (s : State) (sel : Sel) (w : BitVec 6) : (s.setPw sel w).aperm = s.aperm := by cases sel <;> rfl
@[simp] theorem setPw_dperm (s : State) (sel : Sel) (w : BitVec 6) : (s.setPw sel w).dperm = s.dperm := by cases sel <;> rfl
@[simp] theorem setPw_aspecLen (s : State) (sel : Sel) (w : BitVec 6) : (s.setPw sel w).aspecLen = s.aspecLen := by cases sel <;> rfl
@[simp] theorem setPw_dspecLen (s : State) (sel : Sel) (w : BitVec 6) : (s.setPw sel w).dspecLen = s.dspecLen := by cases sel <;> rfl
@[simp] theorem setPw_diag (s : State) (sel : Sel) (w : BitVec 6) : (s.setPw sel w).diag = s.diag := by cases sel <;> rfl
@[simp] theorem setPw_ibuf (s : State) (sel : Sel) (w : BitVec 6) : (s.setPw sel w).ibuf = s.ibuf := by cases sel <;> rfl
@[simp] theorem setPw_obuf (s : State) (sel : Sel) (w : BitVec 6) : (s.setPw sel w).obuf = s.obuf := by cases sel <;> rfl
@[simp] theorem setPw_aspec (s : State) (sel : Sel) (w : BitVec 6) : (s.setPw sel w).aspec = s.aspec := by cases sel <;> rfl
@[simp] theorem setPw_dspec (s : State) (sel : Sel) (w : BitVec 6) : (s.setPw sel w).dspec = s.dspec := by cases sel <;> rfl
@[simp] theorem setPw_draw (s : State) (sel : Sel) (w : BitVec 6) : (s.setPw sel w).draw = s.draw := by cases sel <;> rfl
@[simp] theorem setPw_memDraw (s : State) (sel : Sel) (w : BitVec 6) : (s.setPw sel w).memDraw = s.memDraw := by cases sel <;> rfl
@[simp] theorem setPw_bus (s : State) (sel : Sel) (w : BitVec 6) : (s.setPw sel w).bus = s.bus := by cases sel <;> rfl
@[simp] theorem setPw_rdata (s : State) (sel : Sel) (w : BitVec 6) : (s.setPw sel w).rdata = s.rdata := by cases sel <;> rfl

/-! ## setPerm -/

@[simp] theorem setPerm_params (s : State) (sel : Sel) (p : PermFile) : (s.setPerm sel p).params = s.params := by cases sel <;> rfl
@[simp] theorem setPerm_status (s : State) (sel : Sel) (p : PermFile) : (s.setPerm sel p).status = s.status := by cases sel <;> rfl
@[simp] theorem setPerm_err (s : State) (sel : Sel) (p : PermFile) : (s.setPerm sel p).err = s.err := by cases sel <;> rfl
@[simp] theorem setPerm_cfg (s : State) (sel : Sel) (p : PermFile) : (s.setPerm sel p).cfg = s.cfg := by cases sel <;> rfl
@[simp] theorem setPerm_fileSize (s : State) (sel : Sel) (p : PermFile) : (s.setPerm sel p).fileSize = s.fileSize := by cases sel <;> rfl
@[simp] theorem setPerm_workingSize (s : State) (sel : Sel) (p : PermFile) : (s.setPerm sel p).workingSize = s.workingSize := by cases sel <;> rfl
@[simp] theorem setPerm_nab (s : State) (sel : Sel) (p : PermFile) : (s.setPerm sel p).nab = s.nab := by cases sel <;> rfl
@[simp] theorem setPerm_ndb (s : State) (sel : Sel) (p : PermFile) : (s.setPerm sel p).ndb = s.ndb := by cases sel <;> rfl
@[simp] theorem setPerm_operand (s : State) (sel : Sel) (p : PermFile) : (s.setPerm sel p).operand = s.operand := by cases sel <;> rfl
@[simp] theorem setPerm_result (s : State) (sel : Sel) (p : PermFile) : (s.setPerm sel p).result = s.result := by cases sel <;> rfl
@[simp] theorem setPerm_apw (s : State) (sel : Sel) (p : PermFile) : (s.setPerm sel p).apw = s.apw := by cases sel <;> rfl
@[simp] theorem setPerm_dpw (s : State) (sel : Sel) (p : PermFile) : (s.setPerm sel p).dpw = s.dpw := by cases sel <;> rfl
@[simp] theorem setPerm_aspecLen (s : State) (sel : Sel) (p : PermFile) : (s.setPerm sel p).aspecLen = s.aspecLen := by cases sel <;> rfl
@[simp] theorem setPerm_dspecLen (s : State) (sel : Sel) (p : PermFile) : (s.setPerm sel p).dspecLen = s.dspecLen := by cases sel <;> rfl
@[simp] theorem setPerm_diag (s : State) (sel : Sel) (p : PermFile) : (s.setPerm sel p).diag = s.diag := by cases sel <;> rfl
@[simp] theorem setPerm_ibuf (s : State) (sel : Sel) (p : PermFile) : (s.setPerm sel p).ibuf = s.ibuf := by cases sel <;> rfl
@[simp] theorem setPerm_obuf (s : State) (sel : Sel) (p : PermFile) : (s.setPerm sel p).obuf = s.obuf := by cases sel <;> rfl
@[simp] theorem setPerm_aspec (s : State) (sel : Sel) (p : PermFile) : (s.setPerm sel p).aspec = s.aspec := by cases sel <;> rfl
@[simp] theorem setPerm_dspec (s : State) (sel : Sel) (p : PermFile) : (s.setPerm sel p).dspec = s.dspec := by cases sel <;> rfl
@[simp] theorem setPerm_draw (s : State) (sel : Sel) (p : PermFile) : (s.setPerm sel p).draw = s.draw := by cases sel <;> rfl
@[simp] theorem setPerm_memDraw (s : State) (sel : Sel) (p : PermFile) : (s.setPerm sel p).memDraw = s.memDraw := by cases sel <;> rfl
@[simp] theorem setPerm_bus (s : State) (sel : Sel) (p : PermFile) : (s.setPerm sel p).bus = s.bus := by cases sel <;> rfl
@[simp] theorem setPerm_rdata (s : State) (sel : Sel) (p : PermFile) : (s.setPerm sel p).rdata = s.rdata := by cases sel <;> rfl

/-! ## losePerm -/

@[simp] theorem losePerm_params (s : State) (sel : Sel) : (s.losePerm sel).params = s.params := by simp [State.losePerm]
@[simp] theorem losePerm_status (s : State) (sel : Sel) : (s.losePerm sel).status = s.status := by simp [State.losePerm]
@[simp] theorem losePerm_err (s : State) (sel : Sel) : (s.losePerm sel).err = s.err := by simp [State.losePerm]
@[simp] theorem losePerm_cfg (s : State) (sel : Sel) : (s.losePerm sel).cfg = s.cfg := by simp [State.losePerm]
@[simp] theorem losePerm_fileSize (s : State) (sel : Sel) : (s.losePerm sel).fileSize = s.fileSize := by simp [State.losePerm]
@[simp] theorem losePerm_workingSize (s : State) (sel : Sel) : (s.losePerm sel).workingSize = s.workingSize := by simp [State.losePerm]
@[simp] theorem losePerm_nab (s : State) (sel : Sel) : (s.losePerm sel).nab = s.nab := by simp [State.losePerm]
@[simp] theorem losePerm_ndb (s : State) (sel : Sel) : (s.losePerm sel).ndb = s.ndb := by simp [State.losePerm]
@[simp] theorem losePerm_operand (s : State) (sel : Sel) : (s.losePerm sel).operand = s.operand := by simp [State.losePerm]
@[simp] theorem losePerm_result (s : State) (sel : Sel) : (s.losePerm sel).result = s.result := by simp [State.losePerm]
@[simp] theorem losePerm_apw (s : State) (sel : Sel) : (s.losePerm sel).apw = s.apw := by simp [State.losePerm]
@[simp] theorem losePerm_dpw (s : State) (sel : Sel) : (s.losePerm sel).dpw = s.dpw := by simp [State.losePerm]
@[simp] theorem losePerm_aspecLen (s : State) (sel : Sel) : (s.losePerm sel).aspecLen = s.aspecLen := by simp [State.losePerm]
@[simp] theorem losePerm_dspecLen (s : State) (sel : Sel) : (s.losePerm sel).dspecLen = s.dspecLen := by simp [State.losePerm]
@[simp] theorem losePerm_diag (s : State) (sel : Sel) : (s.losePerm sel).diag = s.diag := by simp [State.losePerm]
@[simp] theorem losePerm_ibuf (s : State) (sel : Sel) : (s.losePerm sel).ibuf = s.ibuf := by simp [State.losePerm]
@[simp] theorem losePerm_obuf (s : State) (sel : Sel) : (s.losePerm sel).obuf = s.obuf := by simp [State.losePerm]
@[simp] theorem losePerm_aspec (s : State) (sel : Sel) : (s.losePerm sel).aspec = s.aspec := by simp [State.losePerm]
@[simp] theorem losePerm_dspec (s : State) (sel : Sel) : (s.losePerm sel).dspec = s.dspec := by simp [State.losePerm]
@[simp] theorem losePerm_draw (s : State) (sel : Sel) : (s.losePerm sel).draw = s.draw + 1 := by simp [State.losePerm]
@[simp] theorem losePerm_memDraw (s : State) (sel : Sel) : (s.losePerm sel).memDraw = s.memDraw := by simp [State.losePerm]
@[simp] theorem losePerm_bus (s : State) (sel : Sel) : (s.losePerm sel).bus = s.bus := by simp [State.losePerm]
@[simp] theorem losePerm_rdata (s : State) (sel : Sel) : (s.losePerm sel).rdata = s.rdata := by simp [State.losePerm]

/-! ## setResult -/

@[simp] theorem setResult_params (s : State) (v : Word) : (s.setResult v).params = s.params := rfl
@[simp] theorem setResult_status (s : State) (v : Word) : (s.setResult v).status = s.status := rfl
@[simp] theorem setResult_err (s : State) (v : Word) : (s.setResult v).err = s.err := rfl
@[simp] theorem setResult_cfg (s : State) (v : Word) : (s.setResult v).cfg = s.cfg := rfl
@[simp] theorem setResult_fileSize (s : State) (v : Word) : (s.setResult v).fileSize = s.fileSize := rfl
@[simp] theorem setResult_workingSize (s : State) (v : Word) : (s.setResult v).workingSize = s.workingSize := rfl
@[simp] theorem setResult_nab (s : State) (v : Word) : (s.setResult v).nab = s.nab := rfl
@[simp] theorem setResult_ndb (s : State) (v : Word) : (s.setResult v).ndb = s.ndb := rfl
@[simp] theorem setResult_operand (s : State) (v : Word) : (s.setResult v).operand = s.operand := rfl
@[simp] theorem setResult_result (s : State) (v : Word) : (s.setResult v).result = v := rfl
@[simp] theorem setResult_apw (s : State) (v : Word) : (s.setResult v).apw = s.apw := rfl
@[simp] theorem setResult_dpw (s : State) (v : Word) : (s.setResult v).dpw = s.dpw := rfl
@[simp] theorem setResult_aperm (s : State) (v : Word) : (s.setResult v).aperm = s.aperm := rfl
@[simp] theorem setResult_dperm (s : State) (v : Word) : (s.setResult v).dperm = s.dperm := rfl
@[simp] theorem setResult_aspecLen (s : State) (v : Word) : (s.setResult v).aspecLen = s.aspecLen := rfl
@[simp] theorem setResult_dspecLen (s : State) (v : Word) : (s.setResult v).dspecLen = s.dspecLen := rfl
@[simp] theorem setResult_diag (s : State) (v : Word) : (s.setResult v).diag = s.diag := rfl
@[simp] theorem setResult_ibuf (s : State) (v : Word) : (s.setResult v).ibuf = s.ibuf := rfl
@[simp] theorem setResult_obuf (s : State) (v : Word) : (s.setResult v).obuf = s.obuf := rfl
@[simp] theorem setResult_aspec (s : State) (v : Word) : (s.setResult v).aspec = s.aspec := rfl
@[simp] theorem setResult_dspec (s : State) (v : Word) : (s.setResult v).dspec = s.dspec := rfl
@[simp] theorem setResult_draw (s : State) (v : Word) : (s.setResult v).draw = s.draw := rfl
@[simp] theorem setResult_memDraw (s : State) (v : Word) : (s.setResult v).memDraw = s.memDraw := rfl
@[simp] theorem setResult_bus (s : State) (v : Word) : (s.setResult v).bus = s.bus := rfl
@[simp] theorem setResult_rdata (s : State) (v : Word) : (s.setResult v).rdata = s.rdata := rfl

/-! ## setSizing -/

@[simp] theorem setSizing_params (s : State) (ws nab ndb : Nat) : (s.setSizing ws nab ndb).params = s.params := rfl
@[simp] theorem setSizing_status (s : State) (ws nab ndb : Nat) : (s.setSizing ws nab ndb).status = s.status := rfl
@[simp] theorem setSizing_err (s : State) (ws nab ndb : Nat) : (s.setSizing ws nab ndb).err = s.err := rfl
@[simp] theorem setSizing_cfg (s : State) (ws nab ndb : Nat) : (s.setSizing ws nab ndb).cfg = s.cfg := rfl
@[simp] theorem setSizing_fileSize (s : State) (ws nab ndb : Nat) : (s.setSizing ws nab ndb).fileSize = s.fileSize := rfl
@[simp] theorem setSizing_workingSize (s : State) (ws nab ndb : Nat) : (s.setSizing ws nab ndb).workingSize = BitVec.ofNat 64 ws := rfl
@[simp] theorem setSizing_nab (s : State) (ws nab ndb : Nat) : (s.setSizing ws nab ndb).nab = BitVec.ofNat 6 nab := rfl
@[simp] theorem setSizing_ndb (s : State) (ws nab ndb : Nat) : (s.setSizing ws nab ndb).ndb = BitVec.ofNat 6 ndb := rfl
@[simp] theorem setSizing_operand (s : State) (ws nab ndb : Nat) : (s.setSizing ws nab ndb).operand = s.operand := rfl
@[simp] theorem setSizing_result (s : State) (ws nab ndb : Nat) : (s.setSizing ws nab ndb).result = s.result := rfl
@[simp] theorem setSizing_apw (s : State) (ws nab ndb : Nat) : (s.setSizing ws nab ndb).apw = s.apw := rfl
@[simp] theorem setSizing_dpw (s : State) (ws nab ndb : Nat) : (s.setSizing ws nab ndb).dpw = s.dpw := rfl
@[simp] theorem setSizing_aperm (s : State) (ws nab ndb : Nat) : (s.setSizing ws nab ndb).aperm = s.aperm := rfl
@[simp] theorem setSizing_dperm (s : State) (ws nab ndb : Nat) : (s.setSizing ws nab ndb).dperm = s.dperm := rfl
@[simp] theorem setSizing_aspecLen (s : State) (ws nab ndb : Nat) : (s.setSizing ws nab ndb).aspecLen = s.aspecLen := rfl
@[simp] theorem setSizing_dspecLen (s : State) (ws nab ndb : Nat) : (s.setSizing ws nab ndb).dspecLen = s.dspecLen := rfl
@[simp] theorem setSizing_diag (s : State) (ws nab ndb : Nat) : (s.setSizing ws nab ndb).diag = s.diag := rfl
@[simp] theorem setSizing_ibuf (s : State) (ws nab ndb : Nat) : (s.setSizing ws nab ndb).ibuf = s.ibuf := rfl
@[simp] theorem setSizing_obuf (s : State) (ws nab ndb : Nat) : (s.setSizing ws nab ndb).obuf = s.obuf := rfl
@[simp] theorem setSizing_aspec (s : State) (ws nab ndb : Nat) : (s.setSizing ws nab ndb).aspec = s.aspec := rfl
@[simp] theorem setSizing_dspec (s : State) (ws nab ndb : Nat) : (s.setSizing ws nab ndb).dspec = s.dspec := rfl
@[simp] theorem setSizing_draw (s : State) (ws nab ndb : Nat) : (s.setSizing ws nab ndb).draw = s.draw := rfl
@[simp] theorem setSizing_memDraw (s : State) (ws nab ndb : Nat) : (s.setSizing ws nab ndb).memDraw = s.memDraw := rfl
@[simp] theorem setSizing_bus (s : State) (ws nab ndb : Nat) : (s.setSizing ws nab ndb).bus = s.bus := rfl
@[simp] theorem setSizing_rdata (s : State) (ws nab ndb : Nat) : (s.setSizing ws nab ndb).rdata = s.rdata := rfl

/-! ## setOutput -/

@[simp] theorem setOutput_params (s : State) (m : Memory) : (s.setOutput m).params = s.params := rfl
@[simp] theorem setOutput_status (s : State) (m : Memory) : (s.setOutput m).status = { s.status with outValid := true } := rfl
@[simp] theorem setOutput_err (s : State) (m : Memory) : (s.setOutput m).err = s.err := rfl
@[simp] theorem setOutput_cfg (s : State) (m : Memory) : (s.setOutput m).cfg = s.cfg := rfl
@[simp] theorem setOutput_fileSize (s : State) (m : Memory) : (s.setOutput m).fileSize = s.fileSize := rfl
@[simp] theorem setOutput_workingSize (s : State) (m : Memory) : (s.setOutput m).workingSize = s.workingSize := rfl
@[simp] theorem setOutput_nab (s : State) (m : Memory) : (s.setOutput m).nab = s.nab := rfl
@[simp] theorem setOutput_ndb (s : State) (m : Memory) : (s.setOutput m).ndb = s.ndb := rfl
@[simp] theorem setOutput_operand (s : State) (m : Memory) : (s.setOutput m).operand = s.operand := rfl
@[simp] theorem setOutput_result (s : State) (m : Memory) : (s.setOutput m).result = s.result := rfl
@[simp] theorem setOutput_apw (s : State) (m : Memory) : (s.setOutput m).apw = s.apw := rfl
@[simp] theorem setOutput_dpw (s : State) (m : Memory) : (s.setOutput m).dpw = s.dpw := rfl
@[simp] theorem setOutput_aperm (s : State) (m : Memory) : (s.setOutput m).aperm = s.aperm := rfl
@[simp] theorem setOutput_dperm (s : State) (m : Memory) : (s.setOutput m).dperm = s.dperm := rfl
@[simp] theorem setOutput_aspecLen (s : State) (m : Memory) : (s.setOutput m).aspecLen = s.aspecLen := rfl
@[simp] theorem setOutput_dspecLen (s : State) (m : Memory) : (s.setOutput m).dspecLen = s.dspecLen := rfl
@[simp] theorem setOutput_diag (s : State) (m : Memory) : (s.setOutput m).diag = s.diag := rfl
@[simp] theorem setOutput_ibuf (s : State) (m : Memory) : (s.setOutput m).ibuf = s.ibuf := rfl
@[simp] theorem setOutput_obuf (s : State) (m : Memory) : (s.setOutput m).obuf = m := rfl
@[simp] theorem setOutput_aspec (s : State) (m : Memory) : (s.setOutput m).aspec = s.aspec := rfl
@[simp] theorem setOutput_dspec (s : State) (m : Memory) : (s.setOutput m).dspec = s.dspec := rfl
@[simp] theorem setOutput_draw (s : State) (m : Memory) : (s.setOutput m).draw = s.draw := rfl
@[simp] theorem setOutput_memDraw (s : State) (m : Memory) : (s.setOutput m).memDraw = s.memDraw := rfl
@[simp] theorem setOutput_bus (s : State) (m : Memory) : (s.setOutput m).bus = s.bus := rfl
@[simp] theorem setOutput_rdata (s : State) (m : Memory) : (s.setOutput m).rdata = s.rdata := rfl

/-! ## raiseFatal -/

@[simp] theorem raiseFatal_params (c : ErrCode) (x y : Word) (sel : Sel) (s : State) : (raiseFatal c x y sel s).params = s.params := rfl
@[simp] theorem raiseFatal_status (c : ErrCode) (x y : Word) (sel : Sel) (s : State) : (raiseFatal c x y sel s).status = { s.status with state := .error } := rfl
@[simp] theorem raiseFatal_err (c : ErrCode) (x y : Word) (sel : Sel) (s : State) : (raiseFatal c x y sel s).err = { code := c, sel := sel, info0 := x, info1 := y } := rfl
@[simp] theorem raiseFatal_cfg (c : ErrCode) (x y : Word) (sel : Sel) (s : State) : (raiseFatal c x y sel s).cfg = s.cfg := rfl
@[simp] theorem raiseFatal_fileSize (c : ErrCode) (x y : Word) (sel : Sel) (s : State) : (raiseFatal c x y sel s).fileSize = s.fileSize := rfl
@[simp] theorem raiseFatal_workingSize (c : ErrCode) (x y : Word) (sel : Sel) (s : State) : (raiseFatal c x y sel s).workingSize = s.workingSize := rfl
@[simp] theorem raiseFatal_nab (c : ErrCode) (x y : Word) (sel : Sel) (s : State) : (raiseFatal c x y sel s).nab = s.nab := rfl
@[simp] theorem raiseFatal_ndb (c : ErrCode) (x y : Word) (sel : Sel) (s : State) : (raiseFatal c x y sel s).ndb = s.ndb := rfl
@[simp] theorem raiseFatal_operand (c : ErrCode) (x y : Word) (sel : Sel) (s : State) : (raiseFatal c x y sel s).operand = s.operand := rfl
@[simp] theorem raiseFatal_result (c : ErrCode) (x y : Word) (sel : Sel) (s : State) : (raiseFatal c x y sel s).result = s.result := rfl
@[simp] theorem raiseFatal_apw (c : ErrCode) (x y : Word) (sel : Sel) (s : State) : (raiseFatal c x y sel s).apw = s.apw := rfl
@[simp] theorem raiseFatal_dpw (c : ErrCode) (x y : Word) (sel : Sel) (s : State) : (raiseFatal c x y sel s).dpw = s.dpw := rfl
@[simp] theorem raiseFatal_aperm (c : ErrCode) (x y : Word) (sel : Sel) (s : State) : (raiseFatal c x y sel s).aperm = s.aperm := rfl
@[simp] theorem raiseFatal_dperm (c : ErrCode) (x y : Word) (sel : Sel) (s : State) : (raiseFatal c x y sel s).dperm = s.dperm := rfl
@[simp] theorem raiseFatal_aspecLen (c : ErrCode) (x y : Word) (sel : Sel) (s : State) : (raiseFatal c x y sel s).aspecLen = s.aspecLen := rfl
@[simp] theorem raiseFatal_dspecLen (c : ErrCode) (x y : Word) (sel : Sel) (s : State) : (raiseFatal c x y sel s).dspecLen = s.dspecLen := rfl
@[simp] theorem raiseFatal_diag (c : ErrCode) (x y : Word) (sel : Sel) (s : State) : (raiseFatal c x y sel s).diag = s.diag := rfl
@[simp] theorem raiseFatal_ibuf (c : ErrCode) (x y : Word) (sel : Sel) (s : State) : (raiseFatal c x y sel s).ibuf = s.ibuf := rfl
@[simp] theorem raiseFatal_obuf (c : ErrCode) (x y : Word) (sel : Sel) (s : State) : (raiseFatal c x y sel s).obuf = s.obuf := rfl
@[simp] theorem raiseFatal_aspec (c : ErrCode) (x y : Word) (sel : Sel) (s : State) : (raiseFatal c x y sel s).aspec = s.aspec := rfl
@[simp] theorem raiseFatal_dspec (c : ErrCode) (x y : Word) (sel : Sel) (s : State) : (raiseFatal c x y sel s).dspec = s.dspec := rfl
@[simp] theorem raiseFatal_draw (c : ErrCode) (x y : Word) (sel : Sel) (s : State) : (raiseFatal c x y sel s).draw = s.draw := rfl
@[simp] theorem raiseFatal_memDraw (c : ErrCode) (x y : Word) (sel : Sel) (s : State) : (raiseFatal c x y sel s).memDraw = s.memDraw := rfl
@[simp] theorem raiseFatal_bus (c : ErrCode) (x y : Word) (sel : Sel) (s : State) : (raiseFatal c x y sel s).bus = s.bus := rfl
@[simp] theorem raiseFatal_rdata (c : ErrCode) (x y : Word) (sel : Sel) (s : State) : (raiseFatal c x y sel s).rdata = s.rdata := rfl

/-! ## commandStart -/

@[simp] theorem commandStart_params (s : State) : (commandStart s).params = s.params := rfl
@[simp] theorem commandStart_status (s : State) : (commandStart s).status = Status.started := rfl
@[simp] theorem commandStart_err (s : State) : (commandStart s).err = ErrRegs.clear := rfl
@[simp] theorem commandStart_cfg (s : State) : (commandStart s).cfg = s.cfg := rfl
@[simp] theorem commandStart_fileSize (s : State) : (commandStart s).fileSize = s.fileSize := rfl
@[simp] theorem commandStart_workingSize (s : State) : (commandStart s).workingSize = s.workingSize := rfl
@[simp] theorem commandStart_nab (s : State) : (commandStart s).nab = s.nab := rfl
@[simp] theorem commandStart_ndb (s : State) : (commandStart s).ndb = s.ndb := rfl
@[simp] theorem commandStart_operand (s : State) : (commandStart s).operand = s.operand := rfl
@[simp] theorem commandStart_result (s : State) : (commandStart s).result = s.result := rfl
@[simp] theorem commandStart_apw (s : State) : (commandStart s).apw = s.apw := rfl
@[simp] theorem commandStart_dpw (s : State) : (commandStart s).dpw = s.dpw := rfl
@[simp] theorem commandStart_aperm (s : State) : (commandStart s).aperm = s.aperm := rfl
@[simp] theorem commandStart_dperm (s : State) : (commandStart s).dperm = s.dperm := rfl
@[simp] theorem commandStart_aspecLen (s : State) : (commandStart s).aspecLen = s.aspecLen := rfl
@[simp] theorem commandStart_dspecLen (s : State) : (commandStart s).dspecLen = s.dspecLen := rfl
@[simp] theorem commandStart_diag (s : State) : (commandStart s).diag = [] := rfl
@[simp] theorem commandStart_ibuf (s : State) : (commandStart s).ibuf = s.ibuf := rfl
@[simp] theorem commandStart_obuf (s : State) : (commandStart s).obuf = s.obuf := rfl
@[simp] theorem commandStart_aspec (s : State) : (commandStart s).aspec = s.aspec := rfl
@[simp] theorem commandStart_dspec (s : State) : (commandStart s).dspec = s.dspec := rfl
@[simp] theorem commandStart_draw (s : State) : (commandStart s).draw = s.draw := rfl
@[simp] theorem commandStart_memDraw (s : State) : (commandStart s).memDraw = s.memDraw := rfl
@[simp] theorem commandStart_bus (s : State) : (commandStart s).bus = s.bus := rfl
@[simp] theorem commandStart_rdata (s : State) : (commandStart s).rdata = s.rdata := rfl

/-! ## commandDone -/

@[simp] theorem commandDone_params (s : State) : (commandDone s).params = s.params := rfl
@[simp] theorem commandDone_status (s : State) : (commandDone s).status = { s.status with state := .done } := rfl
@[simp] theorem commandDone_err (s : State) : (commandDone s).err = s.err := rfl
@[simp] theorem commandDone_cfg (s : State) : (commandDone s).cfg = s.cfg := rfl
@[simp] theorem commandDone_fileSize (s : State) : (commandDone s).fileSize = s.fileSize := rfl
@[simp] theorem commandDone_workingSize (s : State) : (commandDone s).workingSize = s.workingSize := rfl
@[simp] theorem commandDone_nab (s : State) : (commandDone s).nab = s.nab := rfl
@[simp] theorem commandDone_ndb (s : State) : (commandDone s).ndb = s.ndb := rfl
@[simp] theorem commandDone_operand (s : State) : (commandDone s).operand = s.operand := rfl
@[simp] theorem commandDone_result (s : State) : (commandDone s).result = s.result := rfl
@[simp] theorem commandDone_apw (s : State) : (commandDone s).apw = s.apw := rfl
@[simp] theorem commandDone_dpw (s : State) : (commandDone s).dpw = s.dpw := rfl
@[simp] theorem commandDone_aperm (s : State) : (commandDone s).aperm = s.aperm := rfl
@[simp] theorem commandDone_dperm (s : State) : (commandDone s).dperm = s.dperm := rfl
@[simp] theorem commandDone_aspecLen (s : State) : (commandDone s).aspecLen = s.aspecLen := rfl
@[simp] theorem commandDone_dspecLen (s : State) : (commandDone s).dspecLen = s.dspecLen := rfl
@[simp] theorem commandDone_diag (s : State) : (commandDone s).diag = s.diag := rfl
@[simp] theorem commandDone_ibuf (s : State) : (commandDone s).ibuf = s.ibuf := rfl
@[simp] theorem commandDone_obuf (s : State) : (commandDone s).obuf = s.obuf := rfl
@[simp] theorem commandDone_aspec (s : State) : (commandDone s).aspec = s.aspec := rfl
@[simp] theorem commandDone_dspec (s : State) : (commandDone s).dspec = s.dspec := rfl
@[simp] theorem commandDone_draw (s : State) : (commandDone s).draw = s.draw := rfl
@[simp] theorem commandDone_memDraw (s : State) : (commandDone s).memDraw = s.memDraw := rfl
@[simp] theorem commandDone_bus (s : State) : (commandDone s).bus = s.bus := rfl
@[simp] theorem commandDone_rdata (s : State) : (commandDone s).rdata = s.rdata := rfl

/-! ## warn -/

@[simp] theorem warn_params (e : DiagEvent) (s : State) : (warn e s).params = s.params := rfl
@[simp] theorem warn_status (e : DiagEvent) (s : State) : (warn e s).status = s.status.setWarning e.kind := rfl
@[simp] theorem warn_err (e : DiagEvent) (s : State) : (warn e s).err = s.err := rfl
@[simp] theorem warn_cfg (e : DiagEvent) (s : State) : (warn e s).cfg = s.cfg := rfl
@[simp] theorem warn_fileSize (e : DiagEvent) (s : State) : (warn e s).fileSize = s.fileSize := rfl
@[simp] theorem warn_workingSize (e : DiagEvent) (s : State) : (warn e s).workingSize = s.workingSize := rfl
@[simp] theorem warn_nab (e : DiagEvent) (s : State) : (warn e s).nab = s.nab := rfl
@[simp] theorem warn_ndb (e : DiagEvent) (s : State) : (warn e s).ndb = s.ndb := rfl
@[simp] theorem warn_operand (e : DiagEvent) (s : State) : (warn e s).operand = s.operand := rfl
@[simp] theorem warn_result (e : DiagEvent) (s : State) : (warn e s).result = s.result := rfl
@[simp] theorem warn_apw (e : DiagEvent) (s : State) : (warn e s).apw = s.apw := rfl
@[simp] theorem warn_dpw (e : DiagEvent) (s : State) : (warn e s).dpw = s.dpw := rfl
@[simp] theorem warn_aperm (e : DiagEvent) (s : State) : (warn e s).aperm = s.aperm := rfl
@[simp] theorem warn_dperm (e : DiagEvent) (s : State) : (warn e s).dperm = s.dperm := rfl
@[simp] theorem warn_aspecLen (e : DiagEvent) (s : State) : (warn e s).aspecLen = s.aspecLen := rfl
@[simp] theorem warn_dspecLen (e : DiagEvent) (s : State) : (warn e s).dspecLen = s.dspecLen := rfl
@[simp] theorem warn_diag (e : DiagEvent) (s : State) : (warn e s).diag = s.diag ++ [e] := rfl
@[simp] theorem warn_ibuf (e : DiagEvent) (s : State) : (warn e s).ibuf = s.ibuf := rfl
@[simp] theorem warn_obuf (e : DiagEvent) (s : State) : (warn e s).obuf = s.obuf := rfl
@[simp] theorem warn_aspec (e : DiagEvent) (s : State) : (warn e s).aspec = s.aspec := rfl
@[simp] theorem warn_dspec (e : DiagEvent) (s : State) : (warn e s).dspec = s.dspec := rfl
@[simp] theorem warn_draw (e : DiagEvent) (s : State) : (warn e s).draw = s.draw := rfl
@[simp] theorem warn_memDraw (e : DiagEvent) (s : State) : (warn e s).memDraw = s.memDraw := rfl
@[simp] theorem warn_bus (e : DiagEvent) (s : State) : (warn e s).bus = s.bus := rfl
@[simp] theorem warn_rdata (e : DiagEvent) (s : State) : (warn e s).rdata = s.rdata := rfl

/-! ## The permutation registers and byte spaces by selector -/

@[simp] theorem setPw_pw (s : State) (sel : Sel) (w : BitVec 6) : (s.setPw sel w).pw sel = w := by cases sel <;> rfl
@[simp] theorem setPw_apw (s : State) (sel : Sel) (w : BitVec 6) :
    (s.setPw sel w).apw = if sel = .addr then w else s.apw := by cases sel <;> rfl
@[simp] theorem setPw_dpw (s : State) (sel : Sel) (w : BitVec 6) :
    (s.setPw sel w).dpw = if sel = .data then w else s.dpw := by cases sel <;> rfl
@[simp] theorem setPerm_perm (s : State) (sel : Sel) (p : PermFile) : (s.setPerm sel p).perm sel = p := by
  cases sel <;> rfl
@[simp] theorem setPerm_aperm (s : State) (sel : Sel) (p : PermFile) :
    (s.setPerm sel p).aperm = if sel = .addr then p else s.aperm := by cases sel <;> rfl
@[simp] theorem setPerm_dperm (s : State) (sel : Sel) (p : PermFile) :
    (s.setPerm sel p).dperm = if sel = .data then p else s.dperm := by cases sel <;> rfl
@[simp] theorem losePerm_aperm (s : State) (sel : Sel) :
    (s.losePerm sel).aperm = if sel = .addr then freePerm s.draw else s.aperm := by simp [State.losePerm]
@[simp] theorem losePerm_dperm (s : State) (sel : Sel) :
    (s.losePerm sel).dperm = if sel = .data then freePerm s.draw else s.dperm := by simp [State.losePerm]
@[simp] theorem setMem_mem (s : State) (sp : Space) (m : Memory) : (s.setMem sp m).mem sp = m := by cases sp <;> rfl
theorem setMem_mem_of_ne (s : State) {sp sp' : Space} (m : Memory) (h : sp' ≠ sp) :
    (s.setMem sp m).mem sp' = s.mem sp' := by
  cases sp <;> cases sp' <;> first | rfl | exact absurd rfl h

/-! ## warnAll: the log and the warning bits, nothing else -/

@[simp] theorem warnAll_nil (s : State) : warnAll [] s = s := rfl
@[simp] theorem warnAll_cons (e : DiagEvent) (es : List DiagEvent) (s : State) :
    warnAll (e :: es) s = warnAll es (warn e s) := rfl

@[simp] theorem warnAll_params (es : List DiagEvent) (s : State) : (warnAll es s).params = s.params := by
  induction es generalizing s with
  | nil => rfl
  | cons e es ih => simp [ih]

@[simp] theorem warnAll_err (es : List DiagEvent) (s : State) : (warnAll es s).err = s.err := by
  induction es generalizing s with
  | nil => rfl
  | cons e es ih => simp [ih]

@[simp] theorem warnAll_cfg (es : List DiagEvent) (s : State) : (warnAll es s).cfg = s.cfg := by
  induction es generalizing s with
  | nil => rfl
  | cons e es ih => simp [ih]

@[simp] theorem warnAll_fileSize (es : List DiagEvent) (s : State) : (warnAll es s).fileSize = s.fileSize := by
  induction es generalizing s with
  | nil => rfl
  | cons e es ih => simp [ih]

@[simp] theorem warnAll_workingSize (es : List DiagEvent) (s : State) : (warnAll es s).workingSize = s.workingSize := by
  induction es generalizing s with
  | nil => rfl
  | cons e es ih => simp [ih]

@[simp] theorem warnAll_nab (es : List DiagEvent) (s : State) : (warnAll es s).nab = s.nab := by
  induction es generalizing s with
  | nil => rfl
  | cons e es ih => simp [ih]

@[simp] theorem warnAll_ndb (es : List DiagEvent) (s : State) : (warnAll es s).ndb = s.ndb := by
  induction es generalizing s with
  | nil => rfl
  | cons e es ih => simp [ih]

@[simp] theorem warnAll_operand (es : List DiagEvent) (s : State) : (warnAll es s).operand = s.operand := by
  induction es generalizing s with
  | nil => rfl
  | cons e es ih => simp [ih]

@[simp] theorem warnAll_result (es : List DiagEvent) (s : State) : (warnAll es s).result = s.result := by
  induction es generalizing s with
  | nil => rfl
  | cons e es ih => simp [ih]

@[simp] theorem warnAll_apw (es : List DiagEvent) (s : State) : (warnAll es s).apw = s.apw := by
  induction es generalizing s with
  | nil => rfl
  | cons e es ih => simp [ih]

@[simp] theorem warnAll_dpw (es : List DiagEvent) (s : State) : (warnAll es s).dpw = s.dpw := by
  induction es generalizing s with
  | nil => rfl
  | cons e es ih => simp [ih]

@[simp] theorem warnAll_aperm (es : List DiagEvent) (s : State) : (warnAll es s).aperm = s.aperm := by
  induction es generalizing s with
  | nil => rfl
  | cons e es ih => simp [ih]

@[simp] theorem warnAll_dperm (es : List DiagEvent) (s : State) : (warnAll es s).dperm = s.dperm := by
  induction es generalizing s with
  | nil => rfl
  | cons e es ih => simp [ih]

@[simp] theorem warnAll_aspecLen (es : List DiagEvent) (s : State) : (warnAll es s).aspecLen = s.aspecLen := by
  induction es generalizing s with
  | nil => rfl
  | cons e es ih => simp [ih]

@[simp] theorem warnAll_dspecLen (es : List DiagEvent) (s : State) : (warnAll es s).dspecLen = s.dspecLen := by
  induction es generalizing s with
  | nil => rfl
  | cons e es ih => simp [ih]

@[simp] theorem warnAll_ibuf (es : List DiagEvent) (s : State) : (warnAll es s).ibuf = s.ibuf := by
  induction es generalizing s with
  | nil => rfl
  | cons e es ih => simp [ih]

@[simp] theorem warnAll_obuf (es : List DiagEvent) (s : State) : (warnAll es s).obuf = s.obuf := by
  induction es generalizing s with
  | nil => rfl
  | cons e es ih => simp [ih]

@[simp] theorem warnAll_aspec (es : List DiagEvent) (s : State) : (warnAll es s).aspec = s.aspec := by
  induction es generalizing s with
  | nil => rfl
  | cons e es ih => simp [ih]

@[simp] theorem warnAll_dspec (es : List DiagEvent) (s : State) : (warnAll es s).dspec = s.dspec := by
  induction es generalizing s with
  | nil => rfl
  | cons e es ih => simp [ih]

@[simp] theorem warnAll_draw (es : List DiagEvent) (s : State) : (warnAll es s).draw = s.draw := by
  induction es generalizing s with
  | nil => rfl
  | cons e es ih => simp [ih]

@[simp] theorem warnAll_memDraw (es : List DiagEvent) (s : State) : (warnAll es s).memDraw = s.memDraw := by
  induction es generalizing s with
  | nil => rfl
  | cons e es ih => simp [ih]

@[simp] theorem warnAll_bus (es : List DiagEvent) (s : State) : (warnAll es s).bus = s.bus := by
  induction es generalizing s with
  | nil => rfl
  | cons e es ih => simp [ih]

@[simp] theorem warnAll_rdata (es : List DiagEvent) (s : State) : (warnAll es s).rdata = s.rdata := by
  induction es generalizing s with
  | nil => rfl
  | cons e es ih => simp [ih]

@[simp] theorem warnAll_diag (es : List DiagEvent) (s : State) : (warnAll es s).diag = s.diag ++ es := by
  induction es generalizing s with
  | nil => simp
  | cons e es ih => simp [ih]

@[simp] theorem setWarning_state (t : Status) (k : WarnKind) : (t.setWarning k).state = t.state := by cases k <;> rfl

@[simp] theorem setWarning_outValid (t : Status) (k : WarnKind) : (t.setWarning k).outValid = t.outValid := by
  cases k <;> rfl

theorem setWarning_warning (t : Status) (k k' : WarnKind) :
    (t.setWarning k).warning k' = (t.warning k' || decide (k = k')) := by
  cases k <;> cases k' <;> simp [Status.setWarning, Status.warning]

@[simp] theorem warnAll_state (es : List DiagEvent) (s : State) : (warnAll es s).status.state = s.status.state := by
  induction es generalizing s with
  | nil => rfl
  | cons e es ih => simp [ih]

@[simp] theorem warnAll_outValid (es : List DiagEvent) (s : State) :
    (warnAll es s).status.outValid = s.status.outValid := by
  induction es generalizing s with
  | nil => rfl
  | cons e es ih => simp [ih]

/-- Logging sets exactly the bits of the kinds logged. -/
theorem warnAll_warning (es : List DiagEvent) (s : State) (k : WarnKind) :
    (warnAll es s).status.warning k = (s.status.warning k || es.any (fun e => decide (e.kind = k))) := by
  induction es generalizing s with
  | nil => simp
  | cons e es ih => simp [ih, setWarning_warning, Bool.or_assoc]

/-- Logging changes STATUS and the log, and no other field. -/
theorem warnAll_eq (es : List DiagEvent) (s : State) :
    warnAll es s = { s with status := (warnAll es s).status, diag := s.diag ++ es } := by
  induction es generalizing s with
  | nil => simp
  | cons e es ih => rw [warnAll_cons, ih]; simp [warn]

theorem warnAll_append (es es' : List DiagEvent) (s : State) :
    warnAll (es ++ es') s = warnAll es' (warnAll es s) := List.foldl_append

/-- What logging makes of STATUS depends on STATUS alone. -/
theorem warnAll_status_congr (es : List DiagEvent) {s t : State} (h : s.status = t.status) :
    (warnAll es s).status = (warnAll es t).status := by
  induction es generalizing s t with
  | nil => exact h
  | cons e es ih => exact ih (by simp [h])

end Sys2Proof.Machine
end

