-- ==== Sys2Proof/Laws/Command.lean ====
section
/-! SUPPORT. How the phases of a command compose, and what a whole command answers. -/

namespace Sys2Proof.Machine

section
variable {α β : Type}

@[simp] theorem andThen_ok (a : α) (s : State) (f : α → State → Res β) : (Res.ok a s).andThen f = f a s := rfl
@[simp] theorem andThen_stop (s : State) (f : α → State → Res β) : (Res.stop s : Res α).andThen f = .stop s := rfl
@[simp] theorem andThen_refuse (r : Refusal) (f : α → State → Res β) :
    (Res.refuse r : Res α).andThen f = .refuse r := rfl

/-- Two phases end well exactly when both do. -/
theorem andThen_eq_ok {x : Res α} {f : α → State → Res β} {b : β} {t : State} :
    x.andThen f = .ok b t ↔ ∃ a s, x = .ok a s ∧ f a s = .ok b t := by
  cases x with
  | ok a s => exact ⟨fun h => ⟨a, s, rfl, h⟩, fun ⟨_, _, h, hf⟩ => by cases h; exact hf⟩
  | stop s => simp
  | refuse r => simp

/-- Two phases end in a fatal error exactly when the first does, or the second does after the first ended well. -/
theorem andThen_eq_stop {x : Res α} {f : α → State → Res β} {t : State} :
    x.andThen f = .stop t ↔ x = .stop t ∨ ∃ a s, x = .ok a s ∧ f a s = .stop t := by
  cases x with
  | ok a s => simp only [andThen_ok, reduceCtorEq, false_or]; exact
      ⟨fun h => ⟨a, s, rfl, h⟩, fun ⟨_, _, h, hf⟩ => by cases h; exact hf⟩
  | stop s => simp
  | refuse r => simp

/-- Every state a phase can end in has the property. -/
def Res.All (p : State → Prop) : Res α → Prop
  | .ok _ t => p t
  | .stop t => p t
  | .refuse _ => True

/-- A property that both phases establish holds after the two. -/
theorem Res.All.andThen {p q : State → Prop} {x : Res α} {f : α → State → Res β} (hx : x.All p)
    (hpq : ∀ t, p t → q t) (hf : ∀ a t, p t → (f a t).All q) : (x.andThen f).All q := by
  cases x with
  | ok a t => exact hf a t hx
  | stop t => exact hpq t hx
  | refuse r => trivial

theorem Res.All.imp {p q : State → Prop} {x : Res α} (hx : x.All p) (hpq : ∀ t, p t → q t) : x.All q := by
  cases x with
  | ok a t => exact hpq t hx
  | stop t => exact hpq t hx
  | refuse r => trivial

end

/-- Everything a command can do: its body ends well and STATE becomes DONE, or its body stops with a fatal error. -/
theorem runCommand_eq_next {body : State → Res Unit} {s t : State} :
    runCommand body s = .next t ↔
      (∃ u, body (commandStart s) = .ok () u ∧ t = commandDone u) ∨ body (commandStart s) = .stop t := by
  unfold runCommand
  cases body (commandStart s) <;> simp [eq_comm]

theorem runCommand_of_ok {body : State → Res Unit} {s u : State} (h : body (commandStart s) = .ok () u) :
    runCommand body s = .next (commandDone u) := by simp [runCommand, h]

theorem runCommand_of_stop {body : State → Res Unit} {s t : State} (h : body (commandStart s) = .stop t) :
    runCommand body s = .next t := by simp [runCommand, h]

/-- A property of every state the body can end in, kept by `STATE <- DONE`, holds after the command. -/
theorem runCommand_all {body : State → Res Unit} {s t : State} {p : State → Prop} (h : runCommand body s = .next t)
    (hb : (body (commandStart s)).All p) (hd : ∀ u, p u → p (commandDone u)) : p t := by
  rcases runCommand_eq_next.1 h with ⟨u, hu, rfl⟩ | hu
  · rw [hu] at hb; exact hd u hb
  · rw [hu] at hb; exact hb

/-- The BPW check: BPW when it is legal, BAD_BPW otherwise (10_state.md R29). -/
theorem checkBpw_eq (s : State) :
    checkBpw s = if 1 ≤ s.cfg.bpw.toNat ∧ s.cfg.bpw.toNat ≤ 4 then .ok s.cfg.bpw.toNat s
      else .stop (raiseFatal .badBpw (s.cfg.bpw.setWidth 32) 0 .addr s) := by
  simp [checkBpw, Cfg.bpwLegal]

end Sys2Proof.Machine
end

