-- ==== Sys2Proof/Laws/Endian.lean ====
section
/-! SUPPORT. The endianness codec bit by bit. -/

namespace Sys2Proof.Machine

/-- Bytes packed into a number, byte `j` at bit `8 * j`. -/
def packed (f : Nat → Byte) : Nat → Nat
  | 0 => 0
  | n + 1 => packed f n + (f n).toNat <<< (8 * n)

theorem packed_congr {f g : Nat → Byte} {n : Nat} (h : ∀ j, j < n → f j = g j) : packed f n = packed g n := by
  induction n with
  | zero => rfl
  | succ n ih => rw [packed, packed, ih fun j hj => h j (by omega), h n (by omega)]

theorem packed_lt (f : Nat → Byte) (n : Nat) : packed f n < 2 ^ (8 * n) := by
  induction n with
  | zero => simp [packed]
  | succ n ih =>
    have h1 : (f n).toNat * 2 ^ (8 * n) ≤ 255 * 2 ^ (8 * n) := Nat.mul_le_mul_right _ (by have := (f n).isLt; omega)
    have h2 : 2 ^ (8 * (n + 1)) = 256 * 2 ^ (8 * n) := by rw [Nat.mul_succ, Nat.pow_add, Nat.mul_comm]
    rw [packed, Nat.shiftLeft_eq, h2]
    omega

/-- Bit `k` of packed bytes is bit `k % 8` of byte `k / 8`. -/
theorem testBit_packed (f : Nat → Byte) (n k : Nat) :
    (packed f n).testBit k = (decide (k < 8 * n) && (f (k / 8)).getLsbD (k % 8)) := by
  induction n with
  | zero => simp [packed]
  | succ n ih =>
    have h : packed f (n + 1) = 2 ^ (8 * n) * (f n).toNat + packed f n := by
      rw [packed, Nat.shiftLeft_eq, Nat.mul_comm, Nat.add_comm]
    rw [h, Nat.testBit_two_pow_mul_add _ (packed_lt f n)]
    by_cases h1 : k < 8 * n
    · have h2 : k < 8 * (n + 1) := by omega
      simp [h1, h2, ih]
    · rw [if_neg h1]
      by_cases h2 : k < 8 * (n + 1)
      · have h3 : k / 8 = n := by omega
        have h4 : k - 8 * n = k % 8 := by omega
        simp [h2, h3, h4, BitVec.getLsbD]
      · have : 2 ^ 8 ≤ 2 ^ (k - 8 * n) := Nat.pow_le_pow_right (by decide) (by omega)
        rw [Nat.testBit_lt_two_pow (by have := (f n).isLt; omega)]
        simp [h2]

/-- The same bytes summed with the first one highest. -/
theorem sum_big_eq_packed (f : Nat → Byte) (n : Nat) :
    ((List.range n).map (fun k => (f k).toNat <<< (8 * (n - 1 - k)))).sum = packed (fun j => f (n - 1 - j)) n := by
  induction n generalizing f with
  | zero => rfl
  | succ n ih =>
    have h0 : (List.range n).map ((fun k => (f k).toNat <<< (8 * (n + 1 - 1 - k))) ∘ Nat.succ) =
        (List.range n).map (fun k => (f (k + 1)).toNat <<< (8 * (n - 1 - k))) := by
      refine List.map_congr_left fun k hk => ?_
      have h1 : n + 1 - 1 - (k + 1) = n - 1 - k := by omega
      simp only [Function.comp, Nat.succ_eq_add_one, h1]
    rw [List.range_succ_eq_map, List.map_cons, List.map_map, h0, List.sum_cons, ih fun k => f (k + 1), packed]
    have h2 : packed (fun j => f (n - 1 - j + 1)) n = packed (fun j => f (n + 1 - 1 - j)) n :=
      packed_congr fun j hj => by congr 1; omega
    have h3 : n + 1 - 1 - n = 0 := by omega
    rw [h2, h3, Nat.add_comm]
    rfl

theorem sum_little_eq_packed (f : Nat → Byte) (n : Nat) :
    ((List.range n).map (fun k => (f k).toNat <<< (8 * k))).sum = packed f n := by
  induction n with
  | zero => rfl
  | succ n ih => rw [List.range_succ, List.map_append, List.sum_append, ih]; simp [packed]

/-- The decoded word as packed bytes, in the order CFG.BIG selects (42_endian.md R150). -/
theorem decodeWord_eq_packed (b : List Byte) (n : Nat) (big : Bool) :
    decodeWord b n big = packed (fun j => b.getD (if big then n - 1 - j else j) 0) n := by
  cases big with
  | false => exact sum_little_eq_packed (fun k => b.getD k 0) n
  | true => exact sum_big_eq_packed (fun k => b.getD k 0) n

/-- Bit `k` of a decoded word (42_endian.md R150). -/
theorem testBit_decodeWord (b : List Byte) (n k : Nat) (big : Bool) :
    (decodeWord b n big).testBit k =
      (decide (k < 8 * n) && (b.getD (if big then n - 1 - k / 8 else k / 8) 0).getLsbD (k % 8)) := by
  rw [decodeWord_eq_packed, testBit_packed]

/-- Bit `i` of byte `j` of an encoded word (42_endian.md R151). -/
theorem getLsbD_encodeWord (w : Nat) {n j i : Nat} (big : Bool) (hj : j < n) (hi : i < 8) :
    ((encodeWord w n big).getD j 0).getLsbD i = w.testBit (8 * (if big then n - 1 - j else j) + i) := by
  have h : (encodeWord w n big).getD j 0 = BitVec.ofNat 8 (w >>> byteShift n big j) := by
    simp [encodeWord, List.getD_eq_getElem?_getD, hj]
  rw [h, BitVec.getLsbD_ofNat, Nat.testBit_shiftRight]
  simp [hi, byteShift]

end Sys2Proof.Machine
end

