-- ==== Sys2Proof/Laws/Memory.lean ====
section
/-! SUPPORT. The laws of the byte spaces: read after write, the zero fill, and the canonical form. -/

namespace Sys2Proof.Machine

theorem read_eq_none_of_lt {m : Memory} {k : Nat} (h : ∀ c ∈ m, k < c.1) : m.read k = none := by
  induction m with
  | nil => rfl
  | cons c m ih =>
    have hk := h c (by simp)
    have : Memory.read m k = none := ih fun d hd => h d (by simp [hd])
    simp [Memory.read, this, Nat.ne_of_gt hk]

/-! ## One byte -/

theorem read_write_same (m : Memory) (k : Nat) (v : Byte) : (m.write k v).read k = some v := by
  induction m with
  | nil => simp [Memory.write, Memory.read]
  | cons c m ih =>
    obtain ⟨a, b⟩ := c
    by_cases h1 : k < a
    · simp [Memory.write, Memory.read, h1]
    · by_cases h2 : k = a
      · simp [Memory.write, Memory.read, h2]
      · simp [Memory.write, Memory.read, h1, h2, Ne.symm h2, ih]

theorem read_write_other (m : Memory) {j k : Nat} (v : Byte) (h : j ≠ k) : (m.write k v).read j = m.read j := by
  induction m with
  | nil => simp [Memory.write, Memory.read, Ne.symm h]
  | cons c m ih =>
    obtain ⟨a, b⟩ := c
    by_cases h1 : k < a
    · simp [Memory.write, Memory.read, h1, Ne.symm h]
    · by_cases h2 : k = a
      · subst h2; simp [Memory.write, Memory.read, Ne.symm h]
      · simp [Memory.write, Memory.read, h1, h2, ih]

/-- A read after a write: the byte written at that offset, every other offset as before. -/
theorem read_write (m : Memory) (j k : Nat) (v : Byte) :
    (m.write k v).read j = if j = k then some v else m.read j := by
  by_cases h : j = k
  · simp [h, read_write_same]
  · simp [h, read_write_other]

theorem mem_write {m : Memory} {k : Nat} {v : Byte} {c : Host.Cell} (h : c ∈ m.write k v) : c = (k, v) ∨ c ∈ m := by
  induction m with
  | nil => simpa [Memory.write] using h
  | cons d m ih =>
    obtain ⟨a, b⟩ := d
    by_cases h1 : k < a
    · simpa [Memory.write, h1] using h
    · by_cases h2 : k = a
      · simp [Memory.write, h2] at h
        rcases h with h | h <;> simp [h, h2]
      · simp [Memory.write, h1, h2] at h
        rcases h with h | h
        · simp [h]
        · rcases ih h with h | h <;> simp [h]

theorem wf_nil : Memory.wf [] := List.Pairwise.nil

/-- After reset every byte space is in canonical form: nothing is listed. -/
theorem reset_mem_wf (sp : Space) : (State.reset.mem sp).wf := by cases sp <;> exact wf_nil

/-- A write keeps the canonical form. -/
theorem wf_write {m : Memory} (h : m.wf) (k : Nat) (v : Byte) : (m.write k v).wf := by
  induction m with
  | nil => simp [Memory.write, Memory.wf]
  | cons c m ih =>
    obtain ⟨a, b⟩ := c
    obtain ⟨hc, hm⟩ := List.pairwise_cons.1 h
    by_cases h1 : k < a
    · simp only [Memory.write, h1, ↓reduceIte]
      refine List.pairwise_cons.2 ⟨fun d hd => ?_, h⟩
      rcases List.mem_cons.1 hd with rfl | hd
      · exact h1
      · exact Nat.lt_trans h1 (hc d hd)
    · by_cases h2 : k = a
      · subst h2
        simp only [Memory.write, Nat.lt_irrefl, ↓reduceIte]
        exact List.pairwise_cons.2 ⟨hc, hm⟩
      · simp only [Memory.write, h1, h2, ↓reduceIte]
        refine List.pairwise_cons.2 ⟨fun d hd => ?_, ih hm⟩
        rcases mem_write hd with rfl | hd
        · exact Nat.lt_of_le_of_ne (Nat.not_lt.1 h1) (Ne.symm h2)
        · exact hc d hd

/-- A write inside a bound keeps every offset inside it. -/
theorem bound_write {m : Memory} {n k : Nat} (h : ∀ c ∈ m, c.1 < n) (hk : k < n) (v : Byte) :
    ∀ c ∈ m.write k v, c.1 < n := by
  intro c hc
  rcases mem_write hc with rfl | hc
  · exact hk
  · exact h c hc

/-! ## Several bytes -/

/-- A read after `MemWrite`: the bytes written from `a` on, every other offset as before. -/
theorem read_writeBytes (m : Memory) (a : Nat) (bs : List Byte) (j : Nat) :
    (m.writeBytes a bs).read j = if h : a ≤ j ∧ j - a < bs.length then some (bs[j - a]'h.2) else m.read j := by
  induction bs generalizing m a with
  | nil => simp [Memory.writeBytes]
  | cons b bs ih =>
    rw [Memory.writeBytes, ih, read_write]
    by_cases h1 : j = a
    · subst h1
      have : ¬ (j + 1 ≤ j ∧ j - (j + 1) < bs.length) := by omega
      rw [dif_neg this]
      simp
    · by_cases h2 : a + 1 ≤ j ∧ j - (a + 1) < bs.length
      · have h3 : a ≤ j ∧ j - a < (b :: bs).length := by simp; omega
        rw [dif_pos h2, dif_pos h3]
        have h4 : j - a = (j - (a + 1)) + 1 := by omega
        simp [h4]
      · have h3 : ¬ (a ≤ j ∧ j - a < (b :: bs).length) := by simp; omega
        rw [dif_neg h2, dif_neg h3, if_neg h1]

theorem wf_writeBytes {m : Memory} (h : m.wf) (a : Nat) (bs : List Byte) : (m.writeBytes a bs).wf := by
  induction bs generalizing m a with
  | nil => exact h
  | cons b bs ih => exact ih (wf_write h a b) (a + 1)

theorem bound_writeBytes {m : Memory} {n a : Nat} {bs : List Byte} (h : ∀ c ∈ m, c.1 < n) (hb : a + bs.length ≤ n) :
    ∀ c ∈ m.writeBytes a bs, c.1 < n := by
  induction bs generalizing m a with
  | nil => exact h
  | cons b bs ih =>
    have : a + (bs.length + 1) ≤ n := hb
    exact ih (bound_write h (by omega) b) (by omega)

/-! ## The zero fill -/

theorem read_append (m m' : Memory) (k : Nat) :
    Memory.read (m ++ m') k = (m.read k).or (m'.read k) := by
  induction m with
  | nil => rfl
  | cons c m ih =>
    obtain ⟨a, b⟩ := c
    by_cases h : a = k <;> simp [Memory.read, h, ih]

theorem read_filter_ge (m : Memory) (n k : Nat) :
    Memory.read (m.filter (fun c => decide (n ≤ c.1))) k = if n ≤ k then m.read k else none := by
  induction m with
  | nil => simp [Memory.read]
  | cons c m ih =>
    obtain ⟨a, b⟩ := c
    by_cases h1 : n ≤ a
    · by_cases h2 : a = k
      · subst h2; simp [Memory.read, h1]
      · simp [Memory.read, h1, h2, ih]
    · by_cases h2 : a = k
      · subst h2; simp [h1, ih]
      · simp [Memory.read, h1, h2, ih]

theorem read_zeros (n k : Nat) :
    Memory.read ((List.range n).map (fun k => (k, (0 : Byte)))) k = if k < n then some 0 else none := by
  induction n with
  | zero => rfl
  | succ n ih =>
    rw [List.range_succ, List.map_append, read_append, ih]
    by_cases h1 : k < n
    · have : k < n + 1 := by omega
      simp [h1, this]
    · by_cases h2 : n = k
      · subst h2; simp [Memory.read]
      · have : ¬ k < n + 1 := by omega
        simp [Memory.read, h1, h2, this]

/-- A read after the zero fill: 0 below `n`, as before from `n` on. -/
theorem read_zeroFill (m : Memory) (n k : Nat) :
    (m.zeroFill n).read k = if k < n then some 0 else m.read k := by
  rw [Memory.zeroFill, read_append, read_zeros, read_filter_ge]
  by_cases h : k < n
  · simp [h]
  · simp [h, Nat.not_lt.1 h]

theorem wf_zeroFill {m : Memory} (h : m.wf) (n : Nat) : (m.zeroFill n).wf := by
  refine List.pairwise_append.2 ⟨?_, h.filter _, ?_⟩
  · exact List.pairwise_map.2 (List.pairwise_lt_range)
  · intro c hc d hd
    simp only [List.mem_map, List.mem_range, List.mem_filter, decide_eq_true_eq] at hc hd
    obtain ⟨k, hk, rfl⟩ := hc
    exact Nat.lt_of_lt_of_le hk hd.2

theorem bound_zeroFill {m : Memory} {n size : Nat} (h : ∀ c ∈ m, c.1 < size) (hn : n ≤ size) :
    ∀ c ∈ m.zeroFill n, c.1 < size := by
  intro c hc
  simp only [Memory.zeroFill, List.mem_append, List.mem_map, List.mem_range, List.mem_filter] at hc
  rcases hc with ⟨k, hk, rfl⟩ | ⟨hc, -⟩
  · exact Nat.lt_of_lt_of_le hk hn
  · exact h c hc

/-! ## Reads through the state -/

/-- A byte that was written since reset reads as written. -/
theorem byte_of_read {s : State} {sp : Space} {k : Nat} {b : Byte} (h : (s.mem sp).read k = some b) :
    s.byte sp k = b := by simp [State.byte, h]

/-- A byte depends on its space and on the draw of the unwritten bytes alone. -/
theorem byte_congr {s t : State} {sp : Space} (hm : t.mem sp = s.mem sp) (hd : t.memDraw = s.memDraw) (k : Nat) :
    t.byte sp k = s.byte sp k := by simp [State.byte, hm, hd]

end Sys2Proof.Machine
end

