-- ==== Sys2Proof/Laws/Parse.lean ====
section
/-! SUPPORT. What the parser does: the token loop after its first `n` tokens, and the ways a parse ends. -/

namespace Sys2Proof.Machine

/-! ## Entries of a permutation register file -/

theorem permAt_set {p : PermFile} {j i : Nat} (v : Nat) (hi : i < 32) (hv : v < 32) :
    permAt (p.setIfInBounds j (BitVec.ofNat 5 v)) i = if i = j then v else permAt p i := by
  unfold permAt
  rw [Vector.getElem?_setIfInBounds]
  by_cases h : j = i
  · subst h
    simp [hi, Nat.mod_eq_of_lt hv]
  · simp [h, Ne.symm h]

/-! ## The token loop -/

/-- What the loop carries after the first `n` tokens of `toks`, all of them in range. -/
def scanPrefix (sel : Sel) (width : Nat) (toks : List (List Byte)) (a : ParseAcc) (n : Nat) : ParseAcc :=
  (List.range n).foldl (fun a t => scanToken sel width t (tokenAt toks t).toNat a) a

theorem scanPrefix_succ (sel : Sel) (width : Nat) (toks : List (List Byte)) (a : ParseAcc) (n : Nat) :
    scanPrefix sel width toks a (n + 1) =
      scanToken sel width n (tokenAt toks n).toNat (scanPrefix sel width toks a n) := by
  simp [scanPrefix, List.range_succ, List.foldl_append]

/-- After its first `n` tokens, all in range, the loop stands at token `n`. -/
theorem scanTokens_prefix (sel : Sel) (width : Nat) (toks : List (List Byte)) (a : ParseAcc) {n : Nat}
    (hn : n ≤ toks.length) (hr : ∀ t, t < n → InRange toks width t) :
    scanTokens sel width toks 0 a = scanTokens sel width (toks.drop n) n (scanPrefix sel width toks a n) := by
  induction n with
  | zero => rfl
  | succ n ih =>
    rw [ih (by omega) fun t ht => hr t (by omega), List.drop_eq_getElem_cons (by omega : n < toks.length)]
    have hv : tokenValue toks[n] = tokenAt toks n := by
      simp [tokenAt, List.getD_eq_getElem?_getD, List.getElem?_eq_getElem (by omega : n < toks.length)]
    have hin : ¬ (tokenAt toks n < 0 ∨ (width : Int) ≤ tokenAt toks n) := by
      have := hr n (by omega)
      unfold InRange at this; omega
    simp only [scanTokens, hv, if_neg hin, scanPrefix_succ]

theorem scanTokens_all (sel : Sel) (width : Nat) (toks : List (List Byte)) (a : ParseAcc)
    (hr : ∀ t, t < toks.length → InRange toks width t) :
    scanTokens sel width toks 0 a = (scanPrefix sel width toks a toks.length, none) := by
  rw [scanTokens_prefix sel width toks a (Nat.le_refl _) hr, List.drop_length]
  rfl

theorem scanTokens_stop (sel : Sel) (width : Nat) (toks : List (List Byte)) (a : ParseAcc) {n : Nat}
    (hn : n < toks.length) (hr : ∀ t, t < n → InRange toks width t) (hbad : ¬ InRange toks width n) :
    scanTokens sel width toks 0 a = (scanPrefix sel width toks a n, some (tokenAt toks n)) := by
  rw [scanTokens_prefix sel width toks a (by omega) hr, List.drop_eq_getElem_cons hn]
  have hv : tokenValue toks[n] = tokenAt toks n := by
    simp [tokenAt, List.getD_eq_getElem?_getD, List.getElem?_eq_getElem hn]
  have hin : tokenAt toks n < 0 ∨ (width : Int) ≤ tokenAt toks n := by
    unfold InRange at hbad; omega
  simp only [scanTokens, hv, if_pos hin]

/-! ## What the loop carries -/

/-- The accumulator a parse starts with. -/
def scanStart (p : PermFile) : ParseAcc := { perm := p, seen := 0, events := [] }

/-- The seen-index mask has exactly the values of the tokens read (10_state.md R40). -/
theorem scanPrefix_seen (sel : Sel) (width : Nat) (toks : List (List Byte)) (p : PermFile) (n v : Nat)
    (hv : v < 32) (hr : ∀ t, t < n → InRange toks width t) :
    (scanPrefix sel width toks (scanStart p) n).seen.getLsbD v =
      (List.range n).any (fun u => decide (tokenAt toks u = (v : Int))) := by
  induction n with
  | zero => simp [scanPrefix, scanStart]
  | succ n ih =>
    rw [scanPrefix_succ, List.range_succ, List.any_append]
    have hn := hr n (by omega)
    unfold InRange at hn
    simp only [scanToken, BitVec.getLsbD_or, ih fun t ht => hr t (by omega), BitVec.getLsbD_ofNat, List.any_cons,
      List.any_nil, Bool.or_false, hv, decide_true, Bool.true_and]
    congr 1
    rw [Nat.shiftLeft_eq, Nat.one_mul, Nat.testBit_two_pow]
    simp only [decide_eq_decide]; omega

/-- The events logged are the DUP events of the tokens read (40_parser.md R117). -/
theorem scanPrefix_events (sel : Sel) (width : Nat) (toks : List (List Byte)) (p : PermFile) (n : Nat)
    (hw : width ≤ 32) (hr : ∀ t, t < n → InRange toks width t) :
    (scanPrefix sel width toks (scanStart p) n).events = dupEvents sel toks n := by
  induction n with
  | zero => rfl
  | succ n ih =>
    have hn := hr n (by omega)
    unfold InRange at hn
    have hs := scanPrefix_seen sel width toks p n (tokenAt toks n).toNat (by omega) fun t ht => hr t (by omega)
    have hrep : (scanPrefix sel width toks (scanStart p) n).seen.getLsbD (tokenAt toks n).toNat =
        repeatsEarlier toks n := by
      rw [hs]
      unfold repeatsEarlier
      have : ((tokenAt toks n).toNat : Int) = tokenAt toks n := by omega
      rw [this]
    rw [scanPrefix_succ]
    simp only [scanToken, hrep, ih fun t ht => hr t (by omega)]
    unfold dupEvents
    rw [List.range_succ, List.filter_append, List.map_append]
    by_cases h : repeatsEarlier toks n = true <;> simp [h]

/-- Token `t` stands in slot `width - 1 - t`; the slots no token names are as they were (40_parser.md R115). -/
theorem scanPrefix_perm (sel : Sel) (width : Nat) (toks : List (List Byte)) (p : PermFile) (n i : Nat)
    (hw : width ≤ 32) (hn : n ≤ width) (hi : i < 32) (hr : ∀ t, t < n → InRange toks width t) :
    permAt (scanPrefix sel width toks (scanStart p) n).perm i =
      if i < width ∧ width - 1 - i < n then (tokenAt toks (width - 1 - i)).toNat else permAt p i := by
  induction n with
  | zero => simp [scanPrefix, scanStart]
  | succ n ih =>
    have ht := hr n (by omega)
    unfold InRange at ht
    rw [scanPrefix_succ]
    simp only [scanToken]
    rw [permAt_set _ hi (by omega), ih (by omega) fun t ht => hr t (by omega)]
    by_cases h : i = width - 1 - n
    · have h1 : i < width ∧ width - 1 - i < n + 1 := by omega
      have h2 : width - 1 - i = n := by omega
      rw [if_pos h, if_pos h1, h2]
    · rw [if_neg h]
      by_cases h1 : i < width ∧ width - 1 - i < n
      · rw [if_pos h1, if_pos (by omega)]
      · rw [if_neg h1, if_neg (by omega)]

/-- A parse of width `w` logs at most `w - 1` DUP events: its first token never repeats (40_parser.md R117). -/
theorem dupEvents_length (sel : Sel) (toks : List (List Byte)) (n : Nat) :
    (dupEvents sel toks n).length ≤ n - 1 := by
  cases n with
  | zero => simp [dupEvents]
  | succ n =>
    have h0 : repeatsEarlier toks 0 = false := rfl
    have h : (List.range (n + 1)).filter (repeatsEarlier toks) =
        ((List.range n).map Nat.succ).filter (repeatsEarlier toks) := by
      rw [List.range_succ_eq_map, List.filter_cons, h0]; rfl
    simp only [dupEvents, h, List.length_map]
    exact Nat.le_trans (List.length_filter_le _ _) (by simp)

/-! ## STATUS at the end of a command -/

/-- STATUS after a command that logged `es`, once STATE and OUT_VALID are set (10_state.md R25; 60_exceptions.md R204). -/
theorem warnAll_endStatus (es : List DiagEvent) {s : State} (h : s.status = Status.started) (state : RunState)
    (outValid : Bool) :
    { (warnAll es s).status with state := state, outValid := outValid } = endStatus state outValid es := by
  have hw : ∀ k, (warnAll es s).status.warning k = es.any (fun e => decide (e.kind = k)) := fun k => by
    rw [warnAll_warning, h]; cases k <;> rfl
  have h1 := hw .notPow2
  have h2 := hw .notMult
  have h3 := hw .dup
  simp only [Status.warning] at h1 h2 h3
  simp only [endStatus, h1, h2, h3]

/-! ## The ways a parse ends -/

/-- The state a failed parse leaves: its DUP events, no width, a free permutation and its error (40_parser.md R121,
R126). -/
def parseFailure (sel : Sel) (e : ErrRegs) (es : List DiagEvent) (s : State) : State :=
  raiseFatal e.code e.info0 e.info1 e.sel ((warnAll es (s.setPw sel 0)).losePerm sel)

section
variable {sel : Sel} {toks : List (List Byte)} {w : Nat} {e : ErrRegs} {es : List DiagEvent}

/-- A failed parse names the bit type of its permutation (60_exceptions.md R191). -/
theorem ParseError.sel_eq (h : ParseError sel toks w e es) : e.sel = sel := by
  rcases h with ⟨-, -, rfl⟩ | ⟨-, t, -, -, -, -, rfl⟩ <;> rfl

/-- A failed parse ends in COUNT or RANGE by its number of tokens alone (40_parser.md R126). -/
theorem ParseError.code_eq (h : ParseError sel toks w e es) :
    e.code = if toks.length = w then .range else .count := by
  rcases h with ⟨hl, -, rfl⟩ | ⟨hl, t, -, -, -, -, rfl⟩
  · exact (if_neg hl).symm
  · exact (if_pos hl).symm

/-- A failed parse of width `w` logs at most `w - 1` DUP events (10_state.md R37). -/
theorem ParseError.events_length (h : ParseError sel toks w e es) : es.length ≤ w - 1 := by
  rcases h with ⟨-, rfl, -⟩ | ⟨-, t, ht, -, -, rfl, -⟩
  · exact Nat.zero_le _
  · exact Nat.le_trans (dupEvents_length sel toks t) (by omega)

end

/-- A good spec string (40_parser.md R115, R117, R120). -/
theorem parsePermutation_ok {s : State} {sel : Sel} {w : Nat} (hw : w ≤ 32) (h : SpecOk s sel w) :
    ∃ p, PermParsed (s.tokens sel) w (s.perm sel) p ∧
      parsePermutation sel w s =
        .ok () (((warnAll (dupEvents sel (s.tokens sel) w) s).setPerm sel p).setPw sel (BitVec.ofNat 6 w)) := by
  obtain ⟨hlen, hr⟩ := h
  have hlen' : (splitTokens (s.specString sel)).length = w := hlen
  refine ⟨(scanPrefix sel w (s.tokens sel) (scanStart (s.perm sel)) w).perm, ⟨fun t ht => ?_, fun i h1 h2 => ?_⟩, ?_⟩
  · rw [scanPrefix_perm sel w _ _ w _ hw (Nat.le_refl _) (by omega) hr, if_pos (by omega)]
    congr 2; omega
  · rw [scanPrefix_perm sel w _ _ w _ hw (Nat.le_refl _) h2 hr, if_neg (by omega)]
  · have hs := scanTokens_all sel w (s.tokens sel) (scanStart (s.perm sel)) (by rw [hlen]; exact hr)
    rw [hlen] at hs
    have hs' : scanTokens sel w (splitTokens (s.specString sel)) 0 { perm := s.perm sel, seen := 0, events := [] } =
      _ := hs
    simp only [parsePermutation, hlen', ne_eq, not_true_eq_false, ↓reduceIte, hs',
      scanPrefix_events sel w _ _ w hw hr]

/-- The wrong number of tokens (40_parser.md R114, R121). -/
theorem parsePermutation_count {s : State} {sel : Sel} {w : Nat} (h : (s.tokens sel).length ≠ w) :
    parsePermutation sel w s =
      .stop (raiseFatal .count (BitVec.ofNat 32 w) (BitVec.ofNat 32 (s.tokens sel).length) sel
        ((s.setPw sel 0).losePerm sel)) := by
  simp only [parsePermutation, ne_eq, State.tokens] at *
  rw [if_pos h]

/-- The right number of tokens, the first out-of-range one being token `t` (40_parser.md R116, R121). -/
theorem parsePermutation_range {s : State} {sel : Sel} {w t : Nat} (hw : w ≤ 32) (hlen : (s.tokens sel).length = w)
    (ht : t < w) (hr : ∀ u, u < t → InRange (s.tokens sel) w u) (hbad : ¬ InRange (s.tokens sel) w t) :
    parsePermutation sel w s =
      .stop (raiseFatal .range (sat32 (tokenAt (s.tokens sel) t)) (BitVec.ofNat 32 w) sel
        ((warnAll (dupEvents sel (s.tokens sel) t) (s.setPw sel 0)).losePerm sel)) := by
  have hlen' : (splitTokens (s.specString sel)).length = w := hlen
  have hs := scanTokens_stop sel w (s.tokens sel) (scanStart (s.perm sel)) (by omega) hr hbad
  have hs' : scanTokens sel w (splitTokens (s.specString sel)) 0 { perm := s.perm sel, seen := 0, events := [] } =
    _ := hs
  simp only [parsePermutation, hlen', ne_eq, not_true_eq_false, ↓reduceIte, hs',
    scanPrefix_events sel w _ _ t hw hr]

/-- A token list with an out-of-range token has a first one. -/
theorem exists_first_out_of_range {toks : List (List Byte)} {w n : Nat} (h : ¬ ∀ t, t < n → InRange toks w t) :
    ∃ t, t < n ∧ (∀ u, u < t → InRange toks w u) ∧ ¬ InRange toks w t := by
  induction n with
  | zero => exact absurd (fun t ht => absurd ht (Nat.not_lt_zero t)) h
  | succ n ih =>
    by_cases h1 : ∀ t, t < n → InRange toks w t
    · refine ⟨n, Nat.lt_succ_self n, h1, fun h2 => h fun t ht => ?_⟩
      rcases Nat.lt_succ_iff_lt_or_eq.1 ht with h3 | rfl
      · exact h1 t h3
      · exact h2
    · obtain ⟨t, ht, h2⟩ := ih h1
      exact ⟨t, by omega, h2⟩

/-- Everything a parse can do (40_parser.md R126). -/
theorem parsePermutation_cases (s : State) (sel : Sel) {w : Nat} (hw : w ≤ 32) :
    (SpecOk s sel w ∧ ∃ p, PermParsed (s.tokens sel) w (s.perm sel) p ∧
      parsePermutation sel w s =
        .ok () (((warnAll (dupEvents sel (s.tokens sel) w) s).setPerm sel p).setPw sel (BitVec.ofNat 6 w))) ∨
    (¬ SpecOk s sel w ∧ ∃ e es, ParseError sel (s.tokens sel) w e es ∧
      parsePermutation sel w s = .stop (parseFailure sel e es s)) := by
  by_cases hlen : (s.tokens sel).length = w
  · by_cases hr : ∀ t, t < w → InRange (s.tokens sel) w t
    · exact .inl ⟨⟨hlen, hr⟩, parsePermutation_ok hw ⟨hlen, hr⟩⟩
    · obtain ⟨t, ht, h1, h2⟩ := exists_first_out_of_range hr
      exact .inr ⟨fun h => hr h.2, _, _, .inr ⟨hlen, t, ht, h1, h2, rfl, rfl⟩,
        parsePermutation_range hw hlen ht h1 h2⟩
  · exact .inr ⟨fun h => hlen h.1, _, _, .inl ⟨hlen, rfl, rfl⟩, parsePermutation_count hlen⟩

end Sys2Proof.Machine
end

