-- ==== Sys2Proof/Laws/PerInstr.lean ====
section
/-! SUPPORT. What holds of the encoding of every command, one lemma per constructor. -/

namespace Sys2Proof.Laws

/-- The reserved field [31:11] of a well-formed command's word is zero (30_encoding.md R80). -/
def ReservedZero.Statement (i : Instr) : Prop := i.wellFormed = true → cmdReserved (encode i) = 0

/-- The reserved field of a word put together from its fields is zero. -/
theorem cmdReserved_cmdWord (op : BitVec 4) (sel : BitVec 1) (width : BitVec 6) :
    cmdReserved (cmdWord op sel width) = 0 := by
  unfold cmdReserved cmdWord
  refine BitVec.eq_of_getLsbD_eq fun k hk => ?_
  simp only [BitVec.getLsbD_extractLsb', BitVec.getLsbD_append, hk, decide_true, Bool.true_and]
  have h1 : ¬ 11 + k < 4 := by omega
  have h2 : ¬ 11 + k - 4 < 1 := by omega
  have h3 : ¬ 11 + k - 4 - 1 < 6 := by omega
  simp [h1, h2, h3]

theorem ReservedZero.size : ReservedZero.Statement .size := fun _ => cmdReserved_cmdWord _ _ _
theorem ReservedZero.transform : ReservedZero.Statement .transform := fun _ => cmdReserved_cmdWord _ _ _
theorem ReservedZero.parseA (width : Nat) : ReservedZero.Statement (.parseA width) :=
  fun _ => cmdReserved_cmdWord _ _ _
theorem ReservedZero.parseD (width : Nat) : ReservedZero.Statement (.parseD width) :=
  fun _ => cmdReserved_cmdWord _ _ _
theorem ReservedZero.swizzleA : ReservedZero.Statement .swizzleA := fun _ => cmdReserved_cmdWord _ _ _
theorem ReservedZero.swizzleD : ReservedZero.Statement .swizzleD := fun _ => cmdReserved_cmdWord _ _ _
theorem ReservedZero.decode : ReservedZero.Statement .decode := fun _ => cmdReserved_cmdWord _ _ _
theorem ReservedZero.encode : ReservedZero.Statement .encode := fun _ => cmdReserved_cmdWord _ _ _

end Sys2Proof.Laws
end

