-- ==== Sys2Proof/Laws/Swizzle.lean ====
section
/-! SUPPORT. The word swizzler bit by bit. -/

namespace Sys2Proof.Machine

theorem testBit_and_one_shiftLeft (v s j : Nat) :
    (v &&& (1 <<< s)).testBit j = (decide (j = s) && v.testBit s) := by
  rw [Nat.testBit_and, Nat.shiftLeft_eq, Nat.one_mul, Nat.testBit_two_pow]
  by_cases h : s = j
  · subst h; simp
  · simp [h, Ne.symm h]

/-- One iteration puts the source bit at position `i` and nothing anywhere else (41_swizzler.md R141). -/
theorem testBit_swizzleBit (v s i j : Nat) : (swizzleBit v s i).testBit j = (decide (j = i) && v.testBit s) := by
  unfold swizzleBit
  split
  · rw [Nat.testBit_shiftRight, testBit_and_one_shiftLeft]
    congr 1
    simp only [decide_eq_decide]; omega
  · rw [Nat.testBit_shiftLeft, testBit_and_one_shiftLeft]
    by_cases h : j = i
    · subst h
      have h1 : s ≤ j := by omega
      have h2 : j - (j - s) = s := by omega
      simp [h2]
    · by_cases h2 : i - s ≤ j
      · have : ¬ j - (i - s) = s := by omega
        simp [h, this]
      · simp [h, h2]

/-- The accumulator after the first `n` iterations. -/
theorem testBit_swizzleWord (v w j : Nat) (p : PermFile) :
    (swizzleWord v p w).testBit j = (decide (j < w) && v.testBit (permAt p j)) := by
  unfold swizzleWord
  induction w with
  | zero => simp
  | succ w ih =>
    rw [List.range_succ, List.foldl_append]
    simp only [List.foldl_cons, List.foldl_nil, Nat.testBit_or, testBit_swizzleBit, ih]
    by_cases h1 : j = w
    · subst h1; simp
    · by_cases h2 : j < w
      · have h3 : j < w + 1 := by omega
        simp [h1, h2, h3]
      · have h3 : ¬ j < w + 1 := by omega
        simp [h1, h2, h3]

/-- The result fits the width (41_swizzler.md R140). -/
theorem swizzleWord_lt (v w : Nat) (p : PermFile) : swizzleWord v p w < 2 ^ w := by
  refine Nat.lt_pow_two_of_testBit _ fun i hi => ?_
  simp [testBit_swizzleWord, Nat.not_lt.2 hi]

@[simp] theorem swizzleWord_zero (w : Nat) (p : PermFile) : swizzleWord 0 p w = 0 := by
  refine Nat.eq_of_testBit_eq fun i => ?_
  simp [testBit_swizzleWord]

end Sys2Proof.Machine
end

