-- ==== Sys2Proof/Laws/Transform.lean ====
section
/-! SUPPORT. What sizing does, and what the transform loop leaves in OBUF. -/

namespace Sys2Proof.Machine

/-! ## Sizing -/

/-- The address-width check passes exactly on word counts from 2 to 2^33 - 1 (43_transform.md R163). -/
theorem floorLog2_range {n : Nat} (hn : n ≠ 0) : (1 ≤ floorLog2 n ∧ floorLog2 n ≤ 32) ↔ (2 ≤ n ∧ n < 2 ^ 33) := by
  unfold floorLog2
  have h1 : 1 ≤ Nat.log2 n ↔ 2 ^ 1 ≤ n := Nat.le_log2 hn
  have h2 : Nat.log2 n < 33 ↔ n < 2 ^ 33 := Nat.log2_lt hn
  omega

/-- Everything the sizing phase can do (43_transform.md R160, R163, R166). -/
theorem sizingPhase_eq (s : State) :
    sizingPhase s =
      if 1 ≤ s.cfg.bpw.toNat ∧ s.cfg.bpw.toNat ≤ 4 then
        if 2 ≤ s.words ∧ s.words < 2 ^ 33 then
          .ok s.sizing ((warnAll (sizingEvents s.fileSize.toNat s.cfg.bpw.toNat s.cfg.aen) s).setSizing
            s.sizing.ws s.sizing.nab s.sizing.ndb)
        else
          .stop (raiseFatal .addrWidth (if s.words = 0 then 0xFFFFFFFF else BitVec.ofNat 32 (floorLog2 s.words)) 0
            .addr (warnAll (sizingEvents s.fileSize.toNat s.cfg.bpw.toNat s.cfg.aen) s))
      else .stop (raiseFatal .badBpw (s.cfg.bpw.setWidth 32) 0 .addr s) := by
  unfold sizingPhase
  rw [checkBpw_eq]
  split
  · simp only [andThen_ok, sizeImage]
    have hwords : paddedSize s.fileSize.toNat s.cfg.bpw.toNat s.cfg.aen / s.cfg.bpw.toNat = s.words := rfl
    rw [hwords]
    by_cases h0 : s.words = 0
    · have : ¬ (2 ≤ s.words ∧ s.words < 2 ^ 33) := by omega
      rw [if_pos h0, if_neg this, if_pos h0]
    · have hr := floorLog2_range h0
      rw [if_neg h0]
      by_cases h1 : 2 ≤ s.words ∧ s.words < 2 ^ 33
      · have : ¬ (floorLog2 s.words < 1 ∨ 32 < floorLog2 s.words) := by
          have := hr.2 h1; omega
        rw [if_neg this, if_pos h1]; rfl
      · have : floorLog2 s.words < 1 ∨ 32 < floorLog2 s.words := by
          have := mt hr.1 h1; omega
        rw [if_pos this, if_neg h1, if_neg h0]
  · rfl

/-- Sizing gives an address width from 1 to 32 (00_scope.md R3). -/
theorem sizing_nab {s : State} (h : SizingOk s) : 1 ≤ s.sizing.nab ∧ s.sizing.nab ≤ 32 := by
  obtain ⟨-, h1, h2⟩ := h
  exact (floorLog2_range (n := s.words) (by omega)).2 ⟨h1, h2⟩

/-- Sizing gives a data width of at most 32 (00_scope.md R2). -/
theorem sizing_ndb {s : State} (h : SizingOk s) : s.sizing.ndb ≤ 32 := by
  have := h.1.2
  show 8 * s.cfg.bpw.toNat ≤ 32
  omega

/-- Padding to a multiple of the word size gives one (43_transform.md R162). -/
theorem paddedSize_mod (n : Nat) {bpw : Nat} (aen : Bool) : paddedSize n bpw aen % bpw = 0 := by
  simp only [paddedSize]
  split
  · simp [ceilMult]
  · omega

/-- The working size is the word count times the word size. -/
theorem sizing_ws_eq (s : State) : s.sizing.ws = s.words * s.cfg.bpw.toNat := by
  have := paddedSize_mod s.fileSize.toNat (bpw := s.cfg.bpw.toNat) s.cfg.aen
  exact (Nat.div_mul_cancel (Nat.dvd_of_mod_eq_zero this)).symm

/-- The working size of a successful sizing (43_transform.md R165). -/
theorem sizing_ws_lt {s : State} (h : SizingOk s) : s.sizing.ws < 2 ^ 35 := by
  obtain ⟨⟨-, h1⟩, -, h2⟩ := h
  rw [sizing_ws_eq]
  have h3 : s.words * s.cfg.bpw.toNat ≤ s.words * 4 := Nat.mul_le_mul_left _ h1
  have h4 : s.words * 4 < 2 ^ 33 * 4 := Nat.mul_lt_mul_of_pos_right h2 (by decide)
  exact Nat.lt_of_le_of_lt h3 (Nat.lt_of_lt_of_le h4 (by decide))

/-- The address width of a successful sizing covers no more than the words there are (43_transform.md R178). -/
theorem two_pow_nab_le {s : State} (h : SizingOk s) : 2 ^ s.sizing.nab ≤ s.words :=
  Nat.log2_self_le (n := s.words) (by have := h.2.1; omega)

/-! ## The words of the output -/

@[simp] theorem encodeWord_length (w n : Nat) (big : Bool) : (encodeWord w n big).length = n := by
  simp [encodeWord]

/-- A destination is a whole number of words (43_transform.md R178). -/
theorem outAddr_mul (s : State) (z : Sizing) {bpw i : Nat} (hb : 1 ≤ bpw) :
    outAddr s z bpw (i * bpw) = (if s.cfg.aen then swizzleWord i s.aperm z.nab else i) * bpw := by
  unfold outAddr
  split
  · rw [Nat.mul_div_cancel _ hb, Nat.mul_comm]
  · rfl

/-- The loop's effect on one byte: the last word whose destination covers it, else what was there. The words are
those at positions below `n`. -/
theorem read_outputLoop (s : State) (z : Sizing) {bpw : Nat} (hb : 1 ≤ bpw) (m : Memory) (n : Nat) :
    (∀ i j, i < n → j < bpw →
      (∀ i', i < i' → i' < n → outAddr s z bpw (i' * bpw) ≠ outAddr s z bpw (i * bpw)) →
      Memory.read (((List.range n).map (fun i => i * bpw)).foldl (storeWord s z bpw) m)
        (outAddr s z bpw (i * bpw) + j) =
        some ((encodeWord (outWord s z bpw (i * bpw)) bpw s.cfg.big).getD j 0)) ∧
    (∀ k, (∀ i, i < n → ¬ (outAddr s z bpw (i * bpw) ≤ k ∧ k < outAddr s z bpw (i * bpw) + bpw)) →
      Memory.read (((List.range n).map (fun i => i * bpw)).foldl (storeWord s z bpw) m) k = m.read k) := by
  induction n with
  | zero => exact ⟨fun i j hi => absurd hi (Nat.not_lt_zero i), fun k _ => rfl⟩
  | succ n ih =>
    have hstep : ∀ k, Memory.read (((List.range (n + 1)).map (fun i => i * bpw)).foldl (storeWord s z bpw) m) k =
        if h : outAddr s z bpw (n * bpw) ≤ k ∧ k - outAddr s z bpw (n * bpw) < bpw then
          some ((encodeWord (outWord s z bpw (n * bpw)) bpw s.cfg.big).getD (k - outAddr s z bpw (n * bpw)) 0)
        else Memory.read (((List.range n).map (fun i => i * bpw)).foldl (storeWord s z bpw) m) k := by
      intro k
      rw [List.range_succ, List.map_append, List.foldl_append]
      simp only [List.map_cons, List.map_nil, List.foldl_cons, List.foldl_nil, storeWord]
      rw [read_writeBytes]
      simp only [encodeWord_length]
      by_cases hc : outAddr s z bpw (n * bpw) ≤ k ∧ k - outAddr s z bpw (n * bpw) < bpw
      · rw [dif_pos hc, dif_pos hc]
        simp [List.getD_eq_getElem?_getD, hc.2]
      · rw [dif_neg hc, dif_neg hc]
    refine ⟨fun i j hi hj hlast => ?_, fun k hk => ?_⟩
    · rw [hstep]
      by_cases hin : i = n
      · subst hin
        rw [dif_pos (by omega)]
        congr 2; omega
      · have hne := hlast n (by omega) (by omega)
        have : ¬ (outAddr s z bpw (n * bpw) ≤ outAddr s z bpw (i * bpw) + j ∧
            outAddr s z bpw (i * bpw) + j - outAddr s z bpw (n * bpw) < bpw) := by
          rw [outAddr_mul s z hb, outAddr_mul s z hb] at *
          generalize (if s.cfg.aen then swizzleWord n s.aperm z.nab else n) = a at *
          generalize (if s.cfg.aen then swizzleWord i s.aperm z.nab else i) = b at *
          rcases Nat.lt_trichotomy a b with h | h | h
          · have : (a + 1) * bpw ≤ b * bpw := Nat.mul_le_mul_right _ h
            rw [Nat.add_mul, Nat.one_mul] at this
            omega
          · subst h; exact absurd rfl hne
          · have : (b + 1) * bpw ≤ a * bpw := Nat.mul_le_mul_right _ h
            rw [Nat.add_mul, Nat.one_mul] at this
            omega
        rw [dif_neg this]
        exact ih.1 i j (by omega) hj fun i' h1 h2 => hlast i' h1 (by omega)
    · rw [hstep, dif_neg (by have := hk n (by omega); omega)]
      exact ih.2 k fun i hi => hk i (by omega)

/-- The loop keeps the canonical form. -/
theorem wf_outputImage (s : State) (z : Sizing) (bpw : Nat) (h : s.obuf.wf) : (outputImage s z bpw).wf := by
  unfold outputImage
  generalize (List.range (z.ws / bpw)).map (fun i => i * bpw) = ps
  have h0 := wf_zeroFill h z.ws
  generalize s.obuf.zeroFill z.ws = m at *
  induction ps generalizing m with
  | nil => exact h0
  | cons p ps ih => exact ih _ (wf_writeBytes h0 _ _)

end Sys2Proof.Machine
end

