-- ==== Sys2Proof/Laws/Phases.lean ====
section
/-! SUPPORT. Everything a TRANSFORM can do, phase by phase. -/

namespace Sys2Proof.Machine

/-! ## One parse -/

/-- The state a successful parse leaves (40_parser.md R120). -/
def parsed (sel : Sel) (w : Nat) (p : PermFile) (toks : List (List Byte)) (s : State) : State :=
  ((warnAll (dupEvents sel toks w) s).setPerm sel p).setPw sel (BitVec.ofNat 6 w)

/-- The same for a permutation that may not be enabled (43_transform.md R168). -/
def parsedIf (en : Bool) (sel : Sel) (w : Nat) (p : PermFile) (toks : List (List Byte)) (s : State) : State :=
  if en then parsed sel w p toks s else s

/-- Everything the parse of a permutation inside a TRANSFORM can do. -/
theorem parseIf_cases (en : Bool) {s : State} {sel : Sel} {w : Nat} (hw : w ≤ 32) :
    ((en = true → SpecOk s sel w) ∧ ∃ p, (en = true → PermParsed (s.tokens sel) w (s.perm sel) p) ∧
      parseIf en sel w s = .ok () (parsedIf en sel w p (s.tokens sel) s)) ∨
    (en = true ∧ ¬ SpecOk s sel w ∧ ∃ e es, ParseError sel (s.tokens sel) w e es ∧
      parseIf en sel w s = .stop (parseFailure sel e es s)) := by
  cases en with
  | false => exact .inl ⟨nofun, s.perm sel, nofun, rfl⟩
  | true =>
    rcases parsePermutation_cases s sel hw with ⟨h, p, hp, he⟩ | ⟨h, hf⟩
    · exact .inl ⟨fun _ => h, p, fun _ => hp, he⟩
    · exact .inr ⟨rfl, h, hf⟩

/-! ## What the phases leave alone -/

theorem specString_congr {s t : State} (h1 : t.aspec = s.aspec) (h2 : t.dspec = s.dspec) (h3 : t.aspecLen = s.aspecLen)
    (h4 : t.dspecLen = s.dspecLen) (h5 : t.memDraw = s.memDraw) (sel : Sel) : t.specString sel = s.specString sel := by
  cases sel <;> simp [State.specString, State.bytes, State.byte, State.mem, specSpace, State.specLen, *]

theorem tokens_congr {s t : State} (h1 : t.aspec = s.aspec) (h2 : t.dspec = s.dspec) (h3 : t.aspecLen = s.aspecLen)
    (h4 : t.dspecLen = s.dspecLen) (h5 : t.memDraw = s.memDraw) (sel : Sel) : t.tokens sel = s.tokens sel := by
  unfold State.tokens
  rw [specString_congr h1 h2 h3 h4 h5]

/-- The state a successful sizing leaves (43_transform.md R163). -/
def sized (s : State) : State :=
  (warnAll (sizingEvents s.fileSize.toNat s.cfg.bpw.toNat s.cfg.aen) s).setSizing s.sizing.ws s.sizing.nab s.sizing.ndb

/-- A parse leaves alone every field that its three operations leave alone. -/
theorem parsedIf_field {α : Type} (f : State → α) (en : Bool) (sel : Sel) (w : Nat) (p : PermFile)
    (toks : List (List Byte)) (s : State) (h : ∀ s e, f (warn e s) = f s) (h2 : ∀ s, f (s.setPerm sel p) = f s)
    (h3 : ∀ s w, f (s.setPw sel w) = f s) : f (parsedIf en sel w p toks s) = f s := by
  unfold parsedIf parsed
  split
  · rw [h3, h2]
    generalize dupEvents sel toks w = es
    induction es generalizing s with
    | nil => rfl
    | cons e es ih => rw [warnAll_cons, ih, h]
  · rfl

/-- Everything a TRANSFORM can do, up to its capacity check (43_transform.md R169; 60_exceptions.md R199). -/
theorem transformBody_cases (s : State) :
    (¬ BpwLegal s ∧ transformBody s = .stop (raiseFatal .badBpw (s.cfg.bpw.setWidth 32) 0 .addr s)) ∨
    (BpwLegal s ∧ ¬ SizingOk s ∧ transformBody s = .stop (raiseFatal .addrWidth
      (if s.words = 0 then 0xFFFFFFFF else BitVec.ofNat 32 (floorLog2 s.words)) 0 .addr
      (warnAll (sizingEvents s.fileSize.toNat s.cfg.bpw.toNat s.cfg.aen) s))) ∨
    (SizingOk s ∧ s.cfg.aen = true ∧ ¬ SpecOk s .addr s.sizing.nab ∧ ∃ e es,
      ParseError .addr (s.tokens .addr) s.sizing.nab e es ∧
      transformBody s = .stop (parseFailure .addr e es (sized s))) ∨
    (SizingOk s ∧ (s.cfg.aen = true → SpecOk s .addr s.sizing.nab) ∧ ∃ pa,
      (s.cfg.aen = true → PermParsed (s.tokens .addr) s.sizing.nab s.aperm pa) ∧
      ((s.cfg.den = true ∧ ¬ SpecOk s .data s.sizing.ndb ∧ ∃ e es,
        ParseError .data (s.tokens .data) s.sizing.ndb e es ∧
        transformBody s = .stop (parseFailure .data e es
          (parsedIf s.cfg.aen .addr s.sizing.nab pa (s.tokens .addr) (sized s)))) ∨
       ((s.cfg.den = true → SpecOk s .data s.sizing.ndb) ∧ ∃ pd,
        (s.cfg.den = true → PermParsed (s.tokens .data) s.sizing.ndb s.dperm pd) ∧
        transformBody s = outputPhase s.sizing
          (parsedIf s.cfg.den .data s.sizing.ndb pd (s.tokens .data)
            (parsedIf s.cfg.aen .addr s.sizing.nab pa (s.tokens .addr) (sized s)))))) := by
  unfold transformBody
  rw [sizingPhase_eq]
  by_cases hb : 1 ≤ s.cfg.bpw.toNat ∧ s.cfg.bpw.toNat ≤ 4
  · rw [if_pos hb]
    by_cases hw : 2 ≤ s.words ∧ s.words < 2 ^ 33
    · right; right
      have hs : SizingOk s := ⟨hb, hw⟩
      have hn := sizing_nab hs
      rw [if_pos hw]
      show (_ ∧ _ ∧ _ ∧ ∃ e es, _ ∧ (parseIf (sized s).cfg.aen .addr s.sizing.nab (sized s)).andThen _ = _) ∨ _
      have htok : ∀ sel, (sized s).tokens sel = s.tokens sel :=
        tokens_congr (by simp [sized]) (by simp [sized]) (by simp [sized]) (by simp [sized]) (by simp [sized])
      have hspec : ∀ sel w, SpecOk (sized s) sel w ↔ SpecOk s sel w := fun sel w => by unfold SpecOk; rw [htok]
      have haen : (sized s).cfg = s.cfg := by simp [sized]
      have hap : (sized s).perm .addr = s.aperm := by simp [sized, State.perm]
      have hc := parseIf_cases s.cfg.aen (s := sized s) (sel := .addr) hn.2
      rw [hspec, htok, hap] at hc
      rcases hc with ⟨h1, pa, h2, h3⟩ | ⟨h1, h2, e, es, h3, h4⟩
      · right
        refine ⟨hs, h1, pa, h2, ?_⟩
        have hd1 : (parsedIf s.cfg.aen .addr s.sizing.nab pa (s.tokens .addr) (sized s)).cfg = s.cfg := by
          rw [parsedIf_field State.cfg] <;> simp [sized]
        have hd2 : ∀ sel,
            (parsedIf s.cfg.aen .addr s.sizing.nab pa (s.tokens .addr) (sized s)).tokens sel = s.tokens sel := by
          refine tokens_congr ?_ ?_ ?_ ?_ ?_
          · rw [parsedIf_field State.aspec] <;> simp [sized]
          · rw [parsedIf_field State.dspec] <;> simp [sized]
          · rw [parsedIf_field State.aspecLen] <;> simp [sized]
          · rw [parsedIf_field State.dspecLen] <;> simp [sized]
          · rw [parsedIf_field State.memDraw] <;> simp [sized]
        have hd3 : (parsedIf s.cfg.aen .addr s.sizing.nab pa (s.tokens .addr) (sized s)).perm .data = s.dperm := by
          show State.dperm _ = _
          rw [parsedIf_field State.dperm] <;> simp [sized, State.setPerm, State.setPw]
        have hds : ∀ sel w,
            SpecOk (parsedIf s.cfg.aen .addr s.sizing.nab pa (s.tokens .addr) (sized s)) sel w ↔ SpecOk s sel w :=
          fun sel w => by unfold SpecOk; rw [hd2]
        have hc := parseIf_cases s.cfg.den
          (s := parsedIf s.cfg.aen .addr s.sizing.nab pa (s.tokens .addr) (sized s)) (sel := .data)
          (sizing_ndb hs)
        rw [hds, hd2, hd3] at hc
        rcases hc with ⟨h4, pd, h5, h6⟩ | ⟨h4, h5, e, es, h6, h7⟩
        · right
          refine ⟨h4, pd, h5, ?_⟩
          show (parseIf (sized s).cfg.aen .addr s.sizing.nab (sized s)).andThen _ = _
          rw [haen, h3, andThen_ok, hd1, h6, andThen_ok]
        · left
          refine ⟨h4, h5, e, es, h6, ?_⟩
          show (parseIf (sized s).cfg.aen .addr s.sizing.nab (sized s)).andThen _ = _
          rw [haen, h3, andThen_ok, hd1, h7, andThen_stop]
      · left
        exact ⟨hs, h1, h2, e, es, h3, by rw [haen, h4]; rfl⟩
    · right; left
      exact ⟨hb, fun h => hw h.2, by rw [if_neg hw]; rfl⟩
  · left; exact ⟨hb, by rw [if_neg hb]; rfl⟩
end Sys2Proof.Machine
end

