-- ==== Sys2Proof/Tests/Slice0.lean ====
section
/-! SUPPORT. The model's own tests. Every expected value is from the spec: the words are written out from
30_encoding.md R80 to R87, and the runs from 95_test_vectors.md. After them, for every statement with hypotheses, a
state and operands that meet them together. -/

namespace Sys2Proof.Tests

open Sys2Proof Sys2Proof.Machine

/-! ## Helpers -/

/-- Reset, then CFG, an input image with its FILE_SIZE, and the two spec strings, as the host writes them. -/
def load (cfg : Word) (input aspec dspec : List Byte) : State :=
  { State.reset with
    cfg := Cfg.ofWord cfg
    fileSize := BitVec.ofNat 64 input.length
    ibuf := Memory.writeBytes [] 0 input
    aspec := Memory.writeBytes [] 0 aspec
    aspecLen := BitVec.ofNat 16 aspec.length
    dspec := Memory.writeBytes [] 0 dspec
    dspecLen := BitVec.ofNat 16 dspec.length }

/-- The next state of an outcome, or the state it started from. -/
def nextOr (s : State) (o : Host.Outcome State Fault Refusal) : State :=
  match o with
  | .next t => t
  | .fault _ => s
  | .refused _ => s

/-- Whether an outcome is a next state. -/
def isNext (o : Host.Outcome State Fault Refusal) : Bool :=
  match o with
  | .next _ => true
  | .fault _ => false
  | .refused _ => false

theorem eq_nextOr {s : State} {o : Host.Outcome State Fault Refusal} (h : isNext o = true) : o = .next (nextOr s o) := by
  cases o <;> simp_all [isNext, nextOr]

/-- The next state a command answers. -/
def after (i : Instr) (s : State) : State := nextOr s (exec i s)

/-- Whether a command answers a next state. -/
def runs (i : Instr) (s : State) : Bool := isNext (exec i s)

theorem exec_eq_after {i : Instr} {s : State} (h : runs i s = true) : exec i s = .next (after i s) := eq_nextOr h

/-- The next state of one step. -/
def stepped (s : State) : State := nextOr s (step s)

/-- STATUS and the three error registers, as the host reads them. -/
def outcome (s : State) : Word × Word × Word × Word :=
  (Reg.status.read s, Reg.errCode.read s, Reg.errInfo0.read s, Reg.errInfo1.read s)

/-- The spec string "0,1,2,3,4,5,6,7". -/
def rev8 : List Byte :=
  [0x30, 0x2C, 0x31, 0x2C, 0x32, 0x2C, 0x33, 0x2C, 0x34, 0x2C, 0x35, 0x2C, 0x36, 0x2C, 0x37]

/-- The bytes 01 to 08. -/
def eight : List Byte := [1, 2, 3, 4, 5, 6, 7, 8]

/-! ## WellFormed refuses ill-formed commands -/

theorem test_wellFormed_parseA : Instr.wellFormed (.parseA 63) = true ∧ Instr.wellFormed (.parseA 64) = false := by
  decide
theorem test_wellFormed_parseD : Instr.wellFormed (.parseD 63) = true ∧ Instr.wellFormed (.parseD 64) = false := by
  decide

/-! ## Decoding, bit by bit: reserved [31:11], WIDTH [10:5], SEL [4], OP [3:0] -/

theorem test_decode_size : decode 0b000000000000000000000_000000_0_0001#32 = .cmd .size := by decide
theorem test_decode_transform : decode 0b000000000000000000000_000000_0_0010#32 = .cmd .transform := by decide
theorem test_decode_parseA : decode 0b000000000000000000000_100110_0_0011#32 = .cmd (.parseA 38) := by decide
theorem test_decode_parseD : decode 0b000000000000000000000_011001_1_0011#32 = .cmd (.parseD 25) := by decide
theorem test_decode_swizzleA : decode 0b000000000000000000000_000000_0_0100#32 = .cmd .swizzleA := by decide
theorem test_decode_swizzleD : decode 0b000000000000000000000_000000_1_0100#32 = .cmd .swizzleD := by decide
theorem test_decode_decode : decode 0b000000000000000000000_000000_0_0101#32 = .cmd .decode := by decide
theorem test_decode_encode : decode 0b000000000000000000000_000000_0_0110#32 = .cmd .encode := by decide

/-- The illegal words of 95_test_vectors.md section 2.1. -/
theorem test_decode_illegal :
    ([0x00, 0x07, 0x08, 0x0F, 0x11, 0x12, 0x15, 0x16, 0x21, 0x22, 0x24, 0x800, 0x80000103, 0xFFFFFFFF] : List Word).all
      (fun c => match decode c with | .cmd _ => false | .badCmd _ => true) = true := by decide

/-! ## One command each (95_test_vectors.md sections 2.1 to 2.7) -/

/-- Section 2.5: 5 bytes, BPW 2, no address permutation. -/
theorem test_size_mult :
    let t := after .size (load 0x20 [1, 2, 3, 4, 5] [] [])
    t.diag = [{ kind := .notMult, sel := .addr, info0 := 5, info1 := 0 }] ∧ t.workingSize = 6 ∧
      Reg.bits.read t = 0x1001 ∧ Reg.status.read t = 0x12 := by decide

/-- Section 2.5: the empty image without an address permutation. -/
theorem test_size_no_words : outcome (after .size (load 0x10 [] [] [])) = (0x3, 0x5, 0xFFFFFFFF, 0) := by decide

/-- T17: duplicates in both specs. -/
theorem test_transform_dup :
    let t := after .transform (load 0x13 eight [0x31, 0x2C, 0x31, 0x2C, 0x30]
      [0x37, 0x2C, 0x37, 0x2C, 0x35, 0x2C, 0x34, 0x2C, 0x33, 0x2C, 0x32, 0x2C, 0x31, 0x2C, 0x30])
    t.bytes .obuf 0 8 = [5, 6, 0, 0, 0, 0, 7, 8] ∧ Reg.status.read t = 0x26 ∧ Reg.pw.read t = 0x803 := by decide

/-- T8: word-index aliasing with BPW 3. -/
theorem test_transform_aliasing :
    let t := after .transform (load 0x31 eight [0x30] [])
    t.bytes .obuf 0 9 = [7, 8, 0, 4, 5, 6, 0, 0, 0] ∧ Reg.status.read t = 0x16 ∧ Reg.pw.read t = 0x1 := by decide

/-- Section 2.2: "3x,2,1,0" reads 3, 2, 1, 0. -/
theorem test_parseA_trailing :
    let t := after (.parseA 4) (load 0x10 [] [0x33, 0x78, 0x2C, 0x32, 0x2C, 0x31, 0x2C, 0x30] [])
    [0, 1, 2, 3].map (permAt t.aperm) = [0, 1, 2, 3] ∧ Reg.pw.read t = 0x4 ∧ Reg.status.read t = 0x2 := by decide

/-- Section 2.2: "1,0," has three tokens. -/
theorem test_parseA_count :
    outcome (after (.parseA 2) (load 0x10 [] [0x31, 0x2C, 0x30, 0x2C] [])) = (0x3, 0x006, 2, 3) := by decide

/-- Section 2.2: bit reversal fills the slots from the last one down. -/
theorem test_parseD_slots :
    let t := after (.parseD 8) (load 0x10 [] [] rev8)
    [0, 1, 2, 3, 4, 5, 6, 7].map (permAt t.dperm) = [7, 6, 5, 4, 3, 2, 1, 0] ∧ Reg.pw.read t = 0x800 := by decide

/-- Section 2.2: "-1,6,5,4,3,2,1,0" is out of range, the bad index in two's complement. -/
theorem test_parseD_range :
    outcome (after (.parseD 8) (load 0x10 [] []
      [0x2D, 0x31, 0x2C, 0x36, 0x2C, 0x35, 0x2C, 0x34, 0x2C, 0x33, 0x2C, 0x32, 0x2C, 0x31, 0x2C, 0x30])) =
      (0x3, 0x107, 0xFFFFFFFF, 8) := by decide

/-- 41_swizzler.md R145: APERM from "0,1", OPERAND 1 gives 2. -/
theorem test_swizzleA :
    (after .swizzleA { after (.parseA 2) (load 0x10 [] [0x30, 0x2C, 0x31] []) with operand := 1 }).result = 2 := by
  decide

/-- Section 2.1: SWIZZLE.A from reset. -/
theorem test_swizzleA_noPerm : outcome (after .swizzleA State.reset) = (0x3, 0x004, 0, 0) := by decide

/-- Section 2.3: reversal of 8 bits ignores bit 8 of OPERAND. -/
theorem test_swizzleD :
    let s := after (.parseD 8) (load 0x10 [] [] rev8)
    (after .swizzleD { s with operand := 0x12 }).result = 0x48 ∧
      (after .swizzleD { s with operand := 0x1FF }).result = 0xFF := by decide

/-- Section 2.1: SWIZZLE.D from reset. -/
theorem test_swizzleD_noPerm : outcome (after .swizzleD State.reset) = (0x3, 0x104, 0, 0) := by decide

/-- Section 2.4: three bytes, big-endian. -/
theorem test_decode_big3 :
    (after .decode { load 0x34 [] [] [] with operand := 0xDEADBEEF }).result = 0xEFBEAD := by decide

/-- Section 2.4: an illegal BPW. -/
theorem test_decode_badBpw : outcome (after .decode (load 0x50 [] [] [])) = (0x3, 0x002, 5, 0) := by decide

/-- Section 2.4: two bytes, big-endian; the bits above are dropped. -/
theorem test_encode_big2 :
    (after .encode { load 0x24 [] [] [] with operand := 0xDEADBEEF }).result = 0xEFBE := by decide

/-- Section 2.4: four bytes, little-endian. -/
theorem test_encode_little4 :
    (after .encode { load 0x40 [] [] [] with operand := 0xDEADBEEF }).result = 0xDEADBEEF := by decide

/-- Section 2.1: PARSE.A 63 as the first command after reset, from its table word. -/
theorem test_step_first_command :
    outcome (stepped (State.reset.withFetchWord 32 0x7E3)) = (0x3, 0x003, 0x3F, 0) := by decide

/-! ## Witnesses: states and operands that meet the hypotheses of each statement -/

/-- A loaded state in STATE = DONE. -/
def doneState : State := after .size (load 0x10 eight [] [])

/-- A loaded state in STATE = BUSY, which no step of this model leaves behind. -/
def busyState : State := { doneState with status := Status.started }

/-- A machine with small spaces: BUF_BYTES 8 and SPEC_BYTES 4. -/
def small (s : State) : State := { s with params := { bufBytes := 8, specBytes := 4 } }

/-- Permutation register files: identity, rotate left by one within 3 bits, and its inverse. -/
def idPerm : PermFile := Vector.ofFn (fun i : Fin 32 => BitVec.ofNat 5 i.val)
def rotPerm : PermFile := Vector.ofFn (fun i : Fin 32 => if i.val = 0 then 2 else BitVec.ofNat 5 (i.val - 1))
def rotInverse : PermFile := Vector.ofFn (fun i : Fin 32 => if i.val = 2 then 0 else BitVec.ofNat 5 (i.val + 1))

/-- The spec string of width 32 "0,1,...,31". -/
def rev32 : List Byte := reversalSpec 32

theorem specOk_of {s : State} {sel : Sel} {w : Nat}
    (h : (s.tokens sel).length = w ∧
      ∀ t, t < w → 0 ≤ tokenAt (s.tokens sel) t ∧ tokenAt (s.tokens sel) t < (w : Int)) : SpecOk s sel w := h

theorem witness_ResetFromEveryState :
    (hostAccess .reset doneState = .next (resetEngine doneState) ∧ doneState.status.state ≠ .idle ∧
      (resetEngine doneState).status.state = .idle) ∧
    State.bus { busyState with bus := [.reset] } = .reset :: [] :=
  ⟨⟨rfl, by decide, rfl⟩, rfl⟩

theorem witness_StepRunsTheDecodedCommand :
    (State.bus { doneState with bus := [.regWrite 0x000 4 0x7E3] } = .regWrite 0x000 4 0x7E3 :: [] ∧
      doneState.status.state ≠ .busy ∧ decode 0x7E3 = .cmd (.parseA 63)) ∧
    Instr.wellFormed (.parseD 63) = true ∧ State.reset.bus = [] := by decide

theorem witness_AccessWhileBusyIsRefused :
    busyState.status.state = .busy ∧ Access.regRead 0x004 4 ≠ .reset ∧
    Access.regRead 0x004 2 ≠ .regRead 0x004 4 ∧ Access.regRead 0x004 2 ≠ .reset ∧
    State.bus { busyState with bus := [.regRead 0x004 4] } = .regRead 0x004 4 :: [] := by decide

theorem witness_AccessesOutsideTheByteSpaces :
    (small doneState).status.state ≠ .busy ∧ (small doneState).params.size .ibuf ≤ 8 ∧
    (small doneState).params.size .dspec ≤ 4 := by decide

theorem witness_HostWrittenByteIsReadBack :
    (small doneState).status.state ≠ .busy ∧ Space.dspec ≠ .obuf ∧ 3 < (small doneState).params.size .dspec ∧
    (Space.ibuf, 3) ≠ (Space.dspec, 3) := by decide

theorem witness_RegisterAccessesOutsideTheMap :
    doneState.status.state ≠ .busy ∧ Reg.ofOffset 0x044 = none ∧ Reg.ofOffset 0x600 = none ∧
    Reg.status ∉ [Reg.cmd, .cfg, .fileSizeLo, .fileSizeHi, .operand, .aspecLen, .dspecLen] ∧
    (0x003 % 4 ≠ 0 ∨ 4 ≠ 4) ∧ (0x000 % 4 ≠ 0 ∨ 2 ≠ 4) := by decide

/-- A full log: its last entry is DIAG[63]. -/
theorem witness_PackedRegisterFields :
    (State.diag { doneState with diag := List.replicate 64 (dupEvent .data 7 1) })[(63 : Fin 64).val]? =
      some (dupEvent .data 7 1) := by decide

theorem witness_HostWritesOfOperandAndFileSize : doneState.status.state ≠ .busy := by decide

theorem witness_SpecLengthWritesAreClamped : doneState.status.state ≠ .busy ∧ Sel.addr ≠ .data := by decide

theorem witness_PseudoInstructionsFillTheOperands :
    (small doneState).status.state ≠ .busy ∧ (small doneState).params.wf ∧
    [0x31, 0x2C, 0x30, 0x20, 0x20].length < 65536 ∧ 2 ^ 64 - 1 < 2 ^ 64 := by decide

theorem witness_DiagRegistersReadTheLog :
    (List.replicate 64 (dupEvent .data 7 1)).length ≤ 64 ∧
    (List.replicate 64 (dupEvent .data 7 1))[63]? = some (dupEvent .data 7 1) ∧
    (List.replicate 63 (dupEvent .data 7 1)).length ≤ 63 := by decide

theorem witness_LegalWordsAreExactlyTheEncodings :
    Instr.wellFormed (.parseA 63) = true ∧ decode 0x7F3 = .cmd (.parseD 63) := by decide

theorem witness_IllegalWordsRaiseBadCmd :
    doneState.status.state ≠ .busy ∧ decode 0x24 = .badCmd .widthNotZero ∧ decode 0x11 = .badCmd .selNotZero ∧
    decode 0x7 = .badCmd .reservedOp ∧ decode 0x800 = .badCmd .reservedBits := by decide

/-- Blanks "  ", digits "12", rest "x"; and no digits at all before the rest. -/
theorem witness_TokenValueReadsSignedDecimal :
    (∀ b ∈ [(0x20 : Byte), 0x09], b ∈ [(0x20 : Byte), 0x09, 0x0A, 0x0B, 0x0C, 0x0D]) ∧
    (∀ b ∈ [(0x30 : Byte), 0x39], 0x30 ≤ b.toNat ∧ b.toNat ≤ 0x39) ∧ [(0x30 : Byte), 0x39] ≠ [] ∧
    (∀ b, [(0x78 : Byte)].head? = some b → ¬ (0x30 ≤ b.toNat ∧ b.toNat ≤ 0x39)) ∧
    (∀ b, [(0x78 : Byte)].head? = some b → b ∉ [(0x20 : Byte), 0x09, 0x0A, 0x0B, 0x0C, 0x0D, 0x2B, 0x2D]) := by
  refine ⟨by decide, by decide, by decide, ?_, ?_⟩ <;> (intro b hb; cases hb; decide)

theorem witness_ParseOfGoodSpec :
    SpecOk (load 0x10 [] [0x78] []) .addr 1 ∧ SpecOk (load 0x10 [] [] rev32) .data 32 :=
  ⟨specOk_of (by decide), specOk_of (by decide)⟩

theorem witness_ParseCountMismatch :
    ((load 0x10 [] [0x2C] []).tokens .addr).length ≠ 1 ∧ ((load 0x10 [] [] rev8).tokens .data).length ≠ 32 := by
  decide

/-- "1" against 1 stops at token 0, "1,0,3" against 3 at the last token. -/
theorem witness_ParseRangeError :
    (((load 0x10 [] [0x31] []).tokens .addr).length = 1 ∧
      ¬ InRange ((load 0x10 [] [0x31] []).tokens .addr) 1 0) ∧
    ((load 0x10 [] [] [0x31, 0x2C, 0x30, 0x2C, 0x33]).tokens .data).length = 3 ∧
    (∀ u, u < 2 → InRange ((load 0x10 [] [] [0x31, 0x2C, 0x30, 0x2C, 0x33]).tokens .data) 3 u) ∧
    ¬ InRange ((load 0x10 [] [] [0x31, 0x2C, 0x30, 0x2C, 0x33]).tokens .data) 3 2 := by
  unfold InRange; decide

theorem witness_ParseBadWidth : (0 = 0 ∨ 32 < 0) ∧ (33 = 0 ∨ 32 < 33) := by decide

theorem witness_ParseReadsOnlyItsSpecString :
    State.specString { load 0x10 [] [0x30] [] with aspec := [(0, 0x30), (1, 0x39)], dspec := [(5, 7)] } .addr =
      (load 0x10 [] [0x30] []).specString .addr ∧
    exec (parseCmd .addr 1) (load 0x10 [] [0x30] []) = .next (after (.parseA 1) (load 0x10 [] [0x30] [])) :=
  ⟨by decide, exec_eq_after (by decide)⟩

theorem witness_SpelledPermutationParsesBack :
    (∀ n ∈ [2, 2, 0], n < [2, 2, 0].length) ∧
    (load 0x10 [] [0x32, 0x2C, 0x32, 0x2C, 0x30] []).specString .addr = specText [2, 2, 0] ∧
    (load 0x10 [] [] rev32).specString .data = specText (List.range 32) := by decide

theorem witness_CanonicalSpellings :
    (load 0x10 [] [0x30] []).specString .addr = identitySpec 1 ∧
    (load 0x10 [] (identitySpec 32) []).specString .addr = identitySpec 32 ∧
    (load 0x10 [] [] rev8).specString .data = reversalSpec 8 := by decide

theorem witness_SwizzleLaws :
    IsBijection rotPerm 3 ∧ (∀ i, i < 3 → permAt rotInverse (permAt rotPerm i) = i) ∧ 7 < 2 ^ 3 ∧
    (∀ i, i < 32 → permAt idPerm i = i) ∧ (∀ i, i < 32 → permAt idPerm i < 32) := by
  refine ⟨⟨by decide, fun i j hi hj => ?_⟩, by decide, by decide, by decide, by decide⟩
  exact (by decide : ∀ i, i < 3 → ∀ j, j < 3 → permAt rotPerm i = permAt rotPerm j → i = j) i hi j hj

theorem witness_SwizzleResult :
    let s := { State.reset with apw := 1, dpw := 32, dperm := idPerm }
    (1 ≤ (s.pw .addr).toNat ∧ (s.pw .addr).toNat ≤ 32) ∧ 1 ≤ (s.pw .data).toNat ∧ (s.pw .data).toNat ≤ 32 := by decide

theorem witness_SwizzleWidthChecks :
    State.reset.pw .addr = 0 ∧ 32 < (State.pw { State.reset with dpw := 33 } .data).toNat := by decide

theorem witness_DecodeAndEncodeResult : BpwLegal (load 0x10 [] [] []) ∧ BpwLegal (load 0x44 [] [] []) := by
  unfold BpwLegal; decide

theorem witness_CodecInverts :
    [(0x12 : Byte), 0x34, 0x56, 0xFF].length = 4 ∧ [(0xFF : Byte)].length = 1 ∧ 2 ^ 32 - 1 < 2 ^ (8 * 4) ∧
    255 < 256 := by decide

theorem witness_IllegalBpwIsStoredAndRaisesBadBpw :
    doneState.status.state ≠ .busy ∧ (load 0x00 [] [] []).cfg.bpw.toNat ∈ [0, 5, 6, 7] ∧
    (load 0x70 [] [] []).cfg.bpw.toNat ∈ [0, 5, 6, 7] ∧ Instr.encode ∈ [Instr.size, .transform, .decode, .encode] := by
  decide

theorem witness_SizingNotation : 1 ≤ 1 ∧ 0 ≤ 2 ^ 0 ∧ 5 ≤ 6 ∧ 6 % 3 = 0 := by decide

/-- AEN with 3 bytes, which is no power of two, and with 4 bytes, which is one. -/
theorem witness_PaddingAndItsWarnings :
    ¬ (∃ k, 3 = 2 ^ k) ∧ ¬ (true = true ∧ ¬ ∃ k, 4 = 2 ^ k) := by
  refine ⟨fun ⟨k, hk⟩ => ?_, fun h => h.2 ⟨2, rfl⟩⟩
  match k, hk with
  | 0, h => exact absurd h (by decide)
  | 1, h => exact absurd h (by decide)
  | k + 2, h => rw [Nat.pow_add] at h; omega

theorem witness_SizingBounds :
    SizingOk (load 0x10 [1, 2] [] []) ∧
    (SizingOk (load 0x21 eight [] []) ∧ (load 0x21 eight [] []).cfg.aen = true ∧
      (load 0x21 eight [] []).cfg.bpw.toNat ≠ 3) := by
  unfold SizingOk BpwLegal; decide

theorem witness_SizeResult :
    SizingOk { load 0x10 [] [] [] with fileSize := 2 } ∧
    SizingOk { load 0x10 [] [] [] with fileSize := 0x1FFFFFFFF } := by
  unfold SizingOk BpwLegal; decide

theorem witness_AddressWidthError :
    BpwLegal (load 0x10 [] [] []) ∧ (load 0x10 [] [] []).words < 2 ∧ (load 0x40 [1, 2, 3, 4] [] []).words < 2 ∧
    2 ^ 33 ≤ State.words { load 0x10 [] [] [] with fileSize := 0x200000000 } := by
  unfold BpwLegal; decide

/-- T17 and T33: both permutations, and none. -/
def t17 : State := load 0x13 eight [0x31, 0x2C, 0x31, 0x2C, 0x30]
  [0x37, 0x2C, 0x37, 0x2C, 0x35, 0x2C, 0x34, 0x2C, 0x33, 0x2C, 0x32, 0x2C, 0x31, 0x2C, 0x30]
def t33 : State := load 0x10 [1, 2, 3] [] []

/-- T8: word-index aliasing. -/
def t8 : State := load 0x31 eight [0x30] []

theorem ready_of {s : State} (h : ((1 ≤ s.cfg.bpw.toNat ∧ s.cfg.bpw.toNat ≤ 4) ∧ 2 ≤ s.words ∧ s.words < 2 ^ 33) ∧
    ((s.cfg.aen = true → (s.tokens .addr).length = s.sizing.nab ∧
        ∀ t, t < s.sizing.nab → 0 ≤ tokenAt (s.tokens .addr) t ∧ tokenAt (s.tokens .addr) t < (s.sizing.nab : Int)) ∧
      (s.cfg.den = true → (s.tokens .data).length = s.sizing.ndb ∧
        ∀ t, t < s.sizing.ndb → 0 ≤ tokenAt (s.tokens .data) t ∧
          tokenAt (s.tokens .data) t < (s.sizing.ndb : Int))) ∧
    s.sizing.ws ≤ s.params.bufBytes) : TransformReady s := h

theorem witness_TransformRegisters : TransformReady t17 ∧ TransformReady t33 :=
  ⟨ready_of (by decide), ready_of (by decide)⟩

/-- In T8 word 2 has a destination no later word has, byte 6 is reached by no word, and byte 9 lies beyond the output. -/
theorem witness_TransformOutputBytes :
    TransformReady t8 ∧ exec .transform t8 = .next (after .transform t8) ∧
    (2 < t8.words ∧ 2 < t8.cfg.bpw.toNat ∧ ∀ i', i' < t8.words → 2 < i' → False) ∧
    (6 < t8.sizing.ws ∧ ∀ i, i < t8.words → ¬ (outAddr (after .transform t8) t8.sizing 3 (i * 3) ≤ 6 ∧
      6 < outAddr (after .transform t8) t8.sizing 3 (i * 3) + 3)) ∧ t8.sizing.ws ≤ 9 :=
  ⟨ready_of (by decide), exec_eq_after (by decide), by decide, by decide, by decide⟩

theorem witness_EveryWriteLiesInsideTheOutput : SizingOk t8 ∧ 2 < t8.words := by unfold SizingOk BpwLegal; decide

theorem witness_BijectiveAddressPermutationIsOneToOne :
    let s := { load 0x11 eight [] [] with aperm := rotPerm }
    SizingOk s ∧ s.cfg.aen = true ∧ IsBijection s.aperm s.sizing.nab ∧ s.words = 2 ^ s.sizing.nab ∧ 7 < s.words :=
  ⟨by unfold SizingOk BpwLegal; decide, rfl, witness_SwizzleLaws.1, by decide, by decide⟩

theorem witness_TransformWithoutPermutationsCopies :
    TransformReady t33 ∧ t33.cfg.aen = false ∧ t33.cfg.den = false ∧
    exec .transform t33 = .next (after .transform t33) ∧ 2 < t33.sizing.ws :=
  ⟨ready_of (by decide), rfl, rfl, exec_eq_after (by decide), by decide⟩

theorem witness_TransformReversesEveryByte :
    let s := load 0x12 eight [] rev8
    TransformReady s ∧ s.cfg.aen = false ∧ s.cfg.den = true ∧ s.cfg.bpw = 1 ∧
    s.specString .data = reversalSpec 8 ∧ exec .transform s = .next (after .transform s) ∧ 7 < s.fileSize.toNat :=
  ⟨ready_of (by decide), rfl, rfl, rfl, by decide, exec_eq_after (by decide), by decide⟩

/-- Section 2.7: 9 bytes do not fit BUF_BYTES = 8, without a permutation; and T17 with BUF_BYTES = 4, with both. -/
def alloc9 : State := small (load 0x10 [1, 2, 3, 4, 5, 6, 7, 8, 9] [] [])

def alloc17 : State := { t17 with params := { bufBytes := 4, specBytes := 64 } }

theorem witness_TransformBeyondCapacity :
    (SizingOk alloc9 ∧ SpecsOk alloc9 ∧ alloc9.params.bufBytes < alloc9.sizing.ws ∧ alloc9.cfg.aen = false ∧
      alloc9.cfg.den = false) ∧
    SizingOk alloc17 ∧ SpecsOk alloc17 ∧ alloc17.params.bufBytes < alloc17.sizing.ws ∧ alloc17.cfg.aen = true ∧
      alloc17.cfg.den = true := by
  unfold SizingOk BpwLegal SpecsOk SpecOk InRange; decide

/-- T16, RANGE of the address spec, and T15, COUNT of the data spec after a good address spec. -/
def t16 : State := load 0x11 eight [0x30, 0x2C, 0x31, 0x2C, 0x33] []
def t15 : State := load 0x13 eight [0x30, 0x2C, 0x31, 0x2C, 0x32] [0x30, 0x2C, 0x31, 0x2C, 0x32]

/-- The data spec "8,6,5,4,3,2,1,0", out of range at once, with no address permutation. -/
def dataRange : State :=
  load 0x12 eight [] [0x38, 0x2C, 0x36, 0x2C, 0x35, 0x2C, 0x34, 0x2C, 0x33, 0x2C, 0x32, 0x2C, 0x31, 0x2C, 0x30]

theorem witness_TransformSpecErrorsInOrder :
    (SizingOk t16 ∧ t16.cfg.aen = true ∧ ¬ SpecOk t16 .addr t16.sizing.nab) ∧
    (SizingOk t15 ∧ (t15.cfg.aen = true → SpecOk t15 .addr t15.sizing.nab) ∧ t15.cfg.den = true ∧
      ¬ SpecOk t15 .data t15.sizing.ndb ∧ t15.cfg.aen = true) ∧
    SizingOk dataRange ∧ (dataRange.cfg.aen = true → SpecOk dataRange .addr dataRange.sizing.nab) ∧
      dataRange.cfg.den = true ∧ ¬ SpecOk dataRange .data dataRange.sizing.ndb ∧ dataRange.cfg.aen = false := by
  unfold SizingOk BpwLegal SpecOk InRange; decide

theorem witness_FailedTransformKeepsEarlierWork :
    (runs .transform (load 0x00 eight [] []) ∧
      (after .transform (load 0x00 eight [] [])).status.state = .error ∧
      (after .transform (load 0x00 eight [] [])).err.code = .badBpw) ∧
    (runs .transform (load 0x10 [] [] []) ∧ (after .transform (load 0x10 [] [] [])).status.state = .error ∧
      (after .transform (load 0x10 [] [] [])).err.code = .addrWidth) ∧
    (runs .transform t16 ∧ (after .transform t16).status.state = .error ∧ (after .transform t16).err.code = .range ∧
      (after .transform t16).err.sel = .addr) ∧
    (runs .transform t15 ∧ (after .transform t15).status.state = .error ∧ (after .transform t15).err.code = .count ∧
      (after .transform t15).err.sel = .data) ∧
    (runs .transform alloc9 ∧ (after .transform alloc9).status.state = .error ∧
      (after .transform alloc9).err.code = .alloc ∧ alloc9.cfg.aen = false ∧ alloc9.cfg.den = false) ∧
    runs .transform alloc17 ∧ (after .transform alloc17).status.state = .error ∧
      (after .transform alloc17).err.code = .alloc ∧ alloc17.cfg.aen = true ∧ alloc17.cfg.den = true := by decide

theorem witness_TransformIgnoresEarlierParses :
    let s' := { t17 with apw := 32, dpw := 1, aperm := idPerm, dperm := rotPerm }
    exec .transform t17 = .next (after .transform t17) ∧ exec .transform s' = .next (after .transform s') :=
  ⟨exec_eq_after (by decide), exec_eq_after (by decide)⟩

theorem witness_EveryCommandEndsDoneOrError :
    exec .size t8 = .next (after .size t8) ∧ exec .swizzleD t8 = .next (after .swizzleD t8) :=
  ⟨exec_eq_after (by decide), exec_eq_after (by decide)⟩

theorem witness_FatalErrorLeavesOutputBuffer :
    exec .transform t16 = .next (after .transform t16) ∧ (after .transform t16).status.state = .error :=
  ⟨exec_eq_after (by decide), by decide⟩

theorem witness_OnlyTransformWritesOutput :
    (exec .transform t8 = .next (after .transform t8) ∧ (after .transform t8).status.outValid = true) ∧
    exec .size t8 = .next (after .size t8) ∧ (after .size t8).status.outValid = false :=
  ⟨⟨exec_eq_after (by decide), by decide⟩, exec_eq_after (by decide), by decide⟩

theorem witness_OnlyParsesWritePermutations :
    exec .transform t17 = .next (after .transform t17) ∧ (after .transform t17).aperm ≠ t17.aperm ∧
    (after .transform t17).dpw ≠ t17.dpw :=
  ⟨exec_eq_after (by decide), by decide, by decide⟩

theorem witness_CommandsLeaveTheHostSide :
    exec .transform t17 = .next (after .transform t17) ∧ (after .transform t17).status.outValid = true ∧
    7 < (after .transform t17).workingSize.toNat :=
  ⟨exec_eq_after (by decide), by decide, by decide⟩

theorem witness_RegisterCommandFrames :
    (Instr.decode ∈ [Instr.swizzleA, .swizzleD, .decode, .encode] ∧
      exec .decode (load 0x50 [] [] []) = .next (after .decode (load 0x50 [] [] [])) ∧
      (after .decode (load 0x50 [] [] [])).status.state = .error) ∧ exec .size t8 = .next (after .size t8) :=
  ⟨⟨by decide, exec_eq_after (by decide), by decide⟩, exec_eq_after (by decide)⟩

theorem witness_ParseFrame :
    exec (parseCmd .addr 63) t17 = .next (after (.parseA 63) t17) ∧
    exec (parseCmd .data 8) t17 = .next (after (.parseD 8) t17) :=
  ⟨exec_eq_after (by decide), exec_eq_after (by decide)⟩

theorem witness_TransformFrame :
    exec .transform t8 = .next (after .transform t8) ∧ (after .transform t8).status.state = .done ∧
    (after .transform t8).workingSize.toNat ≤ 9 :=
  ⟨exec_eq_after (by decide), by decide, by decide⟩

theorem witness_InputBeyondFileSizeIsNeverRead :
    (∀ k, k < t8.fileSize.toNat → State.byte { t8 with ibuf := t8.ibuf.write 8 0xAA } .ibuf k = t8.byte .ibuf k) ∧
    exec .transform t8 = .next (after .transform t8) :=
  ⟨by decide, exec_eq_after (by decide)⟩

/-- A state after a command that stored an output, with the TRANSFORM command written again. -/
def invState : State := (after .transform t17).withFetchWord 32 0x00000002

theorem invState_inv : invState.Inv where
  params := by decide
  notBusy := by decide
  outValid := by decide
  errIff := by decide
  errClear := by decide
  warnings := fun k => by cases k <;> decide
  diagLen := by decide
  apwLe := by decide
  dpwLe := by decide
  apermBelow := by unfold PermBelow; decide
  dpermBelow := by unfold PermBelow; decide
  workingSizeLt := by decide
  nabLe := by decide
  ndbOk := by decide
  outFits := by decide
  aspecLenLe := by decide
  dspecLenLe := by decide
  ibufOk := by unfold MemOk; decide
  obufOk := by unfold MemOk; decide
  aspecOk := by unfold MemOk; decide
  dspecOk := by unfold MemOk; decide
  drawn := by decide

theorem witness_EveryStepKeepsTheInvariant : invState.Inv ∧ step invState = .next (stepped invState) :=
  ⟨invState_inv, eq_nextOr (by decide)⟩

theorem witness_NothingIsRefusedUnderTheInvariant : invState.Inv := invState_inv

theorem witness_CommandLineWithoutPermutationsCopies :
    let v : Invocation := { addr := none, data := none, word := some 2, big := true, input := [1, 2, 3] }
    v.legal = true ∧ v.addr = none ∧ v.data = none ∧
    2 * v.bytesPerWord ≤ paddedSize v.input.length v.bytesPerWord false ∧
    paddedSize v.input.length v.bytesPerWord false ≤ invState.params.bufBytes ∧
    paddedSize v.input.length v.bytesPerWord false < 2 ^ 33 ∧ invState.Inv :=
  ⟨by decide, rfl, rfl, by decide, by decide, by decide, invState_inv⟩

end Sys2Proof.Tests
end

/-! SUPPORT. What the host's register accesses do while STATE is not BUSY, and the statements about them. -/

namespace Sys2Proof.Machine

/-! ## The register map -/

/-- The register map lists each register at its own offset (10_state.md section 2). -/
@[simp] theorem ofOffset_offset (r : Reg) : Reg.ofOffset r.offset = some r := by
  cases r with
  | aperm i => revert i; decide
  | dperm i => revert i; decide
  | diagEvent j => revert j; decide
  | diagInfo0 j => revert j; decide
  | diagInfo1 j => revert j; decide
  | _ => rfl

theorem ofOffset_of_misaligned {off : Nat} (h : off % 4 ≠ 0) : Reg.ofOffset off = none := by
  simp [Reg.ofOffset, h]

/-! ## Register reads -/

theorem regRead_offset (r : Reg) (s : State) : regRead r.offset 4 s = r.read s := by simp [regRead]

/-- An access at an unlisted offset, or of another width, reads 0 (10_state.md R23; 20_memory.md R72). -/
theorem regRead_of_noRegister {off nbytes : Nat} (h : Reg.ofOffset off = none ∨ nbytes ≠ 4) (s : State) :
    regRead off nbytes s = 0 := by
  rcases h with h | h <;> simp [regRead, h]

/-! ## Register writes -/

theorem regWrite_offset {r : Reg} (h : r ≠ .cmd) (v : Word) (s : State) :
    regWrite r.offset 4 v s = .next (r.write v s) := by simp [regWrite, h]

/-- An access at an unlisted offset, or of another width, writes nothing (10_state.md R23; 20_memory.md R72). -/
theorem regWrite_of_noRegister {off nbytes : Nat} (h : Reg.ofOffset off = none ∨ nbytes ≠ 4) (v : Word) (s : State) :
    regWrite off nbytes v s = .next s := by
  rcases h with h | h <;> simp [regWrite, h]

/-- A register the host may not write ignores a write (10_state.md R23). -/
theorem write_of_readOnly {r : Reg}
    (h : r ∉ [Reg.cmd, .cfg, .fileSizeLo, .fileSizeHi, .operand, .aspecLen, .dspecLen]) (v : Word) (s : State) :
    r.write v s = s := by
  cases r with
  | cfg | fileSizeLo | fileSizeHi | operand | aspecLen | dspecLen => simp at h
  | _ => rfl

/-- What the clamp of a spec length leaves: `min(v[15:0], SPEC_BYTES)` fits the 16-bit field (10_state.md R35). -/
theorem storedLen_toNat (p : Params) (v : Word) : (storedLen p v).toNat = min (v.toNat % 65536) p.specBytes := by
  simp only [storedLen, BitVec.extractLsb'_toNat, BitVec.toNat_ofNat, Nat.shiftRight_zero]
  omega

/-! ## The spec lengths by selector -/

theorem wrsLen_ne_cmd (sel : Sel) : wrsLen sel ≠ .cmd := by cases sel <;> decide

/-- The register of a spec length reads the length of its selector. -/
theorem wrsLen_read_toNat (sel : Sel) (s : State) : ((wrsLen sel).read s).toNat = s.specLen sel := by
  cases sel <;> exact BitVec.toNat_setWidth_of_le (by decide)

theorem specLen_write_same (sel : Sel) (v : Word) (s : State) :
    ((wrsLen sel).write v s).specLen sel = min (v.toNat % 65536) s.params.specBytes := by
  cases sel <;> exact storedLen_toNat s.params v

theorem specLen_write_other {sel sel' : Sel} (h : sel' ≠ sel) (v : Word) (s : State) :
    ((wrsLen sel).write v s).specLen sel' = s.specLen sel' := by
  cases sel with
  | addr => cases sel' with
    | addr => exact absurd rfl h
    | data => rfl
  | data => cases sel' with
    | addr => rfl
    | data => exact absurd rfl h

/-- A write of a spec length leaves every field but the two lengths. -/
theorem write_wrsLen_frame (sel : Sel) (v : Word) (s : State) :
    (wrsLen sel).write v s =
      { s with aspecLen := ((wrsLen sel).write v s).aspecLen, dspecLen := ((wrsLen sel).write v s).dspecLen } := by
  cases sel <;> rfl

/-! ## Host accesses to registers -/

section
variable {s : State} (h : s.status.state ≠ .busy)
include h

theorem hostAccess_regRead (off nbytes : Nat) :
    hostAccess (.regRead off nbytes) s = .next { s with rdata := regRead off nbytes s } := by
  simp [hostAccess, h]

theorem hostAccess_regWrite (off nbytes : Nat) (v : Word) :
    hostAccess (.regWrite off nbytes v) s = regWrite off nbytes v s := by
  simp [hostAccess, h]

/-- A read of a whole listed register. -/
theorem hostAccess_read (r : Reg) : hostAccess (.regRead r.offset 4) s = .next { s with rdata := r.read s } := by
  rw [hostAccess_regRead h, regRead_offset]

/-- A write of a whole listed register other than CMD. -/
theorem hostAccess_write {r : Reg} (hr : r ≠ .cmd) (v : Word) :
    hostAccess (.regWrite r.offset 4 v) s = .next (r.write v s) := by
  rw [hostAccess_regWrite h, regWrite_offset hr]

theorem hostAccess_read_noRegister {off nbytes : Nat} (hno : Reg.ofOffset off = none ∨ nbytes ≠ 4) :
    hostAccess (.regRead off nbytes) s = .next { s with rdata := 0 } := by
  rw [hostAccess_regRead h, regRead_of_noRegister hno]

theorem hostAccess_write_noRegister {off nbytes : Nat} (hno : Reg.ofOffset off = none ∨ nbytes ≠ 4) (v : Word) :
    hostAccess (.regWrite off nbytes v) s = .next s := by
  rw [hostAccess_regWrite h, regWrite_of_noRegister hno]

end

/-! ## The statements -/

/-- Settles O7: a whole listed register answers for itself; every other access finds no register and does nothing. -/
theorem registerAccessesOutsideTheMap : Obligations.RegisterAccessesOutsideTheMap := by
  intro s v hs
  refine ⟨hostAccess_read hs, fun off hoff => ?_, fun r hr => ?_, hostAccess_read hs .cmd, fun off nbytes hbad => ?_⟩
  · exact ⟨hostAccess_read_noRegister hs (.inl hoff), hostAccess_write_noRegister hs (.inl hoff) v⟩
  · have hcmd : r ≠ .cmd := fun h => hr (h ▸ List.mem_cons_self)
    rw [hostAccess_write hs hcmd, write_of_readOnly hr]
  · have hno : Reg.ofOffset off = none ∨ nbytes ≠ 4 := hbad.imp_left ofOffset_of_misaligned
    exact ⟨hostAccess_write_noRegister hs hno v, hostAccess_read_noRegister hs hno⟩

/-- Settles O10: the access is the length register's own write, which stores the clamped length of its selector. -/
theorem specLengthWritesAreClamped : Obligations.SpecLengthWritesAreClamped := by
  intro s sel v hs
  have hlen := specLen_write_same sel v s
  exact ⟨(wrsLen sel).write v s, hostAccess_write hs (wrsLen_ne_cmd sel) v, hlen, (wrsLen_read_toNat sel _).trans hlen,
    write_wrsLen_frame sel v s, fun _ hne => specLen_write_other hne v s⟩

end Sys2Proof.Machine

/-! SUPPORT. How the four commands that use BPW end when it is illegal, and the statement about CFG. -/

namespace Sys2Proof.Machine

/-- The four BPW values outside 1 to 4 are illegal (10_state.md R29). -/
theorem not_bpwLegal_of_mem {s : State} (h : s.cfg.bpw.toNat ∈ [0, 5, 6, 7]) : ¬ BpwLegal s := by
  unfold BpwLegal
  simp only [List.mem_cons, List.not_mem_nil, or_false] at h
  omega

theorem checkBpw_of_illegal {s : State} (h : ¬ BpwLegal s) :
    checkBpw s = .stop (raiseFatal .badBpw (s.cfg.bpw.setWidth 32) 0 .addr s) :=
  (checkBpw_eq s).trans (if_neg h)

theorem sizingPhase_of_illegalBpw {s : State} (h : ¬ BpwLegal s) :
    sizingPhase s = .stop (raiseFatal .badBpw (s.cfg.bpw.setWidth 32) 0 .addr s) :=
  (sizingPhase_eq s).trans (if_neg h)

/-- The BPW check is the first thing each of these commands does, and the command start leaves CFG alone, so an
illegal BPW ends the command before any other effect. -/
theorem exec_of_illegalBpw {s : State} {i : Instr} (h : ¬ BpwLegal s)
    (hi : i ∈ [Instr.size, .transform, .decode, .encode]) :
    exec i s = .next (raiseFatal .badBpw (s.cfg.bpw.setWidth 32) 0 .addr (commandStart s)) := by
  have hstart : ¬ BpwLegal (commandStart s) := h
  cases i with
  | size => exact runCommand_of_stop (by rw [sizeBody, sizingPhase_of_illegalBpw hstart]; rfl)
  | transform => exact runCommand_of_stop (by rw [transformBody, sizingPhase_of_illegalBpw hstart]; rfl)
  | decode => exact runCommand_of_stop (by rw [decodeBody, checkBpw_of_illegal hstart]; rfl)
  | encode => exact runCommand_of_stop (by rw [encodeBody, checkBpw_of_illegal hstart]; rfl)
  | parseA | parseD | swizzleA | swizzleD => simp at hi

/-- Settles O30: the write of CFG is the register's own write, and each of the four commands stops at its BPW check. -/
theorem illegalBpwIsStoredAndRaisesBadBpw : Obligations.IllegalBpwIsStoredAndRaisesBadBpw := by
  refine ⟨fun s v hs => hostAccess_write (r := .cfg) hs (by decide) v, fun s i hbpw hi => ?_⟩
  rw [exec_of_illegalBpw (not_bpwLegal_of_mem hbpw) hi, BitVec.ofNat_toNat]
  rfl

end Sys2Proof.Machine

/-! SUPPORT. What a command keeps, and what it cannot see: two runs of one command from states that differ in the
contents of IBUF and OBUF alone (20_memory.md R62, R63). -/

namespace Sys2Proof.Machine

/-! ## Parts of a state -/

/-- The host's part of a state: the fields and spaces no command writes (10_state.md R30, R31, R33, R35; 20_memory.md
R62). Every other field holds its reset value. -/
def State.hostSide (s : State) : State :=
  { State.reset with
    params := s.params, cfg := s.cfg, fileSize := s.fileSize, operand := s.operand
    aspecLen := s.aspecLen, dspecLen := s.dspecLen, ibuf := s.ibuf, aspec := s.aspec, dspec := s.dspec
    memDraw := s.memDraw, bus := s.bus, rdata := s.rdata }

/-- What a command keeps until it stores its output: the host's part, OBUF and OUT_VALID (43_transform.md R181). -/
def State.beforeOutput (s : State) : State :=
  { s.hostSide with obuf := s.obuf, status := { Status.started with outValid := s.status.outValid } }

@[simp] theorem beforeOutput_warnAll (es : List DiagEvent) (s : State) :
    (warnAll es s).beforeOutput = s.beforeOutput := by simp [State.beforeOutput, State.hostSide]
@[simp] theorem beforeOutput_setPw (s : State) (sel : Sel) (w : BitVec 6) :
    (s.setPw sel w).beforeOutput = s.beforeOutput := by cases sel <;> rfl
@[simp] theorem beforeOutput_setPerm (s : State) (sel : Sel) (p : PermFile) :
    (s.setPerm sel p).beforeOutput = s.beforeOutput := by cases sel <;> rfl
@[simp] theorem beforeOutput_losePerm (s : State) (sel : Sel) :
    (s.losePerm sel).beforeOutput = s.beforeOutput := by cases sel <;> rfl
@[simp] theorem beforeOutput_setSizing (s : State) (ws nab ndb : Nat) :
    (s.setSizing ws nab ndb).beforeOutput = s.beforeOutput := rfl
@[simp] theorem beforeOutput_raiseFatal (c : ErrCode) (i0 i1 : Word) (sel : Sel) (s : State) :
    (raiseFatal c i0 i1 sel s).beforeOutput = s.beforeOutput := rfl

/-- An equal host's part is what the statements call the same host side. -/
theorem sameHostSide_of_hostSide {s t : State} (h : t.hostSide = s.hostSide) : SameHostSide s t := by
  have field {α : Type} (f : State → α) : f t.hostSide = f s.hostSide := congrArg f h
  refine ⟨field State.params, field State.cfg, field State.fileSize, field State.operand, field State.aspecLen,
    field State.dspecLen, field State.bus, field State.rdata, fun sp k hsp => ?_⟩
  refine byte_congr (s := s) (t := t) ?_ (field State.memDraw) k
  cases sp with
  | ibuf => exact field State.ibuf
  | obuf => exact absurd rfl hsp
  | aspec => exact field State.aspec
  | dspec => exact field State.dspec

/-! ## Other contents of the two buffers -/

/-- `s` with other contents of IBUF and OBUF. -/
def State.withBuffers (s : State) (mi mo : Memory) : State := { s with ibuf := mi, obuf := mo }

@[simp] theorem warnAll_withBuffers (es : List DiagEvent) (s : State) (mi mo : Memory) :
    warnAll es (s.withBuffers mi mo) = (warnAll es s).withBuffers mi mo := by
  induction es generalizing s with
  | nil => rfl
  | cons e es ih => exact ih (warn e s)

@[simp] theorem setPw_withBuffers (s : State) (mi mo : Memory) (sel : Sel) (w : BitVec 6) :
    (s.withBuffers mi mo).setPw sel w = (s.setPw sel w).withBuffers mi mo := by cases sel <;> rfl
@[simp] theorem setPerm_withBuffers (s : State) (mi mo : Memory) (sel : Sel) (p : PermFile) :
    (s.withBuffers mi mo).setPerm sel p = (s.setPerm sel p).withBuffers mi mo := by cases sel <;> rfl
@[simp] theorem losePerm_withBuffers (s : State) (mi mo : Memory) (sel : Sel) :
    (s.withBuffers mi mo).losePerm sel = (s.losePerm sel).withBuffers mi mo := by cases sel <;> rfl
@[simp] theorem raiseFatal_withBuffers (c : ErrCode) (i0 i1 : Word) (sel : Sel) (s : State) (mi mo : Memory) :
    raiseFatal c i0 i1 sel (s.withBuffers mi mo) = (raiseFatal c i0 i1 sel s).withBuffers mi mo := rfl

@[simp] theorem specString_withBuffers (s : State) (mi mo : Memory) (sel : Sel) :
    (s.withBuffers mi mo).specString sel = s.specString sel :=
  specString_congr (s := s) (t := s.withBuffers mi mo) rfl rfl rfl rfl rfl sel
@[simp] theorem perm_withBuffers (s : State) (mi mo : Memory) (sel : Sel) :
    (s.withBuffers mi mo).perm sel = s.perm sel := by cases sel <;> rfl
@[simp] theorem pw_withBuffers (s : State) (mi mo : Memory) (sel : Sel) :
    (s.withBuffers mi mo).pw sel = s.pw sel := by cases sel <;> rfl

/-! ## Two runs of one phase -/

/-- Two runs of a phase end the same way, with the same value, in related states. -/
def Res.Rel {α : Type} (R : State → State → Prop) : Res α → Res α → Prop
  | .ok a s, .ok b t => a = b ∧ R s t
  | .stop s, .stop t => R s t
  | .refuse r, .refuse r' => r = r'
  | _, _ => False

section
variable {α β : Type} {R R' : State → State → Prop}

theorem Res.Rel.mono {x y : Res α} (h : x.Rel R y) (hR : ∀ s t, R s t → R' s t) : x.Rel R' y := by
  cases x <;> cases y
  case ok.ok a s b t => exact ⟨h.1, hR s t h.2⟩
  case stop.stop s t => exact hR s t h
  all_goals exact h

theorem Res.Rel.andThen {x y : Res α} {f g : α → State → Res β} (h : x.Rel R y) (hR : ∀ s t, R s t → R' s t)
    (hf : ∀ a s t, R s t → (f a s).Rel R' (g a t)) : (x.andThen f).Rel R' (y.andThen g) := by
  cases x <;> cases y
  case ok.ok a s b t =>
    obtain ⟨rfl, hst⟩ := h
    exact hf a s t hst
  case stop.stop s t => exact hR s t h
  case refuse.refuse r r' => exact h
  all_goals exact h.elim

/-- Two runs of a command whose bodies are related: when the first answers a state, so does the second. -/
theorem runCommand_rel {body : State → Res Unit} {s s' t : State}
    (hb : (body (commandStart s)).Rel R (body (commandStart s')))
    (hd : ∀ u v, R u v → R (commandDone u) (commandDone v)) (h : runCommand body s = .next t) :
    ∃ t', runCommand body s' = .next t' ∧ R t t' := by
  unfold runCommand at *
  generalize body (commandStart s) = x at *
  generalize body (commandStart s') = y at *
  cases x <;> cases y
  case ok.ok a u b v =>
    cases h
    exact ⟨_, rfl, hd u v hb.2⟩
  case stop.stop u v =>
    cases h
    exact ⟨v, rfl, hb⟩
  case refuse.refuse r r' => cases h
  all_goals exact hb.elim

end

/-! ## Before the output -/

/-- Two runs inside a command, before any output: the second state is the first with its buffers holding `mi` and `mo`,
the first still holds the part `q` that is kept until the output, and WORKING_SIZE is `ws`. -/
structure InStep (q : State) (ws : BitVec 64) (mi mo : Memory) (s t : State) : Prop where
  other : t = s.withBuffers mi mo
  kept : s.beforeOutput = q
  size : s.workingSize = ws

/-- A phase that neither sees nor changes the buffers, and keeps the host's part, WORKING_SIZE and OUT_VALID. -/
def Blind {α : Type} (phase : State → Res α) : Prop :=
  ∀ ⦃q ws mi mo s t⦄, InStep q ws mi mo s t → (phase s).Rel (InStep q ws mi mo) (phase t)

theorem Blind.andThen {α β : Type} {x : State → Res α} {f : α → State → Res β} (hx : Blind x)
    (hf : ∀ a, Blind (f a)) : Blind (fun s => (x s).andThen f) :=
  fun _ _ _ _ _ _ h => (hx h).andThen (fun _ _ h => h) fun a _ _ h => hf a h

theorem blind_checkBpw : Blind checkBpw := by
  rintro q ws mi mo s t ⟨rfl, rfl, rfl⟩
  unfold checkBpw
  by_cases hb : s.cfg.bpwLegal = true
  · rw [if_pos hb, if_pos (by exact hb)]
    exact ⟨rfl, rfl, rfl, rfl⟩
  · rw [if_neg hb, if_neg (by exact hb)]
    exact ⟨rfl, rfl, rfl⟩

/-- A result computed from OPERAND and CFG. -/
theorem blind_setResult (v : Word → Cfg → Word) :
    Blind (fun s => .ok () (s.setResult (v s.operand s.cfg))) := by
  rintro q ws mi mo s t ⟨rfl, rfl, rfl⟩
  exact ⟨rfl, rfl, rfl, rfl⟩

theorem blind_decodeBody : Blind decodeBody :=
  blind_checkBpw.andThen fun n =>
    blind_setResult fun v c => BitVec.ofNat 32 (decodeWord (packedBytes v n) n c.big)

theorem blind_encodeBody : Blind encodeBody :=
  blind_checkBpw.andThen fun n =>
    blind_setResult fun v c =>
      BitVec.ofNat 32 (decodeWord (encodeWord (v.toNat % 2 ^ (8 * n)) n c.big) n false)

theorem blind_swizzleBody (sel : Sel) : Blind (swizzleBody sel) := by
  rintro q ws mi mo s t ⟨rfl, rfl, rfl⟩
  unfold swizzleBody
  rw [pw_withBuffers, perm_withBuffers]
  by_cases h0 : s.pw sel = 0
  · rw [if_pos h0, if_pos h0]
    exact ⟨rfl, rfl, rfl⟩
  · rw [if_neg h0, if_neg h0]
    by_cases h32 : 32 < (s.pw sel).toNat
    · rw [if_pos h32, if_pos h32]
      exact rfl
    · rw [if_neg h32, if_neg h32]
      exact ⟨rfl, rfl, rfl, rfl⟩

/-- A parse reads its spec string, its spec length and its own permutation (40_parser.md R110, R112). -/
theorem blind_parsePermutation (sel : Sel) (w : Nat) : Blind (parsePermutation sel w) := by
  rintro q ws mi mo s t ⟨rfl, rfl, rfl⟩
  unfold parsePermutation
  rw [specString_withBuffers, perm_withBuffers]
  by_cases hlen : (splitTokens (s.specString sel)).length ≠ w
  · rw [if_pos hlen, if_pos hlen]
    exact ⟨by simp, by simp, by simp⟩
  · rw [if_neg hlen, if_neg hlen]
    rcases scanTokens sel w (splitTokens (s.specString sel)) 0 { perm := s.perm sel, seen := 0, events := [] }
      with ⟨a, _ | v⟩
    · exact ⟨rfl, by simp, by simp, by simp⟩
    · exact ⟨by simp, by simp, by simp⟩

theorem blind_parseBody (sel : Sel) (w : Nat) : Blind (parseBody sel w) := by
  intro q ws mi mo s t h
  unfold parseBody
  by_cases hw : w < 1 ∨ 32 < w
  · rw [if_pos hw, if_pos hw]
    obtain ⟨rfl, rfl, rfl⟩ := h
    exact ⟨rfl, rfl, rfl⟩
  · rw [if_neg hw, if_neg hw]
    exact blind_parsePermutation sel w h

/-- The parse of a TRANSFORM, enabled by a bit of CFG (43_transform.md R168). -/
theorem blind_parseIf (en : Cfg → Bool) (sel : Sel) (w : Nat) : Blind (fun s => parseIf (en s.cfg) sel w s) := by
  intro q ws mi mo s t h
  have hcfg : t.cfg = s.cfg := by rw [h.other]; rfl
  simp only [parseIf, hcfg]
  cases en s.cfg with
  | true => exact blind_parsePermutation sel w h
  | false => exact ⟨rfl, h⟩

theorem sizingPhase_of_sizingOk {s : State} (h : SizingOk s) : sizingPhase s = .ok s.sizing (sized s) :=
  (sizingPhase_eq s).trans ((if_pos h.1).trans (if_pos h.2))

theorem sizingPhase_of_illegalWords {s : State} (hb : BpwLegal s) (hw : ¬ (2 ≤ s.words ∧ s.words < 2 ^ 33)) :
    sizingPhase s = .stop (raiseFatal .addrWidth
      (if s.words = 0 then 0xFFFFFFFF else BitVec.ofNat 32 (floorLog2 s.words)) 0 .addr
      (warnAll (sizingEvents s.fileSize.toNat s.cfg.bpw.toNat s.cfg.aen) s)) :=
  (sizingPhase_eq s).trans ((if_pos hb).trans (if_neg hw))

@[simp] theorem sized_withBuffers (s : State) (mi mo : Memory) :
    sized (s.withBuffers mi mo) = (sized s).withBuffers mi mo :=
  congrArg (·.setSizing s.sizing.ws s.sizing.nab s.sizing.ndb) (warnAll_withBuffers _ s mi mo)

/-- The sizing phase sets WORKING_SIZE to the size it answers, or stops; all it sees is FILE_SIZE and CFG
(43_transform.md R160, R163). -/
theorem sizingPhase_inStep {q : State} {ws : BitVec 64} {mi mo : Memory} {s t : State} (h : InStep q ws mi mo s t) :
    (∃ z u v, sizingPhase s = .ok z u ∧ sizingPhase t = .ok z v ∧ InStep q (BitVec.ofNat 64 z.ws) mi mo u v) ∨
    (∃ u v, sizingPhase s = .stop u ∧ sizingPhase t = .stop v ∧ InStep q ws mi mo u v) := by
  obtain ⟨rfl, rfl, rfl⟩ := h
  by_cases hb : BpwLegal s
  · by_cases hw : 2 ≤ s.words ∧ s.words < 2 ^ 33
    · exact .inl ⟨s.sizing, _, _, sizingPhase_of_sizingOk ⟨hb, hw⟩,
        sizingPhase_of_sizingOk (s := s.withBuffers mi mo) ⟨hb, hw⟩, by simp, by simp [sized], rfl⟩
    · exact .inr ⟨_, _, sizingPhase_of_illegalWords hb hw,
        sizingPhase_of_illegalWords (s := s.withBuffers mi mo) hb hw, by rw [warnAll_withBuffers]; rfl, by simp,
        by simp⟩
  · exact .inr ⟨_, _, sizingPhase_of_illegalBpw hb, sizingPhase_of_illegalBpw (s := s.withBuffers mi mo) hb,
      rfl, rfl, rfl⟩

/-! ## The output -/

/-- The two memories hold the same written bytes below `n`. -/
def AgreeBelow (n : Nat) (m m' : Memory) : Prop := ∀ k, k < n → m'.read k = m.read k

/-- The zero fill makes any two memories agree (43_transform.md R171). -/
theorem agreeBelow_zeroFill (n : Nat) (m m' : Memory) : AgreeBelow n (m.zeroFill n) (m'.zeroFill n) := by
  intro k hk
  rw [read_zeroFill, read_zeroFill, if_pos hk, if_pos hk]

theorem AgreeBelow.writeBytes {n : Nat} {m m' : Memory} (h : AgreeBelow n m m') (a : Nat) (bs : List Byte) :
    AgreeBelow n (m.writeBytes a bs) (m'.writeBytes a bs) := by
  intro k hk
  rw [read_writeBytes, read_writeBytes, h k hk]

theorem AgreeBelow.storeWords {n : Nat} {m m' : Memory} (h : AgreeBelow n m m') (s : State) (z : Sizing) (bpw : Nat)
    (ps : List Nat) : AgreeBelow n (ps.foldl (storeWord s z bpw) m) (ps.foldl (storeWord s z bpw) m') := by
  induction ps generalizing m m' with
  | nil => exact h
  | cons p ps ih => exact ih (h.writeBytes _ _)

/-- `mi` and the IBUF of `s` hold the same bytes below FILE_SIZE. -/
def SameInput (s : State) (mi : Memory) : Prop :=
  ∀ k, k < s.fileSize.toNat → State.byte { s with ibuf := mi } .ibuf k = s.byte .ibuf k

/-- The comparison of inputs is about the part that is kept until the output. -/
theorem sameInput_beforeOutput (s : State) (mi : Memory) : SameInput s.beforeOutput mi ↔ SameInput s mi := Iff.rfl

section
variable {s : State} {mi : Memory} (h : SameInput s mi)
include h

/-- The padded input is read below FILE_SIZE only (43_transform.md R167). -/
theorem inByte_withBuffers (mo : Memory) (k : Nat) : (s.withBuffers mi mo).inByte k = s.inByte k := by
  by_cases hk : k < s.fileSize.toNat
  · exact (if_pos hk).trans ((h k hk).trans (if_pos hk).symm)
  · exact (if_neg hk).trans (if_neg hk).symm

theorem storeWord_withBuffers (mo : Memory) (z : Sizing) (bpw : Nat) :
    storeWord (s.withBuffers mi mo) z bpw = storeWord s z bpw := by
  have hin : ∀ pos, (s.withBuffers mi mo).inBytes pos bpw = s.inBytes pos bpw := fun pos =>
    List.map_congr_left fun i _ => inByte_withBuffers h mo (pos + i)
  funext m pos
  simp only [storeWord, outWord, hin]
  rfl

/-- With other buffers the loop stores the same words, over the zero-filled other OBUF. -/
theorem outputImage_withBuffers (mo : Memory) (z : Sizing) (bpw : Nat) :
    outputImage (s.withBuffers mi mo) z bpw =
      ((List.range (z.ws / bpw)).map (fun i => i * bpw)).foldl (storeWord s z bpw) (mo.zeroFill z.ws) := by
  rw [outputImage, storeWord_withBuffers h]
  rfl

theorem outputImage_withBuffers_agree (mo : Memory) (z : Sizing) (bpw : Nat) :
    AgreeBelow z.ws (outputImage s z bpw) (outputImage (s.withBuffers mi mo) z bpw) := by
  rw [outputImage_withBuffers h]
  exact (agreeBelow_zeroFill z.ws s.obuf mo).storeWords s z bpw _

end

/-- The end of two runs of a command from `q` on: the host's part is that of `q`; the second state is the first but for
the buffers; equal OBUFs end equal, and a valid output is the same whatever OBUF held. -/
structure SameOutcome (q : State) (mi mo : Memory) (t t' : State) : Prop where
  host : t.hostSide = q.hostSide
  other : t' = t.withBuffers mi t'.obuf
  obuf : mo = q.obuf → t'.obuf = t.obuf
  output : t.status.outValid = true → AgreeBelow t.workingSize.toNat t.obuf t'.obuf

section
variable {q : State} {ws : BitVec 64} {mi mo : Memory} {s t : State}

theorem SameOutcome.commandDone (h : SameOutcome q mi mo s t) :
    SameOutcome q mi mo (commandDone s) (commandDone t) where
  host := h.host
  other := congrArg Machine.commandDone h.other
  obuf := h.obuf
  output := h.output

/-- Runs that have stored no output end with the same outcome. -/
theorem InStep.outcome (h : InStep q ws mi mo s t) (hv : q.status.outValid = false) : SameOutcome q mi mo s t := by
  obtain ⟨rfl, rfl, -⟩ := h
  exact ⟨rfl, rfl, fun h => h, fun h => absurd (h.symm.trans hv) (by decide)⟩

theorem outputPhase_outcome {z : Sizing} (h : InStep q (BitVec.ofNat 64 z.ws) mi mo s t)
    (hv : q.status.outValid = false) (hi : SameInput q mi) :
    (outputPhase z s).Rel (SameOutcome q mi mo) (outputPhase z t) := by
  obtain ⟨rfl, rfl, hsize⟩ := h
  rw [sameInput_beforeOutput] at hi
  unfold outputPhase
  by_cases halloc : s.params.bufBytes < z.ws
  · rw [if_pos halloc, if_pos (by exact halloc)]
    exact InStep.outcome (ws := BitVec.ofNat 64 z.ws) ⟨rfl, rfl, hsize⟩ hv
  · rw [if_neg halloc, if_neg (by exact halloc)]
    refine ⟨rfl, rfl, rfl, fun hmo => ?_, fun _ k hk => outputImage_withBuffers_agree hi mo z _ k ?_⟩
    · exact (outputImage_withBuffers hi mo z _).trans (by rw [hmo]; rfl)
    · have hws : k < (BitVec.ofNat 64 z.ws).toNat := hsize ▸ hk
      rw [BitVec.toNat_ofNat] at hws
      exact Nat.lt_of_lt_of_le hws (Nat.mod_le _ _)

theorem sizeBody_outcome (h : InStep q ws mi mo s t) (hv : q.status.outValid = false) :
    (sizeBody s).Rel (SameOutcome q mi mo) (sizeBody t) := by
  unfold sizeBody
  rcases sizingPhase_inStep h with ⟨z, u, v, hs, ht, huv⟩ | ⟨u, v, hs, ht, huv⟩
  · rw [hs, ht]
    exact ⟨rfl, huv.outcome hv⟩
  · rw [hs, ht]
    exact huv.outcome hv

theorem transformBody_outcome (h : InStep q ws mi mo s t) (hv : q.status.outValid = false) (hi : SameInput q mi) :
    (transformBody s).Rel (SameOutcome q mi mo) (transformBody t) := by
  unfold transformBody
  rcases sizingPhase_inStep h with ⟨z, u, v, hs, ht, huv⟩ | ⟨u, v, hs, ht, huv⟩
  · rw [hs, ht]
    refine (blind_parseIf Cfg.aen .addr z.nab huv).andThen (fun _ _ h => h.outcome hv) fun _ _ _ h1 => ?_
    refine (blind_parseIf Cfg.den .data z.ndb h1).andThen (fun _ _ h => h.outcome hv) fun _ _ _ h2 => ?_
    exact outputPhase_outcome h2 hv hi
  · rw [hs, ht]
    exact huv.outcome hv

end

/-! ## Two runs of one command -/

/-- The body of each command, between its start and its end (60_exceptions.md R204). -/
def commandBody : Instr → State → Res Unit
  | .size => sizeBody
  | .transform => transformBody
  | .parseA w => parseBody .addr w
  | .parseD w => parseBody .data w
  | .swizzleA => swizzleBody .addr
  | .swizzleD => swizzleBody .data
  | .decode => decodeBody
  | .encode => encodeBody

theorem exec_eq_runCommand (i : Instr) (s : State) : exec i s = runCommand (commandBody i) s := by cases i <;> rfl

theorem commandBody_outcome (i : Instr) {q : State} {ws : BitVec 64} {mi mo : Memory} {s t : State}
    (h : InStep q ws mi mo s t) (hv : q.status.outValid = false) (hi : SameInput q mi) :
    (commandBody i s).Rel (SameOutcome q mi mo) (commandBody i t) := by
  have blind : ∀ {body : State → Res Unit}, Blind body → (body s).Rel (SameOutcome q mi mo) (body t) :=
    fun hb => (hb h).mono fun _ _ h => h.outcome hv
  cases i with
  | size => exact sizeBody_outcome h hv
  | transform => exact transformBody_outcome h hv hi
  | parseA w => exact blind (blind_parseBody .addr w)
  | parseD w => exact blind (blind_parseBody .data w)
  | swizzleA => exact blind (blind_swizzleBody .addr)
  | swizzleD => exact blind (blind_swizzleBody .data)
  | decode => exact blind blind_decodeBody
  | encode => exact blind blind_encodeBody

/-- A command run again with other buffers that hold the same input: it answers a state again, with the same outcome. -/
theorem exec_withBuffers {i : Instr} {s t : State} {mi : Memory} (hi : SameInput s mi) (mo : Memory)
    (h : exec i s = .next t) : ∃ t', exec i (s.withBuffers mi mo) = .next t' ∧ SameOutcome s mi mo t t' := by
  rw [exec_eq_runCommand] at h
  have hb := commandBody_outcome i (q := (commandStart s).beforeOutput) (mi := mi) (mo := mo)
    ⟨rfl, rfl, rfl⟩ rfl hi
  obtain ⟨t', ht', ho⟩ := runCommand_rel (s' := s.withBuffers mi mo) hb (fun _ _ h => h.commandDone) h
  exact ⟨t', (exec_eq_runCommand i _).trans ht', ho.host, ho.other, ho.obuf, ho.output⟩

/-- A command keeps the host's part of the state (20_memory.md R62). -/
theorem exec_hostSide {i : Instr} {s t : State} (h : exec i s = .next t) : t.hostSide = s.hostSide := by
  obtain ⟨_, -, ho⟩ := exec_withBuffers (mi := s.ibuf) (fun _ _ => rfl) s.obuf h
  exact ho.host

/-! ## The statements -/

/-- Settles O50: every phase keeps the host's part, only the output phase touches OBUF, and its zero fill and stores fix
every byte below WORKING_SIZE whatever OBUF held. -/
theorem commandsLeaveTheHostSide : Obligations.CommandsLeaveTheHostSide := by
  refine ⟨fun i s t h => sameHostSide_of_hostSide (exec_hostSide h), fun i s t m h => ?_⟩
  obtain ⟨t', ht', ho⟩ := exec_withBuffers (mi := s.ibuf) (fun _ _ => rfl) m h
  have hibuf := congrArg State.ibuf ho.host
  have hother : t' = { t with obuf := t'.obuf } := ho.other.trans (congrArg (t.withBuffers · t'.obuf) hibuf.symm)
  refine ⟨t'.obuf, ht'.trans (congrArg _ hother), fun hv k hk => ?_⟩
  simp only [State.byte, State.mem, ho.output hv k hk]

/-- Settles O55: only `inByte` reads IBUF, and below FILE_SIZE only, so with the same OBUF both runs store the same
words. -/
theorem inputBeyondFileSizeIsNeverRead : Obligations.InputBeyondFileSizeIsNeverRead := by
  intro i s t m hin h
  obtain ⟨t', ht', ho⟩ := exec_withBuffers hin s.obuf h
  exact ht'.trans (congrArg _ (ho.other.trans (by rw [ho.obuf rfl]; rfl)))

end Sys2Proof.Machine

/-! SUPPORT. What the host's byte accesses do while STATE is not BUSY, and the statement about those that have no
effect. -/

namespace Sys2Proof.Machine

/-! ## Byte accesses -/

/-- A read beyond the space returns 0 (20_memory.md R64). -/
theorem hostReadByte_of_beyond {s : State} {sp : Space} {k : Nat} (h : s.params.size sp ≤ k) :
    hostReadByte sp k s = 0 := if_neg (Nat.not_lt.2 h)

theorem hostWriteByte_of_beyond {s : State} {sp : Space} {k : Nat} (h : s.params.size sp ≤ k) (b : Byte) :
    hostWriteByte sp k b s = s := by
  simp [hostWriteByte, Nat.not_lt.2 h]

theorem hostWriteByte_obuf (k : Nat) (b : Byte) (s : State) : hostWriteByte .obuf k b s = s := if_pos rfl

section
variable {s : State} (h : s.status.state ≠ .busy)
include h

theorem hostAccess_byteRead (sp : Space) (k : Nat) :
    hostAccess (.byteRead sp k) s = .next { s with rdata := (hostReadByte sp k s).setWidth 32 } := by
  simp [hostAccess, h]

theorem hostAccess_byteWrite (sp : Space) (k : Nat) (b : Byte) :
    hostAccess (.byteWrite sp k b) s = .next (hostWriteByte sp k b s) := by
  simp [hostAccess, h]

end

/-! ## The statement -/

/-- Settles O5: beyond the space, and in OBUF, the byte access itself does nothing. -/
theorem accessesOutsideTheByteSpaces : Obligations.AccessesOutsideTheByteSpaces := by
  intro s sp k b hs
  refine ⟨fun hk => ?_, fun hk => ?_, ?_⟩
  · rw [hostAccess_byteRead hs, hostReadByte_of_beyond hk]
    rfl
  · rw [hostAccess_byteWrite hs, hostWriteByte_of_beyond hk]
  · rw [hostAccess_byteWrite hs, hostWriteByte_obuf]

end Sys2Proof.Machine

/-! SUPPORT. The command word field by field, everything the decoder can answer, and the statements about the encoding
(30_encoding.md section 1). -/

namespace Sys2Proof.Machine

/-! ## The fields of a command word (R80) -/

/-- Two fields side by side as a number. -/
theorem append_toNat {m n : Nat} (x : BitVec m) (y : BitVec n) : (x ++ y).toNat = 2 ^ n * x.toNat + y.toNat := by
  rw [BitVec.toNat_append, ← Nat.shiftLeft_add_eq_or_of_lt y.isLt, Nat.shiftLeft_eq, Nat.mul_comm]

section
variable (op : BitVec 4) (sel : BitVec 1) (width : BitVec 6)

@[simp] theorem cmdOp_cmdWord : cmdOp (cmdWord op sel width) = op := BitVec.extractLsb'_append_eq_right

@[simp] theorem cmdSel_cmdWord : cmdSel (cmdWord op sel width) = sel := by
  rw [cmdSel, cmdWord, BitVec.extractLsb'_append_eq_of_le (by decide)]
  exact BitVec.extractLsb'_append_eq_right

@[simp] theorem cmdWidth_cmdWord : cmdWidth (cmdWord op sel width) = width := by
  rw [cmdWidth, cmdWord, BitVec.extractLsb'_append_eq_of_le (by decide),
    BitVec.extractLsb'_append_eq_of_le (by decide)]
  exact BitVec.extractLsb'_append_eq_right

end

/-- A word with no reserved bit is put together from its own fields. -/
theorem cmdWord_fields {c : Word} (h : cmdReserved c = 0) : cmdWord (cmdOp c) (cmdSel c) (cmdWidth c) = c := by
  have hwidth : cmdReserved c ++ cmdWidth c = c.extractLsb' 5 27 :=
    BitVec.extractLsb'_append_extractLsb'_eq_extractLsb' rfl
  have hsel : c.extractLsb' 5 27 ++ cmdSel c = c.extractLsb' 4 28 :=
    BitVec.extractLsb'_append_extractLsb'_eq_extractLsb' rfl
  have hop : c.extractLsb' 4 28 ++ cmdOp c = c := BitVec.extractLsb'_append_extractLsb'
  rw [cmdWord, ← h, hwidth, hsel, hop]

/-- SEL is a single bit (R82). -/
theorem cmdSel_cases (c : Word) : cmdSel c = 0 ∨ cmdSel c = 1 := by
  generalize cmdSel c = b
  revert b
  decide

/-! ## Everything the decoder can answer (R85, R86) -/

/-- The conditions of R85 under which a command word is illegal. -/
def IllegalWord (c : Word) : Prop :=
  (cmdOp c).toNat = 0 ∨ 7 ≤ (cmdOp c).toNat ∨ cmdReserved c ≠ 0 ∨
    (cmdSel c = 1 ∧ (cmdOp c).toNat ≠ 3 ∧ (cmdOp c).toNat ≠ 4) ∨ (cmdWidth c ≠ 0 ∧ (cmdOp c).toNat ≠ 3)

/-- A word is rejected because it is illegal, or it is legal and the encoding of the command decoded. -/
inductive DecodeCase (c : Word) : Prop where
  | illegal (e : DecodeReject) (hc : IllegalWord c) (hd : decode c = .badCmd e)
  | legal (i : Instr) (hc : ¬ IllegalWord c) (hi : i.wellFormed = true) (he : encode i = c) (hd : decode c = .cmd i)

/-- The four opcodes that use neither SEL nor WIDTH. -/
theorem decodeCase_plain {c : Word} {i : Instr} (hr : cmdReserved c = 0) (hop : (cmdOp c).toNat ∈ [1, 2, 5, 6])
    (hi : i.wellFormed = true) (he : encode i = cmdWord (cmdOp c) 0 0) (hd : decode c = plainCmd c i) :
    DecodeCase c := by
  simp only [List.mem_cons, List.not_mem_nil, or_false] at hop
  by_cases hs : cmdSel c = 0
  · by_cases hw : cmdWidth c = 0
    · refine .legal i ?_ hi (he.trans ?_) ?_
      · simp [IllegalWord, hr, hs, hw]; omega
      · rw [← hs, ← hw, cmdWord_fields hr]
      · rw [hd, plainCmd, if_neg (Decidable.not_not.2 hs), if_neg (Decidable.not_not.2 hw)]
    · refine .illegal .widthNotZero (.inr (.inr (.inr (.inr ⟨hw, by omega⟩)))) ?_
      rw [hd, plainCmd, if_neg (Decidable.not_not.2 hs), if_pos hw]
  · refine .illegal .selNotZero (.inr (.inr (.inr (.inl ⟨?_, by omega, by omega⟩)))) ?_
    · exact (cmdSel_cases c).resolve_left hs
    · rw [hd, plainCmd, if_pos hs]

/-- PARSE takes any SEL and any WIDTH. -/
theorem decodeCase_parse {c : Word} (hr : cmdReserved c = 0) (hop : cmdOp c = 3) : DecodeCase c := by
  have hc : ¬ IllegalWord c := by simp [IllegalWord, hr, hop]
  have hwidth : (cmdWidth c).toNat ≤ 63 := Nat.le_of_lt_succ (cmdWidth c).isLt
  have hfields := cmdWord_fields hr
  rcases cmdSel_cases c with hs | hs
  · refine .legal (.parseA (cmdWidth c).toNat) hc (decide_eq_true hwidth) ?_ (by simp [decode, hr, hop, hs])
    rw [encode, BitVec.ofNat_toNat, BitVec.setWidth_eq, ← hop, ← hs, hfields]
  · refine .legal (.parseD (cmdWidth c).toNat) hc (decide_eq_true hwidth) ?_ (by simp [decode, hr, hop, hs])
    rw [encode, BitVec.ofNat_toNat, BitVec.setWidth_eq, ← hop, ← hs, hfields]

/-- SWIZZLE takes any SEL, and WIDTH 0 only. -/
theorem decodeCase_swizzle {c : Word} (hr : cmdReserved c = 0) (hop : cmdOp c = 4) : DecodeCase c := by
  have hfields := cmdWord_fields hr
  by_cases hw : cmdWidth c = 0
  · have hc : ¬ IllegalWord c := by simp [IllegalWord, hr, hop, hw]
    rcases cmdSel_cases c with hs | hs
    · refine .legal .swizzleA hc rfl ?_ (by simp [decode, hr, hop, hs, hw])
      rw [encode, ← hop, ← hs, ← hw, hfields]
    · refine .legal .swizzleD hc rfl ?_ (by simp [decode, hr, hop, hs, hw])
      rw [encode, ← hop, ← hs, ← hw, hfields]
  · refine .illegal .widthNotZero (.inr (.inr (.inr (.inr ⟨hw, by simp [hop]⟩)))) ?_
    simp [decode, hr, hop, show ¬ cmdWidth c = 0#6 from hw]

/-- The decoder rejects exactly the illegal words, and what it accepts is the word's own command. -/
theorem decode_cases (c : Word) : DecodeCase c := by
  by_cases hr : cmdReserved c = 0
  case neg => exact .illegal .reservedBits (.inr (.inr (.inl hr))) (if_pos hr)
  have hops : ∀ op : BitVec 4,
      op = 1 ∨ op = 2 ∨ op = 3 ∨ op = 4 ∨ op = 5 ∨ op = 6 ∨ op.toNat = 0 ∨ 7 ≤ op.toNat := by decide
  rcases hops (cmdOp c) with hop | hop | hop | hop | hop | hop | hop
  · exact decodeCase_plain (i := .size) hr (by simp [hop]) rfl (by rw [hop]; rfl) (by simp [decode, hr, hop])
  · exact decodeCase_plain (i := .transform) hr (by simp [hop]) rfl (by rw [hop]; rfl) (by simp [decode, hr, hop])
  · exact decodeCase_parse hr hop
  · exact decodeCase_swizzle hr hop
  · exact decodeCase_plain (i := .decode) hr (by simp [hop]) rfl (by rw [hop]; rfl) (by simp [decode, hr, hop])
  · exact decodeCase_plain (i := .encode) hr (by simp [hop]) rfl (by rw [hop]; rfl) (by simp [decode, hr, hop])
  · refine .illegal .reservedOp (hop.imp_right .inl) ?_
    have hne : ∀ op : BitVec 4, 1 ≤ op.toNat → op.toNat ≤ 6 → cmdOp c ≠ op := by
      rintro op h1 h6 rfl
      omega
    simp [decode, hr, hne]

theorem decode_eq_badCmd_iff (c : Word) : (∃ e, decode c = .badCmd e) ↔ IllegalWord c := by
  cases decode_cases c with
  | illegal e hc hd => simp [hc, hd]
  | legal i hc hi he hd => simp [hc, hd]

/-- What the decoder accepts is the encoding of the command it answers. -/
theorem encode_of_decode {c : Word} {i : Instr} (h : decode c = .cmd i) : i.wellFormed = true ∧ encode i = c := by
  cases decode_cases c with
  | illegal e hc hd => simp [hd] at h
  | legal j hc hj he hd => cases hd.symm.trans h; exact ⟨hj, he⟩

/-! ## Encodings (R87) -/

theorem decode_encode {i : Instr} (h : i.wellFormed = true) : decode (encode i) = .cmd i := by
  cases i with
  | parseA w | parseD w =>
    have hw : w < 64 := Nat.lt_succ_of_le (of_decide_eq_true h)
    simp [decode, encode, Laws.cmdReserved_cmdWord, Nat.mod_eq_of_lt hw]
  | size | transform | swizzleA | swizzleD | decode | encode => rfl

theorem cmdWord_toNat (op : BitVec 4) (sel : BitVec 1) (width : BitVec 6) :
    (cmdWord op sel width).toNat = 32 * width.toNat + (16 * sel.toNat + op.toNat) := by
  simp only [cmdWord, append_toNat, BitVec.ofNat_eq_ofNat, BitVec.toNat_ofNat]
  omega

/-- WIDTH stands above the five bits of OP and SEL. -/
theorem cmdWord_width (op : BitVec 4) (sel : BitVec 1) {w : Nat} (hw : w ≤ 63) :
    cmdWord op sel (BitVec.ofNat 6 w) = cmdWord op sel 0 ||| (BitVec.ofNat 32 w <<< 5) := by
  have hlow : (cmdWord op sel 0).toNat = 16 * sel.toNat + op.toNat := (cmdWord_toNat op sel 0).trans (Nat.zero_add _)
  have hlt : 16 * sel.toNat + op.toNat < 2 ^ 5 := by have := op.isLt; have := sel.isLt; omega
  have hwidth : (BitVec.ofNat 6 w).toNat = w := Nat.mod_eq_of_lt (by omega)
  have hshift : (BitVec.ofNat 32 w <<< 5).toNat = w <<< 5 := by
    simp [Nat.shiftLeft_eq]
    omega
  refine BitVec.eq_of_toNat_eq ?_
  rw [BitVec.toNat_or, hlow, hshift, Nat.or_comm, ← Nat.shiftLeft_add_eq_or_of_lt hlt, cmdWord_toNat, hwidth,
    Nat.shiftLeft_eq, Nat.mul_comm]

/-- Settles O14: every accepted word is put together from its own fields, and every encoding has the fields the decoder
asks for. -/
theorem legalWordsAreExactlyTheEncodings : Obligations.LegalWordsAreExactlyTheEncodings :=
  ⟨fun _ => decode_encode, fun _ _ => encode_of_decode, rfl, rfl, rfl, rfl, rfl, rfl,
    fun _ hw => ⟨cmdWord_width 3 0 hw, cmdWord_width 3 1 hw⟩⟩

/-! ## Illegal words (R85) -/

theorem hostAccess_cmd {s : State} (h : s.status.state ≠ .busy) (c : Word) :
    hostAccess (.regWrite 0x000 4 c) s = writeCmd c s := hostAccess_regWrite h 0x000 4 c

/-- Settles O15: the decoder's cases are those of R85, and a rejected word ends the command at its start. -/
theorem illegalWordsRaiseBadCmd : Obligations.IllegalWordsRaiseBadCmd := by
  refine fun c => ⟨decode_eq_badCmd_iff c, fun s e hs he => ?_⟩
  rw [hostAccess_cmd hs, writeCmd, he]
  rfl

end Sys2Proof.Machine

/-! SUPPORT. What the accesses of a host statement leave in the engine, and the statement about the pseudo-instructions
`wrs` and `wrsize` (30_encoding.md R92 to R94). -/

namespace Sys2Proof.Machine

/-! ## Byte spaces through the state -/

theorem setMem_self (s : State) (sp : Space) : s.setMem sp (s.mem sp) = s := by cases sp <;> rfl

theorem setMem_setMem (s : State) (sp : Space) (m m' : Memory) : (s.setMem sp m).setMem sp m' = s.setMem sp m' := by
  cases sp <;> rfl

/-- Bytes just written are read back (20_memory.md R73). -/
theorem bytes_setMem_writeBytes (s : State) (sp : Space) (m : Memory) (bs : List Byte) :
    (s.setMem sp (m.writeBytes 0 bs)).bytes sp 0 bs.length = bs := by
  refine List.ext_getElem (by simp [State.bytes]) fun i h1 h2 => ?_
  have hread : ((s.setMem sp (m.writeBytes 0 bs)).mem sp).read (0 + i) = some bs[i] := by
    simp [read_writeBytes, h2]
  simp only [State.bytes, List.getElem_map, List.getElem_range]
  exact byte_of_read hread

/-! ## Accesses one after another -/

/-- A write leaves the host's own record alone. -/
theorem performAll_byteWrite {h : HostRun} (hb : h.engine.status.state ≠ .busy) (sp : Space) (k : Nat) (b : Byte)
    (rest : List Access) :
    performAll (.byteWrite sp k b :: rest) h =
      performAll rest { h with engine := hostWriteByte sp k b h.engine } := by
  rw [performAll, hostAccess_byteWrite hb]
  rfl

theorem performAll_regWrite {h : HostRun} (hb : h.engine.status.state ≠ .busy) {r : Reg} (hr : r ≠ .cmd) (v : Word)
    (rest : List Access) :
    performAll (wrAccess r v :: rest) h = performAll rest { h with engine := r.write v h.engine } := by
  rw [performAll, wrAccess, hostAccess_write hb hr]
  rfl

/-- `wrb` stores its bytes at rising offsets, those beyond the space being dropped (R92; 20_memory.md R64). -/
theorem performAll_wrb {sp : Space} (hsp : sp ≠ .obuf) (bs : List Byte) (a : Nat) (rest : List Access) {h : HostRun}
    (hb : h.engine.status.state ≠ .busy) :
    performAll (wrbAccesses sp a bs ++ rest) h =
      performAll rest { h with
        engine := h.engine.setMem sp ((h.engine.mem sp).writeBytes a (bs.take (h.engine.params.size sp - a))) } := by
  induction bs generalizing a h with
  | nil => simp [wrbAccesses, Memory.writeBytes, setMem_self]
  | cons b bs ih =>
    rw [wrbAccesses, List.cons_append, performAll_byteWrite hb]
    by_cases ha : a < h.engine.params.size sp
    · have hn : h.engine.params.size sp - a = (h.engine.params.size sp - (a + 1)) + 1 := by omega
      rw [hostWriteByte, if_neg hsp, if_pos ha, ih (a + 1) (by simpa using hb), hn]
      simp [setMem_setMem, Memory.writeBytes]
    · have hn : h.engine.params.size sp - a = 0 := by omega
      have hn' : h.engine.params.size sp - (a + 1) = 0 := by omega
      rw [hostWriteByte_of_beyond (Nat.not_lt.1 ha), ih (a + 1) hb, hn, hn']
      rfl

/-! ## `wrs` (R93) -/

theorem wrsSpace_ne_obuf (sel : Sel) : wrsSpace sel ≠ .obuf := by cases sel <;> decide

theorem size_wrsSpace (p : Params) (sel : Sel) : p.size (wrsSpace sel) = p.specBytes := by cases sel <;> rfl

/-- The engine after `wrs`: the text in the space of the selector, cut at its end, then the length register. -/
def State.afterWrs (s : State) (sel : Sel) (text : List Byte) : State :=
  (wrsLen sel).write (BitVec.ofNat 32 text.length)
    (s.setMem (wrsSpace sel) ((s.mem (wrsSpace sel)).writeBytes 0 (text.take s.params.specBytes)))

theorem performAll_wrs {h : HostRun} (hb : h.engine.status.state ≠ .busy) (sel : Sel) (text : List Byte) :
    performAll (HostStmt.wrs sel text).accesses h = .next { h with engine := h.engine.afterWrs sel text } := by
  rw [HostStmt.accesses, performAll_wrb (wrsSpace_ne_obuf sel) text 0 _ hb,
    performAll_regWrite (by simpa using hb) (wrsLen_ne_cmd sel), size_wrsSpace]
  rfl

theorem specString_afterWrs_same (s : State) (sel : Sel) {text : List Byte} (hlen : text.length < 65536) :
    (s.afterWrs sel text).specString sel = text.take s.params.specBytes := by
  have hl : (s.afterWrs sel text).specLen sel = (text.take s.params.specBytes).length := by
    rw [State.afterWrs, specLen_write_same, List.length_take]
    simp
    omega
  have hbytes := bytes_setMem_writeBytes s (wrsSpace sel) (s.mem (wrsSpace sel)) (text.take s.params.specBytes)
  rw [State.specString, hl]
  refine Eq.trans ?_ hbytes
  cases sel <;> rfl

theorem specString_afterWrs_other (s : State) {sel sel' : Sel} (hne : sel' ≠ sel) (text : List Byte) :
    (s.afterWrs sel text).specString sel' = s.specString sel' := by
  cases sel with
  | addr => cases sel' with
    | addr => exact absurd rfl hne
    | data => rfl
  | data => cases sel' with
    | addr => rfl
    | data => exact absurd rfl hne

theorem afterWrs_frame (s : State) (sel : Sel) (text : List Byte) :
    s.afterWrs sel text = { s with
      aspec := (s.afterWrs sel text).aspec, dspec := (s.afterWrs sel text).dspec
      aspecLen := (s.afterWrs sel text).aspecLen, dspecLen := (s.afterWrs sel text).dspecLen } := by
  cases sel <;> rfl

/-! ## `wrsize` (R94) -/

/-- Both halves written, low word first: FILE_SIZE is the two words side by side (10_state.md R31). -/
theorem write_fileSize (s : State) (lo hi : Word) :
    Reg.fileSizeHi.write hi (Reg.fileSizeLo.write lo s) = { s with fileSize := hi ++ lo } := by
  have hlow : (s.fileSize.extractLsb' 32 32 ++ lo).extractLsb' 0 32 = lo := BitVec.extractLsb'_append_eq_right
  simp only [Reg.write, hlow]

theorem performAll_wrsize {h : HostRun} (hb : h.engine.status.state ≠ .busy) (n : Nat) :
    performAll (HostStmt.wrsize n).accesses h = .next { h with
      engine := { h.engine with fileSize := BitVec.ofNat 32 (n / 2 ^ 32) ++ BitVec.ofNat 32 (n % 2 ^ 32) } } := by
  rw [HostStmt.accesses, performAll_regWrite hb (by decide),
    performAll_regWrite (h := { h with engine := Reg.fileSizeLo.write _ h.engine }) hb (by decide), write_fileSize]
  rfl

/-! ## The statement -/

/-- Settles O11: each access of `wrs` and `wrsize` is a write to a space or to a register, and together they leave the
text below its length and the two halves of the size side by side. -/
theorem pseudoInstructionsFillTheOperands : Obligations.PseudoInstructionsFillTheOperands := by
  refine ⟨fun h sel text hb _ hlen => ?_, fun h n hb hn => ?_⟩
  · exact ⟨_, performAll_wrs hb sel text, specString_afterWrs_same h.engine sel hlen,
      fun _ hne => specString_afterWrs_other h.engine hne text, afterWrs_frame h.engine sel text⟩
  · have hhi : n / 2 ^ 32 < 2 ^ 32 := by omega
    have hhi' : (BitVec.ofNat 32 (n / 2 ^ 32)).toNat = n / 2 ^ 32 := Nat.mod_eq_of_lt hhi
    have hlo : (BitVec.ofNat 32 (n % 2 ^ 32)).toNat = n % 2 ^ 32 := Nat.mod_mod n _
    refine ⟨_, performAll_wrsize hb n, ?_, rfl, ?_, ?_⟩
    · rw [append_toNat, hhi', hlo, Nat.div_add_mod]
    · exact (congrArg BitVec.toNat BitVec.extractLsb'_append_eq_right).trans hlo
    · exact (congrArg BitVec.toNat BitVec.extractLsb'_append_eq_left).trans hhi'

end Sys2Proof.Machine

/-! SUPPORT. Spelled permutations: the tokens of a spec string printed from bit indices, and the statement about the
canonical spellings (30_encoding.md R88, R90). -/

namespace Sys2Proof.Machine

/-! ## Decimal numerals as tokens -/

theorem ofNat_toNat_of_isDigit {c : Char} (hc : c.isDigit = true) :
    (BitVec.ofNat 8 c.toNat).toNat = c.toNat ∧ 0x30 ≤ c.toNat ∧ c.toNat ≤ 0x39 := by
  have hrange : 0x30 ≤ c.toNat ∧ c.toNat ≤ 0x39 := Char.isDigit_iff_toNat.1 hc
  exact ⟨Nat.mod_eq_of_lt (by omega), hrange⟩

/-- Every byte of a numeral is a decimal digit. -/
theorem isDigitByte_of_mem_decimalText {n : Nat} {b : Byte} (hb : b ∈ decimalText n) : isDigitByte b = true := by
  simp only [decimalText, List.mem_map] at hb
  obtain ⟨c, hc, rfl⟩ := hb
  obtain ⟨h1, h2, h3⟩ := ofNat_toNat_of_isDigit (Nat.isDigit_of_mem_toDigits (by decide) (by decide) hc)
  simp [isDigitByte, h1, h2, h3]

/-- The digits of the parser are the digits of the library's numerals. -/
theorem digitsValue_map {cs : List Char} (h : ∀ c ∈ cs, c.isDigit = true) (n : Nat) :
    digitsValue n (cs.map fun c => BitVec.ofNat 8 c.toNat) = Nat.ofDigitChars 10 cs n := by
  induction cs generalizing n with
  | nil => rfl
  | cons c cs ih =>
    obtain ⟨h1, h2, h3⟩ := ofNat_toNat_of_isDigit (h c List.mem_cons_self)
    rw [List.map_cons, digitsValue, Nat.ofDigitChars_cons, ← ih fun d hd => h d (List.mem_cons_of_mem c hd)]
    simp [isDigitByte, h1, h2, h3]

theorem digitsValue_decimalText (n : Nat) : digitsValue 0 (decimalText n) = n := by
  rw [decimalText, digitsValue_map fun c hc => Nat.isDigit_of_mem_toDigits (by decide) (by decide) hc]
  exact Nat.ofDigitChars_ten_toDigits

/-- A token of digits alone has no white space and no sign to read first (40_parser.md R113). -/
theorem tokenValue_of_digits {tok : List Byte} (h : ∀ b ∈ tok, isDigitByte b = true) :
    tokenValue tok = digitsValue 0 tok := by
  cases tok with
  | nil => rfl
  | cons b bs =>
    have hb := h b List.mem_cons_self
    obtain ⟨hlo, -⟩ : 0x30 ≤ b.toNat ∧ b.toNat ≤ 0x39 := by simpa [isDigitByte] using hb
    have hne : ∀ c : Byte, c.toNat < 0x30 → b ≠ c := by
      rintro c hc rfl
      omega
    have hspace : isSpaceByte b = false := by
      simpa [isSpaceByte] using And.intro (hne 0x20 (by decide)) fun _ => (by omega : 0xD < b.toNat)
    have hdrop : (b :: bs).dropWhile isSpaceByte = b :: bs := List.dropWhile_cons_of_neg (by simp [hspace])
    simp only [tokenValue, hdrop, if_neg (hne 0x2D (by decide)), if_neg (hne 0x2B (by decide))]

theorem tokenValue_decimalText (n : Nat) : tokenValue (decimalText n) = n := by
  rw [tokenValue_of_digits fun _ => isDigitByte_of_mem_decimalText, digitsValue_decimalText]

/-! ## The tokens of a spelled permutation -/

theorem specText_cons (n : Nat) {ns : List Nat} (h : ns ≠ []) :
    specText (n :: ns) = decimalText n ++ 0x2C :: specText ns := by
  cases ns with
  | nil => exact absurd rfl h
  | cons m ms => rfl

theorem splitTokens_of_no_comma {tok : List Byte} (h : (0x2C : Byte) ∉ tok) : splitTokens tok = [tok] := by
  induction tok with
  | nil => rfl
  | cons b bs ih =>
    obtain ⟨hb, hbs⟩ := List.ne_and_not_mem_of_not_mem_cons h
    rw [splitTokens, if_neg hb.symm, ih hbs]

theorem splitTokens_comma {tok : List Byte} (h : (0x2C : Byte) ∉ tok) (rest : List Byte) :
    splitTokens (tok ++ 0x2C :: rest) = tok :: splitTokens rest := by
  induction tok with
  | nil => rfl
  | cons b bs ih =>
    obtain ⟨hb, hbs⟩ := List.ne_and_not_mem_of_not_mem_cons h
    rw [List.cons_append, splitTokens, if_neg hb.symm, ih hbs]

theorem comma_not_mem_decimalText (n : Nat) : (0x2C : Byte) ∉ decimalText n :=
  fun h => absurd (isDigitByte_of_mem_decimalText h) (by decide)

/-- The spelling of some indices splits into their numerals (R88; 40_parser.md R111). -/
theorem splitTokens_specText {idx : List Nat} (h : idx ≠ []) : splitTokens (specText idx) = idx.map decimalText := by
  induction idx with
  | nil => exact absurd rfl h
  | cons n ns ih => cases ns with
    | nil => exact splitTokens_of_no_comma (comma_not_mem_decimalText n)
    | cons m ms =>
      have hms : m :: ms ≠ [] := List.cons_ne_nil m ms
      rw [specText_cons n hms, splitTokens_comma (comma_not_mem_decimalText n), ih hms]
      rfl

/-! ## The parse of a spelled permutation -/

section
variable {s : State} {sel : Sel} {idx : List Nat} (hs : s.specString sel = specText idx) (hne : idx ≠ [])
include hs hne

theorem tokens_of_specText : s.tokens sel = idx.map decimalText := by
  rw [State.tokens, hs, splitTokens_specText hne]

theorem tokenAt_of_specText {t : Nat} (ht : t < idx.length) : tokenAt (s.tokens sel) t = (idx.getD t 0 : Nat) := by
  rw [tokens_of_specText hs hne]
  simp [tokenAt, List.getD_eq_getElem?_getD, ht, tokenValue_decimalText]

theorem specOk_of_specText (hr : ∀ n ∈ idx, n < idx.length) : SpecOk s sel idx.length := by
  refine ⟨by simp [tokens_of_specText hs hne], fun t ht => ?_⟩
  have := hr _ (List.getElem_mem ht)
  rw [InRange, tokenAt_of_specText hs hne ht]
  simp [ht, this]

/-- Distinct indices repeat no token, so none is warned about (40_parser.md R117). -/
theorem dupEvents_of_specText (hd : idx.Nodup) : dupEvents sel (s.tokens sel) idx.length = [] := by
  have hrep : ∀ t ∈ List.range idx.length, ¬ repeatsEarlier (s.tokens sel) t = true := by
    intro t ht h
    simp only [repeatsEarlier, List.any_eq_true, List.mem_range, decide_eq_true_eq] at h ht
    obtain ⟨u, hu, he⟩ := h
    rw [tokenAt_of_specText hs hne ht, tokenAt_of_specText hs hne (by omega)] at he
    have hut : u < idx.length := by omega
    have hval : idx[u] = idx[t] := by simpa [hut, ht] using Int.ofNat_inj.1 he
    exact List.pairwise_iff_getElem.1 hd u t hut ht hu hval
  rw [dupEvents, List.filter_eq_nil_iff.2 hrep, List.map_nil]

end

/-- A PARSE of a good spec string, with its state (40_parser.md R115, R123, R124). -/
theorem exec_parse_of_specOk {s : State} {sel : Sel} {w : Nat} (h1 : 1 ≤ w) (h32 : w ≤ 32) (h : SpecOk s sel w) :
    ∃ p, PermParsed (s.tokens sel) w (s.perm sel) p ∧
      exec (parseCmd sel w) s = .next (commandDone
        (((warnAll (dupEvents sel (s.tokens sel) w) (commandStart s)).setPerm sel p).setPw sel (BitVec.ofNat 6 w))) := by
  have htoks : (commandStart s).tokens sel = s.tokens sel := tokens_congr rfl rfl rfl rfl rfl sel
  obtain ⟨p, hp, hok⟩ := parsePermutation_ok (s := commandStart s) h32 (by rwa [SpecOk, htoks])
  rw [htoks] at hp hok
  refine ⟨p, by cases sel <;> exact hp, ?_⟩
  have hbody : parseBody sel w (commandStart s) = parsePermutation sel w (commandStart s) := if_neg (by omega)
  have hrun := runCommand_of_ok (hbody.trans hok)
  cases sel <;> exact hrun

/-- The parse of spelled indices: it ends DONE, warns about the repeated ones, and the k-th index from the left stands in
the k-th entry from the top (R88). -/
theorem exec_parse_specText {s : State} {sel : Sel} {idx : List Nat} (hs : s.specString sel = specText idx)
    (h1 : 1 ≤ idx.length) (h32 : idx.length ≤ 32) (hr : ∀ n ∈ idx, n < idx.length) :
    ∃ t, exec (parseCmd sel idx.length) s = .next t ∧ t.status.state = .done ∧
      t.diag = dupEvents sel (s.tokens sel) idx.length ∧ (t.pw sel).toNat = idx.length ∧
      ∀ k, k < idx.length → permAt (t.perm sel) (idx.length - 1 - k) = idx.getD k 0 := by
  have hne : idx ≠ [] := List.ne_nil_of_length_pos h1
  obtain ⟨p, ⟨hp, -⟩, hexec⟩ := exec_parse_of_specOk h1 h32 (specOk_of_specText hs hne hr)
  refine ⟨_, hexec, rfl, by simp, ?_, fun k hk => ?_⟩
  · have hmod : (BitVec.ofNat 6 idx.length).toNat = idx.length := Nat.mod_eq_of_lt (by omega)
    cases sel <;> exact hmod
  · have hk' := hp k hk
    rw [tokenAt_of_specText hs hne hk] at hk'
    cases sel <;> exact hk'

/-- A spelled permutation of width `w` parses without warning, and entry `i` is the index that stands `i` places from the
right. -/
theorem exec_parse_permutation {s : State} {sel : Sel} {idx : List Nat} {w : Nat} (hs : s.specString sel = specText idx)
    (hlen : idx.length = w) (h1 : 1 ≤ w) (h32 : w ≤ 32) (hr : ∀ n ∈ idx, n < w) (hd : idx.Nodup) :
    ∃ t, exec (parseCmd sel w) s = .next t ∧ t.diag = [] ∧ (t.pw sel).toNat = w ∧
      ∀ i, i < w → permAt (t.perm sel) i = idx.getD (w - 1 - i) 0 := by
  subst hlen
  obtain ⟨t, hexec, -, hdiag, hpw, hperm⟩ := exec_parse_specText hs h1 h32 hr
  have hnodup := dupEvents_of_specText hs (List.ne_nil_of_length_pos h1) hd
  refine ⟨t, hexec, hdiag.trans hnodup, hpw, fun i hi => ?_⟩
  have hslot : idx.length - 1 - (idx.length - 1 - i) = i := by omega
  rw [← hperm _ (by omega), hslot]

/-! ## The statement -/

/-- Settles O24: both spellings name every index below the width once, the identity from the highest index down and bit
reversal from 0 up. -/
theorem canonicalSpellings : Obligations.CanonicalSpellings := by
  intro sel w s h1 h32
  refine ⟨fun hs => ?_, fun hs => ?_⟩
  · obtain ⟨t, hexec, hdiag, hpw, hperm⟩ :=
      exec_parse_permutation hs (by simp) h1 h32 (by simp) (List.pairwise_reverse.2 (List.nodup_range.imp Ne.symm))
    refine ⟨t, hexec, hdiag, hpw, fun i hi => ?_⟩
    rw [hperm i hi]
    simp [List.getD_eq_getElem?_getD, show w - 1 - i < w by omega]
    omega
  · obtain ⟨t, hexec, hdiag, hpw, hperm⟩ :=
      exec_parse_permutation hs List.length_range h1 h32 (fun n => List.mem_range.1) List.nodup_range
    refine ⟨t, hexec, hdiag, hpw, fun i hi => ?_⟩
    rw [hperm i hi]
    simp [List.getD_eq_getElem?_getD, show w - 1 - i < w by omega]

end Sys2Proof.Machine

/-! SUPPORT. The split of a spec string at its commas and the value of a token, and the statements about both
(40_parser.md R111, R113, R116). -/

namespace Sys2Proof.Machine

/-! ## The split (R111) -/

/-- Every text is one token without a comma, or such a token, a comma and a shorter text. -/
theorem comma_induction {P : List Byte → Prop} (last : ∀ tok, (0x2C : Byte) ∉ tok → P tok)
    (more : ∀ tok rest, (0x2C : Byte) ∉ tok → P rest → P (tok ++ 0x2C :: rest)) (text : List Byte) : P text := by
  by_cases h : (0x2C : Byte) ∈ text
  · obtain ⟨tok, rest, heq, hno⟩ := List.eq_append_cons_of_mem h
    have hshorter : rest.length < text.length := by
      rw [heq, List.length_append, List.length_cons]
      omega
    exact heq ▸ more tok rest hno (comma_induction last more rest)
  · exact last text h
termination_by text.length

theorem splitTokens_ne_nil (text : List Byte) : splitTokens text ≠ [] := by
  induction text using comma_induction with
  | last tok h => exact splitTokens_of_no_comma h ▸ List.cons_ne_nil _ _
  | more tok rest h _ => exact splitTokens_comma h rest ▸ List.cons_ne_nil _ _

/-- Settles O16: each comma-free token comes off the front whole, with its comma. -/
theorem splitCutsAtEveryComma : Obligations.SplitCutsAtEveryComma := by
  intro text
  induction text using comma_induction with
  | last tok h =>
    rw [splitTokens_of_no_comma h, List.count_eq_zero.2 h]
    exact ⟨List.append_nil tok, List.forall_mem_singleton.2 h, rfl⟩
  | more tok rest h ih =>
    obtain ⟨hjoin, hno, hlen⟩ := ih
    obtain ⟨next, toks, hrest⟩ := List.exists_cons_of_ne_nil (splitTokens_ne_nil rest)
    rw [splitTokens_comma h]
    refine ⟨?_, List.forall_mem_cons.2 ⟨h, hno⟩, ?_⟩
    · rw [hrest] at hjoin ⊢
      rw [List.intersperse_cons_cons, List.flatten_cons, List.flatten_cons, hjoin]
      rfl
    · rw [List.length_cons, hlen, List.count_append, List.count_eq_zero.2 h, List.count_cons_self, Nat.zero_add]

/-! ## The value of a token (R113) -/

theorem isSpaceByte_iff (b : Byte) :
    isSpaceByte b = true ↔ b.toNat = 0x20 ∨ (0x09 ≤ b.toNat ∧ b.toNat ≤ 0x0D) := by
  simp [isSpaceByte, ← BitVec.toNat_inj]

theorem isSpaceByte_iff_mem (b : Byte) :
    isSpaceByte b = true ↔ b ∈ [(0x20 : Byte), 0x09, 0x0A, 0x0B, 0x0C, 0x0D] := by
  have hmem : b ∈ [(0x20 : Byte), 0x09, 0x0A, 0x0B, 0x0C, 0x0D] ↔ b.toNat ∈ [0x20, 0x09, 0x0A, 0x0B, 0x0C, 0x0D] := by
    simp [← BitVec.toNat_inj]
  rw [isSpaceByte_iff, hmem]
  simp only [List.mem_cons, List.not_mem_nil, or_false]
  omega

theorem isDigitByte_iff (b : Byte) : isDigitByte b = true ↔ 0x30 ≤ b.toNat ∧ b.toNat ≤ 0x39 := by
  simp [isDigitByte]

/-- A digit is no white space and no sign. -/
theorem not_space_not_sign_of_isDigitByte {b : Byte} (h : isDigitByte b = true) :
    isSpaceByte b = false ∧ b ≠ 0x2B ∧ b ≠ 0x2D := by
  rw [isDigitByte_iff] at h
  have hspace : ¬ isSpaceByte b = true := fun hs => by
    rw [isSpaceByte_iff] at hs
    omega
  refine ⟨Bool.eq_false_iff.2 hspace, ?_, ?_⟩
  · rintro rfl
    exact absurd h (by decide)
  · rintro rfl
    exact absurd h (by decide)

theorem tokenValue_blanks {blanks : List Byte} (h : ∀ b ∈ blanks, isSpaceByte b = true) (tok : List Byte) :
    tokenValue (blanks ++ tok) = tokenValue tok := by
  simp only [tokenValue, List.dropWhile_append_of_pos h]

theorem tokenValue_plus (tok : List Byte) : tokenValue (0x2B :: tok) = digitsValue 0 tok := rfl

theorem tokenValue_minus (tok : List Byte) : tokenValue (0x2D :: tok) = -(digitsValue 0 tok : Int) := rfl

/-- A token that begins with neither white space nor a sign is read as digits from its first byte on. -/
theorem tokenValue_of_unsigned {tok : List Byte}
    (h : ∀ b, tok.head? = some b → isSpaceByte b = false ∧ b ≠ 0x2B ∧ b ≠ 0x2D) :
    tokenValue tok = digitsValue 0 tok := by
  cases tok with
  | nil => rfl
  | cons b bs =>
    obtain ⟨hspace, hplus, hminus⟩ := h b rfl
    have hdrop : (b :: bs).dropWhile isSpaceByte = b :: bs := List.dropWhile_cons_of_neg (by simp [hspace])
    simp only [tokenValue, hdrop, if_neg hminus, if_neg hplus]

/-- The digits are read up to the first byte that is none. -/
theorem digitsValue_append {digits rest : List Byte} (hd : ∀ b ∈ digits, isDigitByte b = true)
    (hr : ∀ b, rest.head? = some b → isDigitByte b = false) (n : Nat) :
    digitsValue n (digits ++ rest) = digits.foldl (fun n b => 10 * n + (b.toNat - 0x30)) n := by
  induction digits generalizing n with
  | nil => cases rest with
    | nil => rfl
    | cons b bs => simp [digitsValue, hr b rfl]
  | cons b bs ih =>
    obtain ⟨hb, hbs⟩ := List.forall_mem_cons.1 hd
    simp [digitsValue, hb, ih hbs]

/-- Settles O17: the white space falls away, a sign is taken off, and the digits end where the rest begins. -/
theorem tokenValueReadsSignedDecimal : Obligations.TokenValueReadsSignedDecimal := by
  intro blanks digits rest hblanks hdigits hrest
  have hb : ∀ b ∈ blanks, isSpaceByte b = true := fun b h => (isSpaceByte_iff_mem b).2 (hblanks b h)
  have hd : ∀ b ∈ digits, isDigitByte b = true := fun b h => (isDigitByte_iff b).2 (hdigits b h)
  have hr : ∀ b, rest.head? = some b → isDigitByte b = false := fun b h =>
    Bool.eq_false_iff.2 fun hdigit => hrest b h ((isDigitByte_iff b).1 hdigit)
  have hvalue := digitsValue_append hd hr 0
  refine ⟨fun hne => ?_, ?_, ?_, fun hother => ?_⟩
  · rw [List.append_assoc, tokenValue_blanks hb, tokenValue_of_unsigned, hvalue]
    intro b h
    obtain ⟨d, ds, rfl⟩ := List.exists_cons_of_ne_nil hne
    obtain rfl : d = b := Option.some.inj h
    exact not_space_not_sign_of_isDigitByte (hd d List.mem_cons_self)
  · rw [List.append_assoc, tokenValue_blanks hb, List.cons_append, tokenValue_plus, hvalue]
  · rw [List.append_assoc, tokenValue_blanks hb, List.cons_append, tokenValue_minus, hvalue]
  · rw [tokenValue_blanks hb, tokenValue_of_unsigned]
    · exact congrArg Nat.cast (digitsValue_append (digits := []) nofun hr 0)
    · intro b h
      have hb' := hother b h
      refine ⟨Bool.eq_false_iff.2 fun hspace => hb' ?_, fun he => hb' (by simp [he]), fun he => hb' (by simp [he])⟩
      exact List.mem_append_left [0x2B, 0x2D] ((isSpaceByte_iff_mem b).1 hspace)

/-! ## The saturated value (R112) -/

theorem sat32_toInt (v : Int) : (sat32 v).toInt = max (-2 ^ 31) (min v (2 ^ 31 - 1)) :=
  BitVec.toInt_ofInt_eq_self (by decide) (by omega) (by omega)

end Sys2Proof.Machine

/-! SUPPORT. The state a PARSE leaves, for each way it can end, and the statements about PARSE (40_parser.md R114 to
R126). -/

namespace Sys2Proof.Machine

/-! ## States a command ends in -/

/-- A command that has logged `es` and changed nothing else (60_exceptions.md R204). -/
theorem warnAll_commandStart (es : List DiagEvent) (s : State) :
    warnAll es (commandStart s) =
      { s with status := endStatus .busy false es, err := ErrRegs.clear, diag := es } := by
  have hstatus : (warnAll es (commandStart s)).status = endStatus .busy false es :=
    (warnAll_endStatus es (commandStart_status s) _ _).trans (by
      rw [warnAll_state, warnAll_outValid]
      rfl)
  rw [warnAll_eq, hstatus]
  rfl

theorem warnAll_setPw (es : List DiagEvent) (s : State) (sel : Sel) (w : BitVec 6) :
    warnAll es (s.setPw sel w) = (warnAll es s).setPw sel w := by
  induction es generalizing s with
  | nil => rfl
  | cons e es ih =>
    have hwarn : warn e (s.setPw sel w) = (warn e s).setPw sel w := by cases sel <;> rfl
    rw [warnAll_cons, hwarn, ih]
    rfl

/-- The state after a good parse, as one update of the state before the command (40_parser.md R120). -/
theorem commandDone_parsed (sel : Sel) (w : Nat) (p : PermFile) (toks : List (List Byte)) (s : State) :
    commandDone (parsed sel w p toks (commandStart s)) = (State.setPerm { s with
      status := endStatus .done false (dupEvents sel toks w)
      err := ErrRegs.clear
      diag := dupEvents sel toks w } sel p).setPw sel (BitVec.ofNat 6 w) := by
  rw [parsed, warnAll_commandStart]
  cases sel <;> rfl

/-- The state after a failed parse, as one update of the state before the command (40_parser.md R121). -/
theorem parseFailure_commandStart (sel : Sel) (e : ErrRegs) (es : List DiagEvent) (s : State) :
    parseFailure sel e es (commandStart s) = (State.setPerm { s with
      status := endStatus .error false es
      err := e
      diag := es
      draw := s.draw + 1 } sel (freePerm s.draw)).setPw sel 0 := by
  rw [parseFailure, warnAll_setPw, warnAll_commandStart]
  cases sel <;> rfl

/-! ## The command -/

theorem exec_parseCmd (sel : Sel) (w : Nat) (s : State) : exec (parseCmd sel w) s = runCommand (parseBody sel w) s := by
  cases sel <;> rfl

theorem tokens_commandStart (s : State) (sel : Sel) : (commandStart s).tokens sel = s.tokens sel :=
  tokens_congr rfl rfl rfl rfl rfl sel

/-- A PARSE of a legal width whose spec string is not good records the error of its parse (40_parser.md R126). -/
theorem exec_parse_of_stop {s : State} {sel : Sel} {w : Nat} {e : ErrRegs} {es : List DiagEvent} (h1 : 1 ≤ w)
    (h32 : w ≤ 32) (h : parsePermutation sel w (commandStart s) = .stop (parseFailure sel e es (commandStart s))) :
    ∃ p n, exec (parseCmd sel w) s = .next ((State.setPerm { s with
      status := endStatus .error false es
      err := e
      diag := es
      draw := n } sel p).setPw sel 0) := by
  have hbody : parseBody sel w (commandStart s) = parsePermutation sel w (commandStart s) := if_neg (by omega)
  refine ⟨freePerm s.draw, s.draw + 1, ?_⟩
  rw [exec_parseCmd, runCommand_of_stop (hbody.trans h), parseFailure_commandStart]

/-! ## The statements -/

/-- Settles O18: the parse starts from the tokens and entries the command found, and its first token repeats none. -/
theorem parseOfGoodSpec : Obligations.ParseOfGoodSpec := by
  intro sel w s h1 h32 h
  obtain ⟨p, hp, hexec⟩ := exec_parse_of_specOk h1 h32 h
  exact ⟨dupEvents_length sel _ w, p, hp, hexec.trans (congrArg _ (commandDone_parsed sel w p _ s))⟩

/-- Settles O19: the count is checked first, before any event is logged. -/
theorem parseCountMismatch : Obligations.ParseCountMismatch := by
  intro sel w s h1 h32 hlen
  rw [← tokens_commandStart] at hlen ⊢
  exact exec_parse_of_stop h1 h32 (parsePermutation_count hlen)

/-- Settles O20: the token loop logs the events of the tokens before the first out-of-range one and stops there. -/
theorem parseRangeError : Obligations.ParseRangeError := by
  refine ⟨fun sel w t s h1 h32 hlen ht hr hbad => ?_, sat32_toInt⟩
  rw [← tokens_commandStart] at hlen hbad ⊢
  exact exec_parse_of_stop h1 h32
    (parsePermutation_range h32 hlen ht (fun u hu => tokens_commandStart s sel ▸ hr u hu) hbad)

/-- Settles O21: the width is checked before anything else, so only the command start and the error show. -/
theorem parseBadWidth : Obligations.ParseBadWidth := by
  intro sel w s hw
  have hbody : parseBody sel w (commandStart s) =
      .stop (raiseFatal .badWidth (BitVec.ofNat 32 w) 0 sel (commandStart s)) := if_pos (by omega)
  rw [exec_parseCmd, runCommand_of_stop hbody]
  rfl

end Sys2Proof.Machine

/-! SUPPORT. Permutations as bijections, and the statement about the laws of the swizzler (41_swizzler.md R144). -/

namespace Sys2Proof.Machine

/-- The entries of a bijection below its width are distinct. -/
theorem IsBijection.nodup_map_permAt {p : PermFile} {w : Nat} (h : IsBijection p w) :
    ((List.range w).map (permAt p)).Nodup := by
  refine List.pairwise_map.2 (List.pairwise_lt_range.imp_of_mem fun {i k} hi hk hik heq => ?_)
  have heq' : i = k := h.2 i k (List.mem_range.1 hi) (List.mem_range.1 hk) heq
  exact Nat.ne_of_lt hik heq'

/-- A bijection leaves no index below its width out: with one left out there would be `w + 1` indices below `w`. -/
theorem IsBijection.exists_permAt_eq {p : PermFile} {w j : Nat} (h : IsBijection p w) (hj : j < w) :
    ∃ i, i < w ∧ permAt p i = j := by
  suffices hmem : j ∈ (List.range w).map (permAt p) by
    obtain ⟨i, hi, heq⟩ := List.mem_map.1 hmem
    exact ⟨i, List.mem_range.1 hi, heq⟩
  refine Decidable.byContradiction fun hout => ?_
  have hnodup : (j :: (List.range w).map (permAt p)).Nodup := List.nodup_cons.2 ⟨hout, h.nodup_map_permAt⟩
  have hsub : j :: (List.range w).map (permAt p) ⊆ List.range w := by
    refine List.cons_subset.2 ⟨List.mem_range.2 hj, fun k hk => ?_⟩
    obtain ⟨i, hi, rfl⟩ := List.mem_map.1 hk
    exact List.mem_range.2 (h.1 i (List.mem_range.1 hi))
  have hlen := hnodup.length_le_of_subset hsub
  rw [List.length_cons, List.length_map, List.length_range] at hlen
  exact Nat.not_succ_le_self w hlen

/-- A left inverse of a bijection of width `w` is a right inverse below `w`. -/
theorem IsBijection.permAt_inverse {p q : PermFile} {w j : Nat} (h : IsBijection p w)
    (hq : ∀ i, i < w → permAt q (permAt p i) = i) (hj : j < w) : permAt q j < w ∧ permAt p (permAt q j) = j := by
  obtain ⟨i, hi, rfl⟩ := h.exists_permAt_eq hj
  rw [hq i hi]
  exact ⟨hi, rfl⟩

/-- A word that agrees with the selected bits below the width is the result (41_swizzler.md R141). -/
theorem swizzleWord_eq_of_testBit {v w r : Nat} {p : PermFile} (hr : r < 2 ^ w)
    (h : ∀ j, j < w → r.testBit j = v.testBit (permAt p j)) : swizzleWord v p w = r := by
  refine Nat.eq_of_testBit_eq fun j => ?_
  rw [testBit_swizzleWord]
  by_cases hj : j < w
  · simp [hj, h j hj]
  · have hle : 2 ^ w ≤ 2 ^ j := Nat.pow_le_pow_right (by decide) (Nat.not_lt.1 hj)
    simp [hj, Nat.testBit_lt_two_pow (Nat.lt_of_lt_of_le hr hle)]

/-- The swizzle by the inverse undoes the swizzle by a bijection. -/
theorem swizzleWord_inverse {p q : PermFile} {w v : Nat} (h : IsBijection p w)
    (hq : ∀ i, i < w → permAt q (permAt p i) = i) (hv : v < 2 ^ w) : swizzleWord (swizzleWord v p w) q w = v := by
  refine swizzleWord_eq_of_testBit hv fun j hj => ?_
  obtain ⟨hlt, hpq⟩ := h.permAt_inverse hq hj
  rw [testBit_swizzleWord, hpq, decide_eq_true hlt, Bool.true_and]

theorem swizzleWord_identity {p : PermFile} {w : Nat} (h : ∀ i, i < w → permAt p i = i) (v : Nat) :
    swizzleWord v p w = v % 2 ^ w := by
  refine swizzleWord_eq_of_testBit (Nat.mod_lt v (Nat.two_pow_pos w)) fun j hj => ?_
  rw [Nat.testBit_mod_two_pow, h j hj, decide_eq_true hj, Bool.true_and]

/-- Every selected bit of the word of ones is a one, whichever it is. -/
theorem swizzleWord_ones {p : PermFile} {w : Nat} (h : ∀ i, i < w → permAt p i < w) :
    swizzleWord (2 ^ w - 1) p w = 2 ^ w - 1 := by
  refine swizzleWord_eq_of_testBit (Nat.sub_lt (Nat.two_pow_pos w) (by decide)) fun j hj => ?_
  rw [Nat.testBit_two_pow_sub_one, Nat.testBit_two_pow_sub_one, decide_eq_true hj, decide_eq_true (h j hj)]

/-- Settles O25: each law compares the bits below the width; the round trip needs that a bijection leaves no index
out. -/
theorem swizzleLaws : Obligations.SwizzleLaws :=
  ⟨fun _ _ _ _ => swizzleWord_inverse, fun _ _ v h => swizzleWord_identity h v, fun p w => swizzleWord_zero w p,
    fun _ _ => swizzleWord_ones⟩

end Sys2Proof.Machine

/-! SUPPORT. The endianness codec read bit by bit, and the statement about its inverses (42_endian.md R152, R153). -/

namespace Sys2Proof.Machine

/-! ## The byte order -/

/-- The place in an `n`-byte word, from its lowest byte up, of the byte at position `j` (42_endian.md R150, R151). -/
def bytePlace (n : Nat) (big : Bool) (j : Nat) : Nat := if big then n - 1 - j else j

theorem byteShift_eq (n : Nat) (big : Bool) (j : Nat) : byteShift n big j = 8 * bytePlace n big j := rfl

theorem bytePlace_lt {n j : Nat} (big : Bool) (hj : j < n) : bytePlace n big j < n := by
  cases big with
  | false => exact hj
  | true =>
    change n - 1 - j < n
    omega

/-- Either order is its own inverse. -/
theorem bytePlace_bytePlace {n j : Nat} (big : Bool) (hj : j < n) : bytePlace n big (bytePlace n big j) = j := by
  cases big with
  | false => rfl
  | true =>
    change n - 1 - (n - 1 - j) = j
    omega

@[simp] theorem bytePlace_one (big : Bool) : bytePlace 1 big 0 = 0 := by cases big <;> rfl

/-! ## The two inverses -/

theorem decodeWord_lt (b : List Byte) (n : Nat) (big : Bool) : decodeWord b n big < 2 ^ (8 * n) := by
  rw [decodeWord_eq_packed]
  exact packed_lt _ n

/-- Bit `i` of the byte at place `p` of a decoded word is bit `i` of the byte that belongs there. -/
theorem testBit_decodeWord_byte (b : List Byte) {n p i : Nat} (big : Bool) (hp : p < n) (hi : i < 8) :
    (decodeWord b n big).testBit (8 * p + i) = (b.getD (bytePlace n big p) 0).getLsbD i := by
  have hlt : 8 * p + i < 8 * n := by omega
  have hdiv : (8 * p + i) / 8 = p := by omega
  have hmod : (8 * p + i) % 8 = i := by omega
  rw [testBit_decodeWord, hdiv, hmod, decide_eq_true hlt, Bool.true_and]
  rfl

theorem encodeWord_decodeWord {b : List Byte} {n : Nat} (big : Bool) (hlen : b.length = n) :
    encodeWord (decodeWord b n big) n big = b := by
  have hbytes : ∀ j, j < n → (encodeWord (decodeWord b n big) n big).getD j 0 = b.getD j 0 := fun j hj =>
    BitVec.eq_of_getLsbD_eq fun i hi =>
      calc ((encodeWord (decodeWord b n big) n big).getD j 0).getLsbD i
        _ = (decodeWord b n big).testBit (8 * bytePlace n big j + i) := getLsbD_encodeWord _ big hj hi
        _ = (b.getD (bytePlace n big (bytePlace n big j)) 0).getLsbD i :=
          testBit_decodeWord_byte b big (bytePlace_lt big hj) hi
        _ = (b.getD j 0).getLsbD i := by rw [bytePlace_bytePlace big hj]
  refine List.ext_getElem (by rw [encodeWord_length, hlen]) fun j h1 h2 => ?_
  have hj := hbytes j (hlen ▸ h2)
  rw [List.getD_eq_getElem?_getD, List.getD_eq_getElem?_getD, List.getElem?_eq_getElem h1,
    List.getElem?_eq_getElem h2, Option.getD_some, Option.getD_some] at hj
  exact hj

theorem decodeWord_encodeWord {w n : Nat} (big : Bool) (hw : w < 2 ^ (8 * n)) :
    decodeWord (encodeWord w n big) n big = w := by
  refine Nat.eq_of_testBit_eq fun k => ?_
  by_cases hk : k < 8 * n
  · have hp : k / 8 < n := by omega
    have hi : k % 8 < 8 := Nat.mod_lt k (by decide)
    have hsplit : 8 * (k / 8) + k % 8 = k := Nat.div_add_mod k 8
    calc (decodeWord (encodeWord w n big) n big).testBit k
      _ = ((encodeWord w n big).getD (bytePlace n big (k / 8)) 0).getLsbD (k % 8) := by
        rw [← testBit_decodeWord_byte _ big hp hi, hsplit]
      _ = w.testBit (8 * bytePlace n big (bytePlace n big (k / 8)) + k % 8) :=
        getLsbD_encodeWord w big (bytePlace_lt big hp) hi
      _ = w.testBit k := by rw [bytePlace_bytePlace big hp, hsplit]
  · have hle : 2 ^ (8 * n) ≤ 2 ^ k := Nat.pow_le_pow_right (by decide) (Nat.not_lt.1 hk)
    rw [Nat.testBit_lt_two_pow (Nat.lt_of_lt_of_le (decodeWord_lt _ n big) hle),
      Nat.testBit_lt_two_pow (Nat.lt_of_lt_of_le hw hle)]

/-! ## One byte -/

theorem decodeWord_one (b : Byte) (big : Bool) : decodeWord [b] 1 big = b.toNat := by
  simp [decodeWord, byteShift_eq]

theorem encodeWord_one (w : Nat) (big : Bool) : encodeWord w 1 big = [BitVec.ofNat 8 w] := by
  simp [encodeWord, byteShift_eq]

/-- Settles O29: bit by bit, each direction moves a byte to its place, and taking the place twice brings it back. -/
theorem codecInverts : Obligations.CodecInverts :=
  ⟨fun b n big _ _ hlen => ⟨encodeWord_decodeWord big hlen, decodeWord_lt b n big⟩,
    fun _ _ big _ _ => decodeWord_encodeWord big, decodeWord_one, fun w big _ => encodeWord_one w big⟩

end Sys2Proof.Machine

/-! SUPPORT. What the two paddings of sizing give, and the statements about them (43_transform.md R161, R162, R165). -/

namespace Sys2Proof.Machine

/-! ## Powers of two -/

theorem isPow2_iff (n : Nat) : isPow2 n = true ↔ ∃ k, n = 2 ^ k := by
  unfold isPow2 floorLog2
  rw [decide_eq_true_iff]
  constructor
  · rintro ⟨-, h⟩
    exact ⟨_, h.symm⟩
  · rintro ⟨k, rfl⟩
    exact ⟨Nat.ne_of_gt (Nat.two_pow_pos k), by rw [Nat.log2_two_pow]⟩

theorem nextPow2_eq_two_pow (n : Nat) : ∃ k, nextPow2 n = 2 ^ k := by
  unfold nextPow2
  split
  · next h => exact (isPow2_iff n).1 h
  · split
    · exact ⟨0, rfl⟩
    · exact ⟨_, rfl⟩

theorem le_nextPow2 (n : Nat) : n ≤ nextPow2 n := by
  unfold nextPow2
  split
  · exact Nat.le_refl n
  · split
    · omega
    · exact Nat.le_of_lt Nat.lt_log2_self

/-- A power of two divided by another and rounded up: the quotient when it is whole, else 1. -/
theorem exists_two_pow_eq_ceilDiv (k b : Nat) : ∃ j, (2 ^ k + 2 ^ b - 1) / 2 ^ b = 2 ^ j := by
  have hpos := Nat.two_pow_pos b
  by_cases h : b ≤ k
  · have hk : 2 ^ k = 2 ^ (k - b) * 2 ^ b := by rw [← Nat.pow_add, Nat.sub_add_cancel h]
    exact ⟨k - b, Nat.div_eq_of_lt_le (by omega) (by rw [Nat.add_mul]; omega)⟩
  · have hlt : 2 ^ k < 2 ^ b := Nat.pow_lt_pow_right (by decide) (by omega)
    have hk := Nat.two_pow_pos k
    exact ⟨0, Nat.div_eq_of_lt_le (by omega) (by omega)⟩

/-! ## Multiples -/

theorem le_ceilMult (n : Nat) {b : Nat} (hb : 1 ≤ b) : n ≤ ceilMult n b := by
  have hdiv := Nat.div_add_mod' (n + b - 1) b
  have hmod := Nat.mod_lt (n + b - 1) hb
  unfold ceilMult
  omega

theorem ceilMult_of_mod_eq_zero {n b : Nat} (hb : 1 ≤ b) (h : n % b = 0) : ceilMult n b = n := by
  obtain ⟨q, rfl⟩ := Nat.dvd_of_mod_eq_zero h
  rw [Nat.mul_comm]
  have hq : (q * b + b - 1) / b = q := Nat.div_eq_of_lt_le (by omega) (by rw [Nat.add_mul]; omega)
  rw [ceilMult, hq]

/-! ## The two paddings -/

/-- The test of the first padding (43_transform.md R161). -/
theorem aen_and_not_isPow2_iff (n : Nat) (aen : Bool) :
    (aen && !isPow2 n) = true ↔ aen = true ∧ ¬ ∃ k, n = 2 ^ k := by
  rw [Bool.and_eq_true, Bool.not_eq_true', ← Bool.not_eq_true, isPow2_iff]

theorem paddedPow2_of_pads {n : Nat} {aen : Bool} (h : aen = true ∧ ¬ ∃ k, n = 2 ^ k) :
    paddedPow2 n aen = nextPow2 n := if_pos ((aen_and_not_isPow2_iff n aen).2 h)

theorem paddedPow2_of_keeps {n : Nat} {aen : Bool} (h : ¬ (aen = true ∧ ¬ ∃ k, n = 2 ^ k)) :
    paddedPow2 n aen = n := if_neg (mt (aen_and_not_isPow2_iff n aen).1 h)

theorem le_paddedPow2 (n : Nat) (aen : Bool) : n ≤ paddedPow2 n aen := by
  unfold paddedPow2
  split
  · exact le_nextPow2 n
  · exact Nat.le_refl n

/-- With the address permutation enabled the first padding always ends at a power of two. -/
theorem paddedPow2_true_eq_two_pow (n : Nat) : ∃ k, paddedPow2 n true = 2 ^ k := by
  by_cases h : ∃ k, n = 2 ^ k
  · rwa [paddedPow2_of_keeps fun hp => hp.2 h]
  · rw [paddedPow2_of_pads ⟨rfl, h⟩]
    exact nextPow2_eq_two_pow n

/-- The second padding goes to the least multiple of BPW whether or not its test asks for it. -/
theorem paddedSize_eq_ceilMult (n : Nat) {bpw : Nat} (hb : 1 ≤ bpw) (aen : Bool) :
    paddedSize n bpw aen = ceilMult (paddedPow2 n aen) bpw := by
  simp only [paddedSize]
  split
  · rfl
  · next h => exact (ceilMult_of_mod_eq_zero hb (Decidable.not_not.1 h)).symm

theorem le_paddedSize (n : Nat) {bpw : Nat} (hb : 1 ≤ bpw) (aen : Bool) : n ≤ paddedSize n bpw aen := by
  rw [paddedSize_eq_ceilMult n hb]
  exact Nat.le_trans (le_paddedPow2 n aen) (le_ceilMult _ hb)

/-- The word count is the size after the first padding in words, rounded up. -/
theorem words_eq_ceilDiv {s : State} (h : BpwLegal s) :
    s.words = (paddedPow2 s.fileSize.toNat s.cfg.aen + s.cfg.bpw.toNat - 1) / s.cfg.bpw.toNat := by
  have hws : s.sizing.ws = ceilMult (paddedPow2 s.fileSize.toNat s.cfg.aen) s.cfg.bpw.toNat :=
    paddedSize_eq_ceilMult _ h.1 _
  rw [State.words, hws]
  exact Nat.mul_div_cancel _ h.1

/-- With the address permutation enabled, words of 1, 2 or 4 bytes come in a power of two (43_transform.md R165). -/
theorem words_eq_two_pow {s : State} (h : BpwLegal s) (haen : s.cfg.aen = true) (h3 : s.cfg.bpw.toNat ≠ 3) :
    ∃ k, s.words = 2 ^ k := by
  obtain ⟨h1, h4⟩ := h
  obtain ⟨k, hk⟩ := paddedPow2_true_eq_two_pow s.fileSize.toNat
  have hbpw : ∃ b, s.cfg.bpw.toNat = 2 ^ b := by
    have hcases : s.cfg.bpw.toNat = 1 ∨ s.cfg.bpw.toNat = 2 ∨ s.cfg.bpw.toNat = 4 := by omega
    rcases hcases with h | h | h
    · exact ⟨0, h⟩
    · exact ⟨1, h⟩
    · exact ⟨2, h⟩
  obtain ⟨b, hb⟩ := hbpw
  rw [words_eq_ceilDiv ⟨h1, h4⟩, haen, hk, hb]
  exact exists_two_pow_eq_ceilDiv k b

/-! ## The warnings -/

/-- The events sizing logs: one for each padding that takes place (43_transform.md R161, R162). -/
theorem mem_sizingEvents {n bpw : Nat} {aen : Bool} {e : DiagEvent} :
    e ∈ sizingEvents n bpw aen ↔
      ((aen = true ∧ ¬ ∃ k, n = 2 ^ k) ∧ e = sizeEvent .notPow2 n) ∨
      (paddedPow2 n aen % bpw ≠ 0 ∧ e = sizeEvent .notMult (paddedPow2 n aen)) := by
  rw [sizingEvents, List.mem_append, List.mem_ite_nil_right, List.mem_ite_nil_right, List.mem_singleton,
    List.mem_singleton, aen_and_not_isPow2_iff]

theorem sizingEvents_length_le (n bpw : Nat) (aen : Bool) : (sizingEvents n bpw aen).length ≤ 2 := by
  have hone : ∀ (p : Prop) [Decidable p] (e : DiagEvent), (if p then [e] else []).length ≤ 1 := by
    intro p _ e
    split
    · exact Nat.le_refl 1
    · exact Nat.zero_le 1
  rw [sizingEvents, List.length_append]
  exact Nat.add_le_add (hone _ _) (hone _ _)

/-! ## The statements -/

/-- Settles O32: each warning stands under the test of its own padding, and the two differ in kind. -/
theorem paddingAndItsWarnings : Obligations.PaddingAndItsWarnings := by
  intro n bpw aen _
  have hkind : ∀ k, sizeEvent .notPow2 n ≠ sizeEvent .notMult k := fun _ h => nomatch congrArg DiagEvent.kind h
  refine ⟨paddedPow2_of_pads, paddedPow2_of_keeps, ite_not _ _ _, ?_, ?_, fun e he => ?_,
    sizingEvents_length_le n bpw aen⟩
  · rw [mem_sizingEvents]
    exact ⟨fun h => h.elim And.left fun h => absurd h.2 (hkind _), fun h => .inl ⟨h, rfl⟩⟩
  · constructor
    · rintro ⟨e, he, hk⟩
      rcases mem_sizingEvents.1 he with ⟨-, rfl⟩ | ⟨hmod, -⟩
      · exact nomatch hk
      · exact hmod
    · exact fun hmod => ⟨_, mem_sizingEvents.2 (.inr ⟨hmod, rfl⟩), rfl⟩
  · exact (mem_sizingEvents.1 he).imp And.right And.right

/-- Eight bytes in words of three with the address permutation enabled: 8 is a power of two, and three words hold it. -/
def threeWordState : State :=
  { State.reset with cfg := { aen := true, den := false, big := false, bpw := 3 }, fileSize := 8 }

/-- Settles O33: the working size is a rounding up of FILE_SIZE, and the check on the word count bounds the rest. -/
theorem sizingBounds : Obligations.SizingBounds := by
  refine ⟨fun s h => ?_, threeWordState, ?_, rfl, rfl, ?_⟩
  · obtain ⟨hnab1, hnab32⟩ := sizing_nab h
    have hbpw := h.1
    refine ⟨le_paddedSize _ hbpw.1 _, paddedSize_mod _ _, sizing_ws_lt h, hnab1, hnab32, ?_, words_eq_two_pow hbpw⟩
    obtain ⟨h1, h4⟩ := hbpw
    change 8 * s.cfg.bpw.toNat ∈ [8, 16, 24, 32]
    simp only [List.mem_cons, List.not_mem_nil, or_false]
    omega
  · unfold SizingOk BpwLegal
    decide
  · rw [← isPow2_iff]
    decide

end Sys2Proof.Machine

/-! SUPPORT. What a TRANSFORM whose sizing and parses succeed hands to its output phase, where its words go, and the
statements about its output and its capacity check (43_transform.md R170, R171, R177, R178). -/

namespace Sys2Proof.Machine

/-! ## The destinations -/

/-- Whatever permutation a state holds, every word of a successful sizing goes to a place below the word count: the
permuted index is below `2 ^ nab`, and that is no more than the words there are (43_transform.md R178). -/
theorem outAddr_add_le {s : State} (h : SizingOk s) (t : State) {i : Nat} (hi : i < s.words) :
    outAddr t s.sizing s.cfg.bpw.toNat (i * s.cfg.bpw.toNat) + s.cfg.bpw.toNat ≤ s.sizing.ws := by
  have hplace : (if t.cfg.aen then swizzleWord i t.aperm s.sizing.nab else i) < s.words := by
    split
    · exact Nat.lt_of_lt_of_le (swizzleWord_lt i s.sizing.nab t.aperm) (two_pow_nab_le h)
    · exact hi
  rw [outAddr_mul t s.sizing h.1.1, sizing_ws_eq, ← Nat.succ_mul]
  exact Nat.mul_le_mul_right _ hplace

/-- Settles O38: a destination is a whole number of words, below the word count. -/
theorem everyWriteLiesInsideTheOutput : Obligations.EveryWriteLiesInsideTheOutput := by
  intro s i h hi
  refine ⟨?_, outAddr_add_le h s hi⟩
  rw [outAddr_mul s s.sizing h.1.1]
  exact Nat.mul_mod_left _ _

/-! ## Before the output phase -/

/-- `s` inside a TRANSFORM whose sizing and parses have succeeded: the log complete, the sizes set, and `pa` and `pd` in
the registers of the enabled permutations (43_transform.md R163, R168, R169). -/
def State.prepared (s : State) (pa pd : PermFile) : State :=
  { s with
    status := endStatus .busy false s.transformEvents
    err := ErrRegs.clear
    diag := s.transformEvents
    workingSize := BitVec.ofNat 64 s.sizing.ws
    nab := BitVec.ofNat 6 s.sizing.nab
    ndb := BitVec.ofNat 6 s.sizing.ndb
    apw := if s.cfg.aen then BitVec.ofNat 6 s.sizing.nab else s.apw
    aperm := if s.cfg.aen then pa else s.aperm
    dpw := if s.cfg.den then BitVec.ofNat 6 s.sizing.ndb else s.dpw
    dperm := if s.cfg.den then pd else s.dperm }

theorem sized_commandStart (s : State) :
    sized (commandStart s) = warnAll (sizingEvents s.fileSize.toNat s.cfg.bpw.toNat s.cfg.aen)
      (commandStart (s.setSizing s.sizing.ws s.sizing.nab s.sizing.ndb)) := by
  rw [sized, warnAll_commandStart, warnAll_commandStart]
  rfl

/-- A parse inside a command adds its DUP events to the log and loads its permutation. -/
theorem parsedIf_warnAll_commandStart (en : Bool) (sel : Sel) (w : Nat) (p : PermFile) (toks : List (List Byte))
    (es : List DiagEvent) (s : State) :
    parsedIf en sel w p toks (warnAll es (commandStart s)) =
      warnAll (es ++ if en then dupEvents sel toks w else [])
        (commandStart (if en then (s.setPerm sel p).setPw sel (BitVec.ofNat 6 w) else s)) := by
  cases en with
  | false => exact congrArg (warnAll · (commandStart s)) (List.append_nil es).symm
  | true =>
    change parsed sel w p toks _ = warnAll (es ++ dupEvents sel toks w) (commandStart ((s.setPerm sel p).setPw sel _))
    rw [parsed, ← warnAll_append, warnAll_commandStart, warnAll_commandStart]
    cases sel <;> rfl

theorem parsedIf_sized_commandStart (s : State) (pa pd : PermFile) :
    parsedIf s.cfg.den .data s.sizing.ndb pd (s.tokens .data)
      (parsedIf s.cfg.aen .addr s.sizing.nab pa (s.tokens .addr) (sized (commandStart s))) = s.prepared pa pd := by
  rw [sized_commandStart, parsedIf_warnAll_commandStart, parsedIf_warnAll_commandStart, warnAll_commandStart]
  unfold State.prepared State.transformEvents
  cases s.cfg.aen <;> cases s.cfg.den <;> rfl

/-- A TRANSFORM whose sizing and parses succeed comes to its output phase with both parses complete. -/
theorem transformBody_of_specsOk {s : State} (h : SizingOk s) (hspecs : SpecsOk s) :
    ∃ pa pd, (s.cfg.aen = true → PermParsed (s.tokens .addr) s.sizing.nab s.aperm pa) ∧
      (s.cfg.den = true → PermParsed (s.tokens .data) s.sizing.ndb s.dperm pd) ∧
      transformBody (commandStart s) = outputPhase s.sizing (s.prepared pa pd) := by
  obtain ⟨ha, hd⟩ := hspecs
  have hcases := transformBody_cases (commandStart s)
  simp only [SpecOk, tokens_commandStart] at hcases
  rcases hcases with ⟨hb, -⟩ | ⟨-, hs, -⟩ | ⟨-, haen, hbad, -⟩ |
    ⟨-, -, pa, hpa, ⟨hden, hbad, -⟩ | ⟨-, pd, hpd, hbody⟩⟩
  · exact absurd h.1 hb
  · exact absurd h hs
  · exact absurd (ha haen) hbad
  · exact absurd (hd hden) hbad
  · exact ⟨pa, pd, hpa, hpd, hbody.trans (congrArg _ (parsedIf_sized_commandStart s pa pd))⟩

/-! ## The registers before the output phase -/

section
variable {s : State} (h : SizingOk s) (pa pd : PermFile)
include h

theorem prepared_workingSize_toNat : (s.prepared pa pd).workingSize.toNat = s.sizing.ws :=
  Nat.mod_eq_of_lt (Nat.lt_trans (sizing_ws_lt h) (by decide))

theorem prepared_nab_toNat : (s.prepared pa pd).nab.toNat = s.sizing.nab :=
  Nat.mod_eq_of_lt (Nat.lt_of_le_of_lt (sizing_nab h).2 (by decide))

theorem prepared_ndb_toNat : (s.prepared pa pd).ndb.toNat = s.sizing.ndb :=
  Nat.mod_eq_of_lt (Nat.lt_of_le_of_lt (sizing_ndb h) (by decide))

/-- A parsed address permutation stands in its registers, at the address width of the sizing. -/
theorem prepared_addr (hpa : s.cfg.aen = true → PermParsed (s.tokens .addr) s.sizing.nab s.aperm pa)
    (haen : s.cfg.aen = true) :
    (s.prepared pa pd).apw.toNat = s.sizing.nab ∧
      PermParsed (s.tokens .addr) s.sizing.nab s.aperm (s.prepared pa pd).aperm := by
  have hapw : (s.prepared pa pd).apw = (s.prepared pa pd).nab := if_pos haen
  have haperm : (s.prepared pa pd).aperm = pa := if_pos haen
  rw [hapw, haperm]
  exact ⟨prepared_nab_toNat h pa pd, hpa haen⟩

/-- A parsed data permutation stands in its registers, at the data width of the sizing. -/
theorem prepared_data (hpd : s.cfg.den = true → PermParsed (s.tokens .data) s.sizing.ndb s.dperm pd)
    (hden : s.cfg.den = true) :
    (s.prepared pa pd).dpw.toNat = s.sizing.ndb ∧
      PermParsed (s.tokens .data) s.sizing.ndb s.dperm (s.prepared pa pd).dperm := by
  have hdpw : (s.prepared pa pd).dpw = (s.prepared pa pd).ndb := if_pos hden
  have hdperm : (s.prepared pa pd).dperm = pd := if_pos hden
  rw [hdpw, hdperm]
  exact ⟨prepared_ndb_toNat h pa pd, hpd hden⟩

end

theorem prepared_addr_of_disabled {s : State} (pa pd : PermFile) (haen : s.cfg.aen = false) :
    (s.prepared pa pd).apw = s.apw ∧ (s.prepared pa pd).aperm = s.aperm := by
  simp [State.prepared, haen]

theorem prepared_data_of_disabled {s : State} (pa pd : PermFile) (hden : s.cfg.den = false) :
    (s.prepared pa pd).dpw = s.dpw ∧ (s.prepared pa pd).dperm = s.dperm := by
  simp [State.prepared, hden]

/-! ## The capacity check -/

/-- Settles O42: the capacity check stops the command with the log and the registers of the phases before it. -/
theorem transformBeyondCapacity : Obligations.TransformBeyondCapacity := by
  intro s h hspecs hcap
  obtain ⟨pa, pd, hpa, hpd, hbody⟩ := transformBody_of_specsOk h hspecs
  exact ⟨_, runCommand_of_stop (hbody.trans (if_pos hcap)), rfl, rfl, rfl, prepared_workingSize_toNat h pa pd,
    prepared_nab_toNat h pa pd, prepared_ndb_toNat h pa pd, prepared_addr h pa pd hpa,
    prepared_data h pa pd hpd, prepared_addr_of_disabled pa pd, prepared_data_of_disabled pa pd, fun _ => rfl⟩

/-! ## The output -/

/-- A TRANSFORM that passes its checks stores the output image of its prepared state (43_transform.md R181, R185). -/
theorem exec_transform_of_ready {s : State} (h : TransformReady s) :
    ∃ pa pd, (s.cfg.aen = true → PermParsed (s.tokens .addr) s.sizing.nab s.aperm pa) ∧
      (s.cfg.den = true → PermParsed (s.tokens .data) s.sizing.ndb s.dperm pd) ∧
      exec .transform s = .next (commandDone
        ((s.prepared pa pd).setOutput (outputImage (s.prepared pa pd) s.sizing s.cfg.bpw.toNat))) := by
  obtain ⟨hsize, hspecs, hcap⟩ := h
  obtain ⟨pa, pd, hpa, hpd, hbody⟩ := transformBody_of_specsOk hsize hspecs
  exact ⟨pa, pd, hpa, hpd, runCommand_of_ok (hbody.trans (if_neg (Nat.not_lt.2 hcap)))⟩

/-- Settles O37: the loop's effect on each byte, over a zero fill that no word reaches beyond. -/
theorem transformOutputBytes : Obligations.TransformOutputBytes := by
  intro s t h hexec
  obtain ⟨pa, pd, -, -, hready⟩ := exec_transform_of_ready h
  obtain rfl : t = _ := Host.Outcome.next.inj (hexec.symm.trans hready)
  obtain ⟨hlast, hkept⟩ :=
    read_outputLoop (s.prepared pa pd) s.sizing h.1.1.1 (s.obuf.zeroFill s.sizing.ws) s.words
  refine ⟨fun i j hi hj hlater => byte_of_read (hlast i j hi hj hlater), fun k hk hno => ?_, fun k hk => ?_⟩
  · exact byte_of_read ((hkept k hno).trans ((read_zeroFill _ _ _).trans (if_pos hk)))
  · have hread := hkept k fun i hi hcover =>
      absurd (Nat.lt_of_lt_of_le hcover.2 (outAddr_add_le h.1 _ hi)) (Nat.not_lt.2 hk)
    rw [read_zeroFill, if_neg (Nat.not_lt.2 hk)] at hread
    exact congrArg (Option.getD · (Config.freeByte s.memDraw .obuf k)) hread

end Sys2Proof.Machine

/-! SUPPORT. The two ways a command ends, and the statements about its errors (60_exceptions.md R192 to R194). -/

namespace Sys2Proof.Machine

/-! ## The end of a phase -/

/-- The fatal error state `t` that a phase begun in `s` stops in: an error is recorded, and what a command keeps until
it stores its output is kept (60_exceptions.md R193, R194). -/
structure FailedFrom (s t : State) : Prop where
  state : t.status.state = .error
  code : t.err.code ≠ .none
  kept : t.beforeOutput = s.beforeOutput

/-- A phase begun in `s` ends well with the error registers as they were, or stops in a fatal error. -/
def Res.EndsFrom {α : Type} (s : State) : Res α → Prop
  | .ok _ t => t.err = s.err
  | .stop t => FailedFrom s t
  | .refuse _ => True

theorem failedFrom_raiseFatal {s t : State} {c : ErrCode} (hc : c ≠ .none) (h : t.beforeOutput = s.beforeOutput)
    (i0 i1 : Word) (sel : Sel) : FailedFrom s (raiseFatal c i0 i1 sel t) where
  state := rfl
  code := hc
  kept := h

/-- A failed parse records an error (40_parser.md R126). -/
theorem ParseError.code_ne_none {sel : Sel} {toks : List (List Byte)} {w : Nat} {e : ErrRegs} {es : List DiagEvent}
    (h : ParseError sel toks w e es) : e.code ≠ .none := by
  rw [h.code_eq]
  split <;> decide

theorem failedFrom_parseFailure {s t : State} {sel : Sel} {toks : List (List Byte)} {w : Nat} {e : ErrRegs}
    {es : List DiagEvent} (he : ParseError sel toks w e es) (h : t.beforeOutput = s.beforeOutput) :
    FailedFrom s (parseFailure sel e es t) :=
  failedFrom_raiseFatal he.code_ne_none (by simpa using h) _ _ _

/-! ## What sizing and a parse keep -/

@[simp] theorem sized_err (s : State) : (sized s).err = s.err := by simp [sized]

@[simp] theorem beforeOutput_sized (s : State) : (sized s).beforeOutput = s.beforeOutput := by simp [sized]

@[simp] theorem parsedIf_err (en : Bool) (sel : Sel) (w : Nat) (p : PermFile) (toks : List (List Byte)) (s : State) :
    (parsedIf en sel w p toks s).err = s.err := by
  apply parsedIf_field State.err <;> simp

@[simp] theorem beforeOutput_parsedIf (en : Bool) (sel : Sel) (w : Nat) (p : PermFile) (toks : List (List Byte))
    (s : State) : (parsedIf en sel w p toks s).beforeOutput = s.beforeOutput := by
  apply parsedIf_field State.beforeOutput
  · exact fun s e => beforeOutput_warnAll [e] s
  · simp
  · simp

/-! ## The end of each command's body -/

/-- A command that begins with the BPW check stops there, or ends as the rest of it does (60_exceptions.md R191). -/
theorem checkBpw_andThen_endsFrom {α : Type} {s : State} {f : Nat → State → Res α}
    (hf : ∀ n, (f n s).EndsFrom s) : ((checkBpw s).andThen f).EndsFrom s := by
  rw [checkBpw_eq]
  split
  · exact hf _
  · exact failedFrom_raiseFatal (by decide) rfl _ _ _

theorem decodeBody_endsFrom (s : State) : (decodeBody s).EndsFrom s := checkBpw_andThen_endsFrom fun _ => rfl

theorem encodeBody_endsFrom (s : State) : (encodeBody s).EndsFrom s := checkBpw_andThen_endsFrom fun _ => rfl

theorem swizzleBody_endsFrom (sel : Sel) (s : State) : (swizzleBody sel s).EndsFrom s := by
  unfold swizzleBody
  split
  · exact failedFrom_raiseFatal (by decide) rfl _ _ _
  · split
    · trivial
    · exact rfl

theorem parseBody_endsFrom (sel : Sel) (w : Nat) (s : State) : (parseBody sel w s).EndsFrom s := by
  unfold parseBody
  split
  · exact failedFrom_raiseFatal (by decide) rfl _ _ _
  next hw =>
    rcases parsePermutation_cases s sel (w := w) (by omega) with ⟨-, p, -, hok⟩ | ⟨-, e, es, he, hstop⟩
    · rw [hok]
      exact parsedIf_err true sel w p (s.tokens sel) s
    · rw [hstop]
      exact failedFrom_parseFailure he rfl

theorem sizeBody_endsFrom (s : State) : (sizeBody s).EndsFrom s := by
  unfold sizeBody
  by_cases hb : BpwLegal s
  · by_cases hw : 2 ≤ s.words ∧ s.words < 2 ^ 33
    · rw [sizingPhase_of_sizingOk ⟨hb, hw⟩]
      exact sized_err s
    · rw [sizingPhase_of_illegalWords hb hw]
      exact failedFrom_raiseFatal (by decide) (by simp) _ _ _
  · rw [sizingPhase_of_illegalBpw hb]
    exact failedFrom_raiseFatal (by decide) rfl _ _ _

/-- The capacity check comes before the output is stored (43_transform.md R170). -/
theorem outputPhase_endsFrom {s t : State} (z : Sizing) (herr : t.err = s.err)
    (hkept : t.beforeOutput = s.beforeOutput) : (outputPhase z t).EndsFrom s := by
  unfold outputPhase
  split
  · exact failedFrom_raiseFatal (by decide) hkept _ _ _
  · exact herr

theorem transformBody_endsFrom (s : State) : (transformBody s).EndsFrom s := by
  rcases transformBody_cases s with ⟨-, hbpw⟩ | ⟨-, -, hwidth⟩ | ⟨-, -, -, e, es, he, haddr⟩ |
    ⟨-, -, pa, -, ⟨-, -, e, es, he, hdata⟩ | ⟨-, pd, -, hout⟩⟩
  · rw [hbpw]
    exact failedFrom_raiseFatal (by decide) rfl _ _ _
  · rw [hwidth]
    exact failedFrom_raiseFatal (by decide) (by simp) _ _ _
  · rw [haddr]
    exact failedFrom_parseFailure he (by simp)
  · rw [hdata]
    exact failedFrom_parseFailure he (by simp)
  · rw [hout]
    exact outputPhase_endsFrom s.sizing (by simp) (by simp)

theorem commandBody_endsFrom (i : Instr) (s : State) : (commandBody i s).EndsFrom s := by
  cases i with
  | size => exact sizeBody_endsFrom s
  | transform => exact transformBody_endsFrom s
  | parseA w => exact parseBody_endsFrom .addr w s
  | parseD w => exact parseBody_endsFrom .data w s
  | swizzleA => exact swizzleBody_endsFrom .addr s
  | swizzleD => exact swizzleBody_endsFrom .data s
  | decode => exact decodeBody_endsFrom s
  | encode => exact encodeBody_endsFrom s

/-! ## The two ways a command ends -/

/-- A command ends DONE with the error registers its start cleared, or in a fatal error with what its start left to be
kept (60_exceptions.md R204). -/
theorem exec_done_or_failed {i : Instr} {s t : State} (h : exec i s = .next t) :
    (t.status.state = .done ∧ t.err = ErrRegs.clear) ∨ FailedFrom (commandStart s) t := by
  have hends := commandBody_endsFrom i (commandStart s)
  rw [exec_eq_runCommand] at h
  rcases runCommand_eq_next.1 h with ⟨u, hu, rfl⟩ | hu
  · rw [hu] at hends
    exact .inl ⟨rfl, hends⟩
  · rw [hu] at hends
    exact .inr hends

/-- Settles O46: a body that ends well leaves the error registers as the command start cleared them, and one that stops
has recorded an error. -/
theorem everyCommandEndsDoneOrError : Obligations.EveryCommandEndsDoneOrError := fun _ _ _ h =>
  (exec_done_or_failed h).imp_right fun hf => ⟨hf.state, hf.code⟩

/-- Settles O47: no fatal error is raised after the output is stored, so OBUF and the OUT_VALID that the command start
cleared are kept. -/
theorem fatalErrorLeavesOutputBuffer : Obligations.FatalErrorLeavesOutputBuffer := by
  intro i s t h herror
  rcases exec_done_or_failed h with ⟨hdone, -⟩ | hf
  · exact absurd (herror.symm.trans hdone) (by decide)
  · have kept {α : Type} (f : State → α) : f t.beforeOutput = f (commandStart s).beforeOutput := congrArg f hf.kept
    exact ⟨kept (·.status.outValid), byte_congr (kept State.obuf) (kept State.memDraw)⟩

end Sys2Proof.Machine

/-! SUPPORT. The round trip of a spelled permutation (30_encoding.md R88). -/

namespace Sys2Proof.Machine

/-- Settles O23: each index is printed as its numeral, which the parser reads back and puts in its slot. -/
theorem spelledPermutationParsesBack : Obligations.SpelledPermutationParsesBack := by
  intro sel idx s h1 h32 hr hs
  obtain ⟨t, hexec, hdone, -, hpw, hperm⟩ := exec_parse_specText hs h1 h32 hr
  exact ⟨t, hexec, hdone, hpw, hperm⟩

end Sys2Proof.Machine

/-! SUPPORT. The states each command can end in, each as one update of the state before the command: what the command
changed, and then how it ended. -/

namespace Sys2Proof.Machine

/-! ## Ends and effects -/

/-- `s` at the end of a command: STATE and OUT_VALID, the error registers, and the log with its warning bits
(10_state.md R25; 60_exceptions.md R192, R193, R197). -/
def State.ended (s : State) (state : RunState) (outValid : Bool) (e : ErrRegs) (es : List DiagEvent) : State :=
  { s with status := endStatus state outValid es, err := e, diag := es }

/-- The events sizing logs (43_transform.md R161, R162). -/
def State.sizeLog (s : State) : List DiagEvent := sizingEvents s.fileSize.toNat s.cfg.bpw.toNat s.cfg.aen

/-- `s` with WORKING_SIZE and BITS of its sizing (43_transform.md R163). -/
def State.resized (s : State) : State := s.setSizing s.sizing.ws s.sizing.nab s.sizing.ndb

/-- `s` with a permutation loaded at a width (40_parser.md R120). -/
def State.loaded (s : State) (sel : Sel) (w : Nat) (p : PermFile) : State :=
  (s.setPerm sel p).setPw sel (BitVec.ofNat 6 w)

/-- The same for a permutation that may not be enabled (43_transform.md R168). -/
def State.loadedIf (s : State) (en : Bool) (sel : Sel) (w : Nat) (p : PermFile) : State :=
  if en then s.loaded sel w p else s

/-- `s` after a failed parse: no width, and free values in the entries (40_parser.md R121). -/
def State.unloaded (s : State) (sel : Sel) : State := (s.losePerm sel).setPw sel 0

/-- The ADDR_WIDTH error of a sizing (43_transform.md R163). -/
def State.widthError (s : State) : ErrRegs :=
  { code := .addrWidth, sel := .addr
    info0 := if s.words = 0 then 0xFFFFFFFF else BitVec.ofNat 32 (floorLog2 s.words), info1 := 0 }

/-- The BAD_BPW error (10_state.md R29). -/
def State.bpwError (s : State) : ErrRegs :=
  { code := .badBpw, sel := .addr, info0 := s.cfg.bpw.setWidth 32, info1 := 0 }

/-- The ALLOC error (43_transform.md R170). -/
def State.allocError (s : State) : ErrRegs :=
  { code := .alloc, sel := .addr, info0 := BitVec.ofNat 32 s.sizing.ws
    info1 := BitVec.ofNat 32 (s.sizing.ws / 2 ^ 32) }

/-- A failed parse inside a command that has logged `es` adds its own events. -/
theorem parseFailure_warnAll_commandStart (sel : Sel) (e : ErrRegs) (es es' : List DiagEvent) (s : State) :
    parseFailure sel e es' (warnAll es (commandStart s)) = (s.unloaded sel).ended .error false e (es ++ es') := by
  rw [parseFailure, warnAll_setPw, ← warnAll_append, warnAll_commandStart]
  cases sel <;> rfl

/-! ## DECODE, ENCODE and the SWIZZLEs -/

/-- The commands that only compute RESULT. -/
inductive ResultEnd (s : State) : State → Prop where
  | stopped (e : ErrRegs) (he : e.code ≠ .none) : ResultEnd s (s.ended .error false e [])
  | done (v : Word) : ResultEnd s ((s.setResult v).ended .done false ErrRegs.clear [])

theorem checkBpw_of_legal {s : State} (h : BpwLegal s) : checkBpw s = .ok s.cfg.bpw.toNat s :=
  (checkBpw_eq s).trans (if_pos h)

/-- A command that computes RESULT and ends well. -/
theorem runCommand_of_setResult {body : State → Res Unit} {s : State} {v : Word}
    (h : body (commandStart s) = .ok () ((commandStart s).setResult v)) :
    runCommand body s = .next ((s.setResult v).ended .done false ErrRegs.clear []) := runCommand_of_ok h

/-- The word DECODE computes (42_endian.md R154). -/
def State.decodeResult (s : State) : Word :=
  BitVec.ofNat 32 (decodeWord (packedBytes s.operand s.cfg.bpw.toNat) s.cfg.bpw.toNat s.cfg.big)

/-- The word ENCODE computes (42_endian.md R155). -/
def State.encodeResult (s : State) : Word :=
  BitVec.ofNat 32 (decodeWord (encodeWord (s.operand.toNat % 2 ^ (8 * s.cfg.bpw.toNat)) s.cfg.bpw.toNat s.cfg.big)
    s.cfg.bpw.toNat false)

theorem exec_decode_of_legal {s : State} (h : BpwLegal s) :
    exec .decode s = .next ((s.setResult s.decodeResult).ended .done false ErrRegs.clear []) := by
  have hcheck := checkBpw_of_legal (s := commandStart s) h
  exact runCommand_of_setResult (by rw [decodeBody, hcheck]; rfl)

theorem exec_encode_of_legal {s : State} (h : BpwLegal s) :
    exec .encode s = .next ((s.setResult s.encodeResult).ended .done false ErrRegs.clear []) := by
  have hcheck := checkBpw_of_legal (s := commandStart s) h
  exact runCommand_of_setResult (by rw [encodeBody, hcheck]; rfl)

theorem exec_swizzleCmd (sel : Sel) (s : State) : exec (swizzleCmd sel) s = runCommand (swizzleBody sel) s := by
  cases sel <;> rfl

/-- A SWIZZLE of a loaded permutation (41_swizzler.md R145, R146). -/
theorem exec_swizzle_of_loaded {s : State} {sel : Sel} (h1 : 1 ≤ (s.pw sel).toNat) (h32 : (s.pw sel).toNat ≤ 32) :
    exec (swizzleCmd sel) s = .next ((s.setResult (BitVec.ofNat 32
      (swizzleWord s.operand.toNat (s.perm sel) (s.pw sel).toNat))).ended .done false ErrRegs.clear []) := by
  have hpw : (commandStart s).pw sel = s.pw sel := by cases sel <;> rfl
  have hperm : (commandStart s).perm sel = s.perm sel := by cases sel <;> rfl
  have hne : s.pw sel ≠ 0 := fun h0 => absurd (h0 ▸ h1) (by decide)
  rw [exec_swizzleCmd]
  refine runCommand_of_setResult ?_
  rw [swizzleBody, hpw, hperm, if_neg hne, if_neg (Nat.not_lt.2 h32)]
  rfl

/-- A SWIZZLE with no loaded permutation (41_swizzler.md R147). -/
theorem exec_swizzle_of_noPerm {s : State} {sel : Sel} (h : s.pw sel = 0) :
    exec (swizzleCmd sel) s =
      .next (s.ended .error false { code := .noPerm, sel := sel, info0 := 0, info1 := 0 } []) := by
  have hpw : (commandStart s).pw sel = 0 := by cases sel <;> exact h
  rw [exec_swizzleCmd]
  exact runCommand_of_stop (if_pos hpw)

/-- A SWIZZLE above width 32 (41_swizzler.md R143). -/
theorem exec_swizzle_of_above32 {s : State} {sel : Sel} (h : 32 < (s.pw sel).toNat) :
    exec (swizzleCmd sel) s = .refused .swizzleWidthAbove32 := by
  have hpw : (commandStart s).pw sel = s.pw sel := by cases sel <;> rfl
  have hne : s.pw sel ≠ 0 := fun h0 => absurd (h0 ▸ h) (by decide)
  rw [exec_swizzleCmd, runCommand, swizzleBody, hpw, if_neg hne, if_pos h]

theorem exec_codec_end {i : Instr} (hi : i = .decode ∨ i = .encode) (s : State) :
    ∃ t, exec i s = .next t ∧ ResultEnd s t := by
  by_cases hb : BpwLegal s
  · rcases hi with rfl | rfl
    · exact ⟨_, exec_decode_of_legal hb, .done _⟩
    · exact ⟨_, exec_encode_of_legal hb, .done _⟩
  · exact ⟨_, exec_of_illegalBpw hb (by rcases hi with rfl | rfl <;> decide), .stopped s.bpwError nofun⟩

theorem exec_swizzle_end (sel : Sel) {s : State} (h : (s.pw sel).toNat ≤ 32) :
    ∃ t, exec (swizzleCmd sel) s = .next t ∧ ResultEnd s t := by
  by_cases h0 : s.pw sel = 0
  · exact ⟨_, exec_swizzle_of_noPerm h0, .stopped _ nofun⟩
  · have h1 : 1 ≤ (s.pw sel).toNat := Nat.pos_of_ne_zero fun h => h0 (BitVec.eq_of_toNat_eq h)
    exact ⟨_, exec_swizzle_of_loaded h1 h, .done _⟩

/-- Everything a command that computes RESULT can do. -/
theorem exec_result_end {i : Instr} {s t : State} (hi : i ∈ [Instr.swizzleA, .swizzleD, .decode, .encode])
    (h : exec i s = .next t) : ResultEnd s t := by
  have swizzle (sel : Sel) (h : exec (swizzleCmd sel) s = .next t) : ResultEnd s t := by
    by_cases h32 : (s.pw sel).toNat ≤ 32
    · obtain ⟨u, hu, hend⟩ := exec_swizzle_end sel h32
      exact Host.Outcome.next.inj (hu.symm.trans h) ▸ hend
    · exact nomatch (exec_swizzle_of_above32 (Nat.not_le.1 h32)).symm.trans h
  have codec (hi : i = .decode ∨ i = .encode) : ResultEnd s t := by
    obtain ⟨u, hu, hend⟩ := exec_codec_end hi s
    exact Host.Outcome.next.inj (hu.symm.trans h) ▸ hend
  cases i with
  | swizzleA => exact swizzle .addr h
  | swizzleD => exact swizzle .data h
  | decode => exact codec (.inl rfl)
  | encode => exact codec (.inr rfl)
  | size | transform | parseA | parseD => simp at hi

/-! ## PARSE -/

/-- The ends of a PARSE (40_parser.md R125, R126). -/
inductive ParseEnd (s : State) (sel : Sel) (w : Nat) : State → Prop where
  | badWidth (h : w = 0 ∨ 32 < w) : ParseEnd s sel w
      (s.ended .error false { code := .badWidth, sel := sel, info0 := BitVec.ofNat 32 w, info1 := 0 } [])
  | failed (h1 : 1 ≤ w) (h32 : w ≤ 32) (e : ErrRegs) (es : List DiagEvent) (he : ParseError sel (s.tokens sel) w e es) :
      ParseEnd s sel w ((s.unloaded sel).ended .error false e es)
  | done (h1 : 1 ≤ w) (h32 : w ≤ 32) (h : SpecOk s sel w) (p : PermFile)
      (hp : PermParsed (s.tokens sel) w (s.perm sel) p) :
      ParseEnd s sel w ((s.loaded sel w p).ended .done false ErrRegs.clear (dupEvents sel (s.tokens sel) w))

theorem exec_parse_end (sel : Sel) (w : Nat) (s : State) :
    ∃ t, exec (parseCmd sel w) s = .next t ∧ ParseEnd s sel w t := by
  by_cases hw : w = 0 ∨ 32 < w
  · exact ⟨_, parseBadWidth sel w s hw, .badWidth hw⟩
  have h1 : 1 ≤ w := by omega
  have h32 : w ≤ 32 := by omega
  by_cases hok : SpecOk s sel w
  · obtain ⟨-, p, hp, hexec⟩ := parseOfGoodSpec sel w s h1 h32 hok
    refine ⟨_, hexec.trans (congrArg _ ?_), .done h1 h32 hok p hp⟩
    cases sel <;> rfl
  · obtain ⟨e, es, he, hstop⟩ := ((parsePermutation_cases (commandStart s) sel h32).resolve_left
      fun h => hok (by simpa only [SpecOk, tokens_commandStart] using h.1)).2
    have hbody : parseBody sel w (commandStart s) = parsePermutation sel w (commandStart s) := if_neg (by omega)
    rw [tokens_commandStart] at he
    refine ⟨_, ?_, .failed h1 h32 e es he⟩
    rw [exec_parseCmd, runCommand_of_stop (hbody.trans hstop)]
    exact congrArg _ (parseFailure_warnAll_commandStart sel e [] es s)

/-! ## SIZE -/

/-- The ends of a SIZE (43_transform.md R163, R166). -/
inductive SizeEnd (s : State) : State → Prop where
  | badBpw (hb : ¬ BpwLegal s) : SizeEnd s (s.ended .error false s.bpwError [])
  | badWords (hb : BpwLegal s) (hs : ¬ SizingOk s) : SizeEnd s (s.ended .error false s.widthError s.sizeLog)
  | done (h : SizingOk s) : SizeEnd s (s.resized.ended .done false ErrRegs.clear s.sizeLog)

theorem sized_commandStart_eq_ended (s : State) :
    sized (commandStart s) = s.resized.ended .busy false ErrRegs.clear s.sizeLog :=
  (sized_commandStart s).trans (warnAll_commandStart _ _)

theorem exec_size_of_sizingOk {s : State} (h : SizingOk s) :
    exec .size s = .next (s.resized.ended .done false ErrRegs.clear s.sizeLog) := by
  have hphase := sizingPhase_of_sizingOk (s := commandStart s) h
  rw [sized_commandStart_eq_ended] at hphase
  have hbody : sizeBody (commandStart s) = .ok () (s.resized.ended .busy false ErrRegs.clear s.sizeLog) := by
    rw [sizeBody, hphase]
    rfl
  exact runCommand_of_ok hbody

/-- The word count is checked right after BPW, in both commands that size (43_transform.md R163). -/
theorem exec_of_badWords {s : State} {i : Instr} (hb : BpwLegal s) (hs : ¬ SizingOk s)
    (hi : i = .size ∨ i = .transform) : exec i s = .next (s.ended .error false s.widthError s.sizeLog) := by
  have hphase := sizingPhase_of_illegalWords (s := commandStart s) hb fun hw => hs ⟨hb, hw⟩
  rw [warnAll_commandStart] at hphase
  rcases hi with rfl | rfl
  · exact runCommand_of_stop (by rw [sizeBody, hphase]; rfl)
  · exact runCommand_of_stop (by rw [transformBody, hphase]; rfl)

theorem exec_of_badBpw {s : State} {i : Instr} (hb : ¬ BpwLegal s) (hi : i ∈ [Instr.size, .transform, .decode, .encode]) :
    exec i s = .next (s.ended .error false s.bpwError []) := exec_of_illegalBpw hb hi

theorem exec_size_end (s : State) : ∃ t, exec .size s = .next t ∧ SizeEnd s t := by
  by_cases hs : SizingOk s
  · exact ⟨_, exec_size_of_sizingOk hs, .done hs⟩
  by_cases hb : BpwLegal s
  · exact ⟨_, exec_of_badWords hb hs (.inl rfl), .badWords hb hs⟩
  · exact ⟨_, exec_of_badBpw hb (by decide), .badBpw hb⟩

/-! ## TRANSFORM -/

/-- The events of the address parse of a TRANSFORM, when it succeeds (43_transform.md R168). -/
def State.addrLog (s : State) : List DiagEvent :=
  if s.cfg.aen then dupEvents .addr (s.tokens .addr) s.sizing.nab else []

/-- `s` after the sizing and the address parse of a TRANSFORM. -/
def State.addrLoaded (s : State) (pa : PermFile) : State := s.resized.loadedIf s.cfg.aen .addr s.sizing.nab pa

/-- The ends of a TRANSFORM (43_transform.md R169, R185; 60_exceptions.md R195, R199). -/
inductive TransformEnd (s : State) : State → Prop where
  | badBpw (hb : ¬ BpwLegal s) : TransformEnd s (s.ended .error false s.bpwError [])
  | badWords (hb : BpwLegal s) (hs : ¬ SizingOk s) : TransformEnd s (s.ended .error false s.widthError s.sizeLog)
  | badAddr (h : SizingOk s) (haen : s.cfg.aen = true) (hbad : ¬ SpecOk s .addr s.sizing.nab) (e : ErrRegs)
      (es : List DiagEvent) (he : ParseError .addr (s.tokens .addr) s.sizing.nab e es) :
      TransformEnd s ((s.resized.unloaded .addr).ended .error false e (s.sizeLog ++ es))
  | badData (h : SizingOk s) (hok : s.cfg.aen = true → SpecOk s .addr s.sizing.nab) (pa : PermFile)
      (hpa : s.cfg.aen = true → PermParsed (s.tokens .addr) s.sizing.nab s.aperm pa) (hden : s.cfg.den = true)
      (hbad : ¬ SpecOk s .data s.sizing.ndb) (e : ErrRegs) (es : List DiagEvent)
      (he : ParseError .data (s.tokens .data) s.sizing.ndb e es) :
      TransformEnd s (((s.addrLoaded pa).unloaded .data).ended .error false e (s.sizeLog ++ s.addrLog ++ es))
  | full (h : SizingOk s) (hspecs : SpecsOk s) (hcap : s.params.bufBytes < s.sizing.ws) (pa pd : PermFile)
      (hpa : s.cfg.aen = true → PermParsed (s.tokens .addr) s.sizing.nab s.aperm pa)
      (hpd : s.cfg.den = true → PermParsed (s.tokens .data) s.sizing.ndb s.dperm pd) :
      TransformEnd s ((s.prepared pa pd).ended .error false s.allocError s.transformEvents)
  | done (h : TransformReady s) (pa pd : PermFile)
      (hpa : s.cfg.aen = true → PermParsed (s.tokens .addr) s.sizing.nab s.aperm pa)
      (hpd : s.cfg.den = true → PermParsed (s.tokens .data) s.sizing.ndb s.dperm pd) :
      TransformEnd s (((s.prepared pa pd).setOutput (outputImage (s.prepared pa pd) s.sizing s.cfg.bpw.toNat)).ended
        .done true ErrRegs.clear s.transformEvents)

/-- A TRANSFORM whose address spec is not good (43_transform.md R168). -/
theorem exec_transform_of_badAddr {s : State} (h : SizingOk s) (haen : s.cfg.aen = true)
    (hbad : ¬ SpecOk s .addr s.sizing.nab) :
    ∃ e es, ParseError .addr (s.tokens .addr) s.sizing.nab e es ∧
      exec .transform s = .next ((s.resized.unloaded .addr).ended .error false e (s.sizeLog ++ es)) := by
  have hcases := transformBody_cases (commandStart s)
  simp only [SpecOk, tokens_commandStart] at hcases
  rcases hcases with ⟨hb, -⟩ | ⟨-, hs, -⟩ | ⟨-, -, -, e, es, he, hbody⟩ | ⟨-, hok, -⟩
  · exact absurd h.1 hb
  · exact absurd h hs
  · rw [sized_commandStart, ← State.resized, parseFailure_warnAll_commandStart] at hbody
    exact ⟨e, es, he, runCommand_of_stop hbody⟩
  · exact absurd (hok haen) hbad

/-- A TRANSFORM whose data spec is the first that is not good (43_transform.md R168). -/
theorem exec_transform_of_badData {s : State} (h : SizingOk s) (hok : s.cfg.aen = true → SpecOk s .addr s.sizing.nab)
    (hden : s.cfg.den = true) (hbad : ¬ SpecOk s .data s.sizing.ndb) :
    ∃ pa e es, (s.cfg.aen = true → PermParsed (s.tokens .addr) s.sizing.nab s.aperm pa) ∧
      ParseError .data (s.tokens .data) s.sizing.ndb e es ∧
      exec .transform s =
        .next (((s.addrLoaded pa).unloaded .data).ended .error false e (s.sizeLog ++ s.addrLog ++ es)) := by
  have hcases := transformBody_cases (commandStart s)
  simp only [SpecOk, tokens_commandStart] at hcases
  rcases hcases with ⟨hb, -⟩ | ⟨-, hs, -⟩ | ⟨-, haen, hno, -⟩ |
    ⟨-, -, pa, hpa, ⟨-, -, e, es, he, hbody⟩ | ⟨hdata, -⟩⟩
  · exact absurd h.1 hb
  · exact absurd h hs
  · exact absurd (hok haen) hno
  · have hparsed := parsedIf_warnAll_commandStart s.cfg.aen .addr s.sizing.nab pa (s.tokens .addr) s.sizeLog s.resized
    have hstate := parseFailure_warnAll_commandStart .data e (s.sizeLog ++ s.addrLog) es (s.addrLoaded pa)
    refine ⟨pa, e, es, hpa, he, runCommand_of_stop (hbody.trans (congrArg _ (Eq.trans ?_ hstate)))⟩
    exact congrArg _ ((congrArg _ (sized_commandStart s)).trans hparsed)
  · exact absurd (hdata hden) hbad

/-- A TRANSFORM whose output does not fit OBUF (43_transform.md R170). -/
theorem exec_transform_of_full {s : State} (h : SizingOk s) (hspecs : SpecsOk s)
    (hcap : s.params.bufBytes < s.sizing.ws) :
    ∃ pa pd, (s.cfg.aen = true → PermParsed (s.tokens .addr) s.sizing.nab s.aperm pa) ∧
      (s.cfg.den = true → PermParsed (s.tokens .data) s.sizing.ndb s.dperm pd) ∧
      exec .transform s = .next ((s.prepared pa pd).ended .error false s.allocError s.transformEvents) := by
  obtain ⟨pa, pd, hpa, hpd, hbody⟩ := transformBody_of_specsOk h hspecs
  exact ⟨pa, pd, hpa, hpd, runCommand_of_stop (hbody.trans (if_pos hcap))⟩

/-- A TRANSFORM that passes its checks (43_transform.md R181, R185). -/
theorem exec_transform_of_passed {s : State} (h : TransformReady s) :
    ∃ pa pd, (s.cfg.aen = true → PermParsed (s.tokens .addr) s.sizing.nab s.aperm pa) ∧
      (s.cfg.den = true → PermParsed (s.tokens .data) s.sizing.ndb s.dperm pd) ∧
      exec .transform s = .next (((s.prepared pa pd).setOutput
        (outputImage (s.prepared pa pd) s.sizing s.cfg.bpw.toNat)).ended .done true ErrRegs.clear s.transformEvents) :=
  exec_transform_of_ready h

/-- Everything a TRANSFORM can do. -/
theorem exec_transform_end (s : State) : ∃ t, exec .transform s = .next t ∧ TransformEnd s t := by
  by_cases hb : BpwLegal s
  case neg => exact ⟨_, exec_of_badBpw hb (by decide), .badBpw hb⟩
  by_cases hs : SizingOk s
  case neg => exact ⟨_, exec_of_badWords hb hs (.inr rfl), .badWords hb hs⟩
  by_cases ha : s.cfg.aen = true → SpecOk s .addr s.sizing.nab
  case neg =>
    obtain ⟨haen, hbad⟩ := Classical.not_imp.1 ha
    obtain ⟨e, es, he, hexec⟩ := exec_transform_of_badAddr hs haen hbad
    exact ⟨_, hexec, .badAddr hs haen hbad e es he⟩
  by_cases hd : s.cfg.den = true → SpecOk s .data s.sizing.ndb
  case neg =>
    obtain ⟨hden, hbad⟩ := Classical.not_imp.1 hd
    obtain ⟨pa, e, es, hpa, he, hexec⟩ := exec_transform_of_badData hs ha hden hbad
    exact ⟨_, hexec, .badData hs ha pa hpa hden hbad e es he⟩
  by_cases hcap : s.params.bufBytes < s.sizing.ws
  · obtain ⟨pa, pd, hpa, hpd, hexec⟩ := exec_transform_of_full hs ⟨ha, hd⟩ hcap
    exact ⟨_, hexec, .full hs ⟨ha, hd⟩ hcap pa pd hpa hpd⟩
  · have hready : TransformReady s := ⟨hs, ⟨ha, hd⟩, Nat.not_lt.1 hcap⟩
    obtain ⟨pa, pd, hpa, hpd, hexec⟩ := exec_transform_of_passed hready
    exact ⟨_, hexec, .done hready pa pd hpa hpd⟩

/-! ## The ends of an answered command -/

section
variable {s t : State}

theorem parseEnd_of_exec {sel : Sel} {w : Nat} (h : exec (parseCmd sel w) s = .next t) : ParseEnd s sel w t := by
  obtain ⟨u, hu, hend⟩ := exec_parse_end sel w s
  exact Host.Outcome.next.inj (hu.symm.trans h) ▸ hend

theorem sizeEnd_of_exec (h : exec .size s = .next t) : SizeEnd s t := by
  obtain ⟨u, hu, hend⟩ := exec_size_end s
  exact Host.Outcome.next.inj (hu.symm.trans h) ▸ hend

theorem transformEnd_of_exec (h : exec .transform s = .next t) : TransformEnd s t := by
  obtain ⟨u, hu, hend⟩ := exec_transform_end s
  exact Host.Outcome.next.inj (hu.symm.trans h) ▸ hend

end

end Sys2Proof.Machine

/-! SUPPORT. Everything one access of the host can do, and the statements about the invariant that every step keeps. -/

namespace Sys2Proof.Machine

/-! ## Everything one access can do -/

/-- The state after an illegal command word (30_encoding.md R85). -/
def State.rejected (s : State) (c : Word) : State :=
  s.ended .error false { code := .badCmd, sel := .addr, info0 := c, info1 := 0 } []

/-- A write to the register space is ignored, runs or rejects a command, or writes one register (10_state.md R23, R24;
20_memory.md R72). -/
theorem regWrite_cases (off nbytes : Nat) (v : Word) (s : State) :
    regWrite off nbytes v s = .next s ∨ (∃ i, regWrite off nbytes v s = exec i s) ∨
      regWrite off nbytes v s = .next (s.rejected v) ∨ ∃ r : Reg, regWrite off nbytes v s = .next (r.write v s) := by
  by_cases hn : nbytes = 4
  case neg => exact .inl (regWrite_of_noRegister (.inr hn) v s)
  cases hoff : Reg.ofOffset off with
  | none => exact .inl (regWrite_of_noRegister (.inl hoff) v s)
  | some r =>
    by_cases hr : r = .cmd
    · have hcmd : regWrite off nbytes v s = writeCmd v s := by simp [regWrite, hn, hoff, hr]
      rw [hcmd, writeCmd]
      cases decode v with
      | cmd i => exact .inr (.inl ⟨i, rfl⟩)
      | badCmd e => exact .inr (.inr (.inl rfl))
    · exact .inr (.inr (.inr ⟨r, by simp [regWrite, hn, hoff, hr]⟩))

/-- The states an admitted access can answer. -/
inductive AccessEnd (s : State) : Access → State → Prop where
  | ignored (off nbytes : Nat) (v : Word) : AccessEnd s (.regWrite off nbytes v) s
  | command (off nbytes : Nat) (v : Word) (i : Instr) (t : State) (h : exec i s = .next t) :
      AccessEnd s (.regWrite off nbytes v) t
  | rejected (off nbytes : Nat) (v : Word) : AccessEnd s (.regWrite off nbytes v) (s.rejected v)
  | register (off nbytes : Nat) (v : Word) (r : Reg) : AccessEnd s (.regWrite off nbytes v) (r.write v s)
  | byteWrite (sp : Space) (k : Nat) (b : Byte) : AccessEnd s (.byteWrite sp k b) (hostWriteByte sp k b s)
  | read (a : Access) (v : Word) : AccessEnd s a { s with rdata := v }
  | reset : AccessEnd s .reset (resetEngine s)

theorem accessEnd_of_regWrite {off nbytes : Nat} {v : Word} {s t : State} (h : regWrite off nbytes v s = .next t) :
    AccessEnd s (.regWrite off nbytes v) t := by
  have next {u : State} (hu : regWrite off nbytes v s = .next u) : t = u := Host.Outcome.next.inj (h.symm.trans hu)
  rcases regWrite_cases off nbytes v s with hw | ⟨i, hw⟩ | hw | ⟨r, hw⟩
  · exact next hw ▸ .ignored off nbytes v
  · exact .command off nbytes v i t (hw.symm.trans h)
  · exact next hw ▸ .rejected off nbytes v
  · exact next hw ▸ .register off nbytes v r

theorem accessEnd_of_hostAccess {a : Access} {s t : State} (h : hostAccess a s = .next t) : AccessEnd s a t := by
  unfold hostAccess at h
  split at h
  · exact nomatch h
  · cases a with
    | regWrite off nbytes v => exact accessEnd_of_regWrite h
    | regRead off nbytes => exact Host.Outcome.next.inj h ▸ .read _ _
    | byteWrite sp k b => exact Host.Outcome.next.inj h ▸ .byteWrite sp k b
    | byteRead sp k => exact Host.Outcome.next.inj h ▸ .read _ _
    | reset => exact Host.Outcome.next.inj h ▸ .reset

theorem step_of_bus {s : State} {a : Access} {rest : List Access} (h : s.bus = a :: rest) :
    step s = hostAccess a { s with bus := rest } := by rw [step, h]

theorem step_of_idleBus {s : State} (h : s.bus = []) : step s = .next s := by rw [step, h]

/-! ## The part of the invariant that no outcome touches -/

/-- The clauses of the invariant that do not speak of STATUS, the error registers or the log. -/
structure State.Sound (s : State) : Prop where
  params : s.params.wf
  apwLe : s.apw.toNat ≤ 32
  dpwLe : s.dpw.toNat ≤ 32
  apermBelow : PermBelow s.aperm s.apw
  dpermBelow : PermBelow s.dperm s.dpw
  workingSizeLt : s.workingSize.toNat < 2 ^ 35
  nabLe : s.nab.toNat ≤ 32
  ndbOk : s.ndb.toNat ∈ [0, 8, 16, 24, 32]
  aspecLenLe : s.aspecLen.toNat ≤ s.params.specBytes
  dspecLenLe : s.dspecLen.toNat ≤ s.params.specBytes
  ibufOk : MemOk s.ibuf s.params.bufBytes
  obufOk : MemOk s.obuf s.params.bufBytes
  aspecOk : MemOk s.aspec s.params.specBytes
  dspecOk : MemOk s.dspec s.params.specBytes
  drawn : s.memDraw < s.draw

theorem State.Inv.sound {s : State} (h : s.Inv) : s.Sound := { h with }

/-- The warning bits a command ends with are those of its log (10_state.md R25). -/
theorem endStatus_warningsAgree (st : RunState) (ov : Bool) (es : List DiagEvent) :
    WarningsAgree (endStatus st ov es) es := fun k => by cases k <;> rfl

section
variable {s : State} {es : List DiagEvent}

/-- A sound state is a good one once a command has ended well with a short enough log. -/
theorem State.Sound.inv_done (h : s.Sound) {ov : Bool} (hlen : es.length ≤ 64)
    (hfits : ov = true → s.workingSize.toNat ≤ s.params.bufBytes) : (s.ended .done ov ErrRegs.clear es).Inv :=
  { h with
    notBusy := nofun
    outValid := fun _ => rfl
    errIff := ⟨nofun, fun hc => absurd rfl hc⟩
    errClear := fun _ => rfl
    warnings := endStatus_warningsAgree .done ov es
    diagLen := hlen
    outFits := hfits }

/-- The same when it has ended in a fatal error. -/
theorem State.Sound.inv_error (h : s.Sound) {e : ErrRegs} (he : e.code ≠ .none) (hlen : es.length ≤ 64) :
    (s.ended .error false e es).Inv :=
  { h with
    notBusy := nofun
    outValid := nofun
    errIff := ⟨fun _ => he, fun _ => rfl⟩
    errClear := fun hne => absurd rfl hne
    warnings := endStatus_warningsAgree .error false es
    diagLen := hlen
    outFits := nofun }

/-! ## Effects that keep a state sound -/

theorem State.Sound.setResult (h : s.Sound) (v : Word) : (s.setResult v).Sound := { h with }

theorem State.Sound.resized (h : s.Sound) (hs : SizingOk s) : s.resized.Sound := by
  obtain ⟨-, -, -, -, -, hndb, -⟩ := sizingBounds.1 s hs
  have hws : (BitVec.ofNat 64 s.sizing.ws).toNat = s.sizing.ws :=
    Nat.mod_eq_of_lt (Nat.lt_trans (sizing_ws_lt hs) (by decide))
  have hnab : (BitVec.ofNat 6 s.sizing.nab).toNat = s.sizing.nab :=
    Nat.mod_eq_of_lt (Nat.lt_of_le_of_lt (sizing_nab hs).2 (by decide))
  have hndb' : (BitVec.ofNat 6 s.sizing.ndb).toNat = s.sizing.ndb :=
    Nat.mod_eq_of_lt (Nat.lt_of_le_of_lt (sizing_ndb hs) (by decide))
  exact { h with
    workingSizeLt := hws ▸ sizing_ws_lt hs
    nabLe := hnab ▸ (sizing_nab hs).2
    ndbOk := hndb' ▸ List.mem_cons_of_mem 0 hndb }

/-- A width that a parse loads is at most 32 and fits its field. -/
theorem ofNat6_toNat {w : Nat} (hw : w ≤ 32) : (BitVec.ofNat 6 w).toNat = w := Nat.mod_eq_of_lt (by omega)

/-- A good parse leaves entries below its width (40_parser.md R116, R120). -/
theorem permBelow_of_parsed {sel : Sel} {w : Nat} {old p : PermFile} (hw : w ≤ 32) (hok : SpecOk s sel w)
    (hp : PermParsed (s.tokens sel) w old p) : PermBelow p (BitVec.ofNat 6 w) := by
  rw [PermBelow, ofNat6_toNat hw]
  intro i hi
  have hslot : w - 1 - (w - 1 - i) = i := by omega
  have hentry := hp.1 (w - 1 - i) (by omega)
  have hrange := hok.2 (w - 1 - i) (by omega)
  unfold InRange at hrange
  rw [hslot] at hentry
  omega

theorem State.Sound.loaded (h : s.Sound) {sel : Sel} {w : Nat} {p : PermFile} (hw : w ≤ 32)
    (hp : PermBelow p (BitVec.ofNat 6 w)) : (s.loaded sel w p).Sound := by
  have hle : (BitVec.ofNat 6 w).toNat ≤ 32 := Nat.le_trans (Nat.le_of_eq (ofNat6_toNat hw)) hw
  cases sel with
  | addr => exact { h with apwLe := hle, apermBelow := hp }
  | data => exact { h with dpwLe := hle, dpermBelow := hp }

theorem State.Sound.loadedIf (h : s.Sound) {en : Bool} {sel : Sel} {w : Nat} {p : PermFile} (hw : w ≤ 32)
    (hp : en = true → PermBelow p (BitVec.ofNat 6 w)) : (s.loadedIf en sel w p).Sound := by
  cases en with
  | true => exact h.loaded hw (hp rfl)
  | false => exact h

/-- A failed parse leaves no width, so no entry to be below it, and takes one more draw. -/
theorem State.Sound.unloaded (h : s.Sound) (sel : Sel) : (s.unloaded sel).Sound := by
  have hbelow (p : PermFile) : PermBelow p 0 := fun i hi => absurd hi (Nat.not_lt_zero i)
  cases sel with
  | addr => exact { h with apwLe := Nat.zero_le _, apermBelow := hbelow _, drawn := Nat.lt_succ_of_lt h.drawn }
  | data => exact { h with dpwLe := Nat.zero_le _, dpermBelow := hbelow _, drawn := Nat.lt_succ_of_lt h.drawn }

end

/-! ## The output -/

/-- Every word of the loop lies below the working size, so OBUF stays inside its size (43_transform.md R178). -/
theorem memOk_outputImage {s : State} (hs : SizingOk s) (t : State) {size : Nat} (h : MemOk t.obuf size)
    (hcap : s.sizing.ws ≤ size) : MemOk (outputImage t s.sizing s.cfg.bpw.toNat) size := by
  refine ⟨wf_outputImage t s.sizing s.cfg.bpw.toNat h.1, ?_⟩
  have hstore (m : Memory) (hm : ∀ c ∈ m, c.1 < size) {i : Nat} (hi : i < s.words) :
      ∀ c ∈ storeWord t s.sizing s.cfg.bpw.toNat m (i * s.cfg.bpw.toNat), c.1 < size :=
    bound_writeBytes hm (by
      rw [encodeWord_length]
      exact Nat.le_trans (outAddr_add_le hs t hi) hcap)
  refine List.foldlRecOn (motive := fun m : Memory => ∀ c ∈ m, c.1 < size) _ _ (bound_zeroFill h.2 hcap)
    fun m hm pos hpos => ?_
  obtain ⟨i, hi, rfl⟩ := List.mem_map.1 hpos
  exact hstore m hm (List.mem_range.1 hi)

theorem prepared_eq_ended (s : State) (pa pd : PermFile) :
    s.prepared pa pd = ((s.addrLoaded pa).loadedIf s.cfg.den .data s.sizing.ndb pd).ended .busy false ErrRegs.clear
      s.transformEvents := by
  unfold State.prepared State.addrLoaded State.loadedIf
  cases s.cfg.aen <;> cases s.cfg.den <;> rfl

section
variable {s : State} (h : s.Sound) (hs : SizingOk s)
include h hs

theorem State.Sound.addrLoaded (hok : s.cfg.aen = true → SpecOk s .addr s.sizing.nab) {pa : PermFile}
    (hpa : s.cfg.aen = true → PermParsed (s.tokens .addr) s.sizing.nab s.aperm pa) : (s.addrLoaded pa).Sound :=
  (h.resized hs).loadedIf (sizing_nab hs).2 fun haen => permBelow_of_parsed (sizing_nab hs).2 (hok haen) (hpa haen)

theorem State.Sound.prepared (hspecs : SpecsOk s) {pa pd : PermFile}
    (hpa : s.cfg.aen = true → PermParsed (s.tokens .addr) s.sizing.nab s.aperm pa)
    (hpd : s.cfg.den = true → PermParsed (s.tokens .data) s.sizing.ndb s.dperm pd) : (s.prepared pa pd).Sound := by
  obtain ⟨ha, hd⟩ := hspecs
  have hloaded : ((s.addrLoaded pa).loadedIf s.cfg.den .data s.sizing.ndb pd).Sound :=
    (h.addrLoaded hs ha hpa).loadedIf (sizing_ndb hs) fun hden =>
      permBelow_of_parsed (sizing_ndb hs) (hd hden) (hpd hden)
  rw [prepared_eq_ended]
  exact { hloaded with }

end

/-! ## The log -/

theorem sizeLog_length_le (s : State) : s.sizeLog.length ≤ 2 := sizingEvents_length_le _ _ _

/-- The log of the phases of a TRANSFORM: two events of sizing, and 31 of each parse (10_state.md R37). -/
theorem addrLog_length_le {s : State} (hs : SizingOk s) : s.addrLog.length ≤ 31 := by
  unfold State.addrLog
  split
  · exact Nat.le_trans (dupEvents_length _ _ _) (by have := (sizing_nab hs).2; omega)
  · exact Nat.zero_le _

theorem transformEvents_length_le {s : State} (hs : SizingOk s) : s.transformEvents.length ≤ 64 := by
  have hsize := sizeLog_length_le s
  have haddr := addrLog_length_le hs
  have hdata : (if s.cfg.den then dupEvents .data (s.tokens .data) s.sizing.ndb else []).length ≤ 31 := by
    split
    · exact Nat.le_trans (dupEvents_length _ _ _) (by have := sizing_ndb hs; omega)
    · exact Nat.zero_le _
  have happend : s.transformEvents = s.sizeLog ++ s.addrLog ++
    if s.cfg.den then dupEvents .data (s.tokens .data) s.sizing.ndb else [] := rfl
  rw [happend, List.length_append, List.length_append]
  omega

/-! ## Commands keep the invariant -/

section
variable {s t : State} (h : s.Sound)
include h

theorem ResultEnd.inv (hend : ResultEnd s t) : t.Inv := by
  cases hend with
  | stopped e he => exact h.inv_error he (Nat.zero_le _)
  | done v => exact (h.setResult v).inv_done (Nat.zero_le _) nofun

theorem ParseEnd.inv {sel : Sel} {w : Nat} (hend : ParseEnd s sel w t) : t.Inv := by
  cases hend with
  | badWidth _ => exact h.inv_error nofun (Nat.zero_le _)
  | failed h1 h32 e es he =>
    have hlen := he.events_length
    exact (h.unloaded sel).inv_error he.code_ne_none (by omega)
  | done h1 h32 hok p hp =>
    have hlen := dupEvents_length sel (s.tokens sel) w
    exact (h.loaded h32 (permBelow_of_parsed h32 hok hp)).inv_done (by omega) nofun

theorem SizeEnd.inv (hend : SizeEnd s t) : t.Inv := by
  have hlen : s.sizeLog.length ≤ 64 := Nat.le_trans (sizeLog_length_le s) (by decide)
  cases hend with
  | badBpw _ => exact h.inv_error nofun (Nat.zero_le _)
  | badWords _ _ => exact h.inv_error nofun hlen
  | done hs => exact (h.resized hs).inv_done hlen nofun

theorem TransformEnd.inv (hend : TransformEnd s t) : t.Inv := by
  have hsize := sizeLog_length_le s
  cases hend with
  | badBpw _ => exact h.inv_error nofun (Nat.zero_le _)
  | badWords _ _ => exact h.inv_error nofun (by omega)
  | badAddr hs _ _ e es he =>
    have hlen := he.events_length
    have hnab := (sizing_nab hs).2
    exact ((h.resized hs).unloaded .addr).inv_error he.code_ne_none (by rw [List.length_append]; omega)
  | badData hs hok pa hpa _ _ e es he =>
    have hlen := he.events_length
    have hndb := sizing_ndb hs
    have haddr := addrLog_length_le hs
    exact ((h.addrLoaded hs hok hpa).unloaded .data).inv_error he.code_ne_none
      (by rw [List.length_append, List.length_append]; omega)
  | full hs hspecs _ pa pd hpa hpd =>
    exact (h.prepared hs hspecs hpa hpd).inv_error nofun (transformEvents_length_le hs)
  | done hready pa pd hpa hpd =>
    obtain ⟨hs, hspecs, hcap⟩ := hready
    have hprep := h.prepared hs hspecs hpa hpd
    have hobuf := memOk_outputImage hs (s.prepared pa pd) hprep.obufOk hcap
    have hout : ((s.prepared pa pd).setOutput (outputImage (s.prepared pa pd) s.sizing s.cfg.bpw.toNat)).Sound :=
      { hprep with obufOk := hobuf }
    exact hout.inv_done (transformEvents_length_le hs) fun _ => (prepared_workingSize_toNat hs pa pd).symm ▸ hcap

/-- A command leaves a good state, whatever STATUS, the error registers and the log held before it. -/
theorem exec_inv {i : Instr} (hexec : exec i s = .next t) : t.Inv := by
  cases i with
  | size => exact (sizeEnd_of_exec hexec).inv h
  | transform => exact (transformEnd_of_exec hexec).inv h
  | parseA w => exact (parseEnd_of_exec (sel := .addr) hexec).inv h
  | parseD w => exact (parseEnd_of_exec (sel := .data) hexec).inv h
  | swizzleA | swizzleD | decode | encode => exact (exec_result_end (by decide) hexec).inv h

end

/-! ## The host's other accesses keep the invariant -/

theorem State.Inv.register {s : State} (h : s.Inv) (r : Reg) (v : Word) : (r.write v s).Inv := by
  have hlen : (storedLen s.params v).toNat ≤ s.params.specBytes := storedLen_toNat s.params v ▸ Nat.min_le_right _ _
  cases r with
  | cfg | fileSizeLo | fileSizeHi | operand => exact { h with }
  | aspecLen => exact { h with aspecLenLe := hlen }
  | dspecLen => exact { h with dspecLenLe := hlen }
  | _ => exact h

theorem MemOk.write {m : Memory} {size k : Nat} (h : MemOk m size) (hk : k < size) (b : Byte) :
    MemOk (m.write k b) size := ⟨wf_write h.1 k b, bound_write h.2 hk b⟩

theorem State.Inv.byteWrite {s : State} (h : s.Inv) (sp : Space) (k : Nat) (b : Byte) :
    (hostWriteByte sp k b s).Inv := by
  by_cases hk : k < s.params.size sp
  · cases sp with
    | ibuf => rw [hostWriteByte, if_neg nofun, if_pos hk]; exact { h with ibufOk := h.ibufOk.write hk b }
    | obuf => exact h
    | aspec => rw [hostWriteByte, if_neg nofun, if_pos hk]; exact { h with aspecOk := h.aspecOk.write hk b }
    | dspec => rw [hostWriteByte, if_neg nofun, if_pos hk]; exact { h with dspecOk := h.dspecOk.write hk b }
  · rw [hostWriteByte_of_beyond (Nat.not_lt.1 hk)]
    exact h

theorem memOk_nil (size : Nat) : MemOk [] size := ⟨wf_nil, fun _ hc => absurd hc List.not_mem_nil⟩

/-- Reset leaves a good state of any machine with legal parameters (70_reset_and_hazards.md R220). -/
theorem resetEngine_inv {s : State} (h : s.params.wf) : (resetEngine s).Inv where
  params := h
  notBusy := nofun
  outValid := nofun
  errIff := ⟨nofun, fun hc => absurd rfl hc⟩
  errClear := fun _ => rfl
  warnings := fun k => by cases k <;> rfl
  diagLen := Nat.zero_le _
  apwLe := Nat.zero_le _
  dpwLe := Nat.zero_le _
  apermBelow := fun i hi => absurd hi (Nat.not_lt_zero i)
  dpermBelow := fun i hi => absurd hi (Nat.not_lt_zero i)
  workingSizeLt := Nat.two_pow_pos 35
  nabLe := Nat.zero_le _
  ndbOk := List.mem_cons_self
  outFits := nofun
  aspecLenLe := Nat.zero_le _
  dspecLenLe := Nat.zero_le _
  ibufOk := memOk_nil _
  obufOk := memOk_nil _
  aspecOk := memOk_nil _
  dspecOk := memOk_nil _
  drawn := Nat.lt_succ_self s.draw

theorem AccessEnd.inv {a : Access} {s t : State} (hend : AccessEnd s a t) (h : s.Inv) : t.Inv := by
  cases hend with
  | ignored => exact h
  | command off nbytes v i t hexec => exact exec_inv h.sound hexec
  | rejected off nbytes v => exact h.sound.inv_error nofun (Nat.zero_le _)
  | register off nbytes v r => exact h.register r v
  | byteWrite sp k b => exact h.byteWrite sp k b
  | read a v => exact { h with }
  | reset => exact resetEngine_inv h.params

/-! ## The statements -/

/-- Settles O57: every access ends in one of a few states, and each is good when the one before it was. -/
theorem everyStepKeepsTheInvariant : Obligations.EveryStepKeepsTheInvariant := by
  intro s t h hstep
  cases hbus : s.bus with
  | nil => exact Host.Outcome.next.inj ((step_of_idleBus hbus).symm.trans hstep) ▸ h
  | cons a rest =>
    rw [step_of_bus hbus] at hstep
    exact (accessEnd_of_hostAccess hstep).inv { h with }

/-- Settles O56: the state after reset is what reset makes of itself, but for the draws. -/
theorem resetMeetsTheInvariant : Obligations.ResetMeetsTheInvariant :=
  { resetEngine_inv (s := State.reset) (by decide) with drawn := Nat.zero_lt_one }

/-! ## Nothing is refused -/

/-- Only a SWIZZLE above width 32 is refused (41_swizzler.md R143). -/
theorem exec_answers {s : State} (ha : s.apw.toNat ≤ 32) (hd : s.dpw.toNat ≤ 32) (i : Instr) :
    ∃ t, exec i s = .next t := by
  cases i with
  | size => exact (exec_size_end s).imp fun _ => And.left
  | transform => exact (exec_transform_end s).imp fun _ => And.left
  | parseA w => exact (exec_parse_end .addr w s).imp fun _ => And.left
  | parseD w => exact (exec_parse_end .data w s).imp fun _ => And.left
  | swizzleA => exact (exec_swizzle_end .addr ha).imp fun _ => And.left
  | swizzleD => exact (exec_swizzle_end .data hd).imp fun _ => And.left
  | decode => exact (exec_codec_end (.inl rfl) s).imp fun _ => And.left
  | encode => exact (exec_codec_end (.inr rfl) s).imp fun _ => And.left

theorem hostAccess_answers {s : State} (h : s.status.state ≠ .busy) (hexec : ∀ i, ∃ t, exec i s = .next t)
    (a : Access) : ∃ t, hostAccess a s = .next t := by
  cases a with
  | regWrite off nbytes v =>
    rw [hostAccess_regWrite h]
    rcases regWrite_cases off nbytes v s with hw | ⟨i, hw⟩ | hw | ⟨r, hw⟩
    · exact ⟨_, hw⟩
    · exact hw ▸ hexec i
    · exact ⟨_, hw⟩
    · exact ⟨_, hw⟩
  | regRead off nbytes => exact ⟨_, hostAccess_regRead h off nbytes⟩
  | byteWrite sp k b => exact ⟨_, hostAccess_byteWrite h sp k b⟩
  | byteRead sp k => exact ⟨_, hostAccess_byteRead h sp k⟩
  | reset => exact ⟨resetEngine s, if_neg fun hb => h hb.1⟩

/-- Settles O58: no step starts in BUSY, and no loaded width is above 32. -/
theorem nothingIsRefusedUnderTheInvariant : Obligations.NothingIsRefusedUnderTheInvariant := by
  intro s h
  refine ⟨?_, exec_answers h.apwLe h.dpwLe⟩
  cases hbus : s.bus with
  | nil => exact ⟨s, step_of_idleBus hbus⟩
  | cons a rest =>
    rw [step_of_bus hbus]
    exact hostAccess_answers (s := { s with bus := rest }) h.notBusy (exec_answers h.apwLe h.dpwLe) a

end Sys2Proof.Machine

/-! SUPPORT. Reset, the host's accesses and the register map: the statements about them (10_state.md section 2;
20_memory.md R60, R61, R73; 70_reset_and_hazards.md section 1). -/

namespace Sys2Proof.Machine

/-! ## Reset -/

/-- Every entry of the permutation file of reset is 0. -/
theorem get_replicate_zero (i : Fin 32) : (Vector.replicate 32 (0 : BitVec 5)).get i = 0 :=
  Vector.getElem_replicate i.isLt

/-- Every register reads its reset value: CFG has BPW 1 alone, the others are 0 (70_reset_and_hazards.md R220). -/
theorem read_reset (r : Reg) : r.read State.reset = if r = .cfg then 0x00000010 else 0 := by
  cases r with
  | aperm i | dperm i => exact congrArg (BitVec.setWidth 32) (get_replicate_zero i)
  | _ => rfl

/-- No register reads what reset keeps: the parameters, the draws, the pending accesses and the last read. -/
theorem read_resetEngine (r : Reg) (s : State) : r.read (resetEngine s) = r.read State.reset := by cases r <;> rfl

theorem byte_resetEngine (s : State) (sp : Space) (k : Nat) :
    (resetEngine s).byte sp k = Config.freeByte s.draw sp k := by cases sp <;> rfl

theorem hostAccess_reset (s : State) : hostAccess .reset s = .next (resetEngine s) := by simp [hostAccess, allowedWhileBusy]

/-- Settles O1: nothing is written after reset, so every byte is a free value. -/
theorem resetRegistersReadTheirResetValues : Obligations.ResetRegistersReadTheirResetValues :=
  ⟨read_reset, rfl, rfl, rfl, rfl, fun sp _ => by cases sp <;> rfl⟩

theorem write_status (r : Reg) (v : Word) (s : State) : (r.write v s).status = s.status := by cases r <;> rfl

theorem hostWriteByte_eq (sp : Space) (k : Nat) (b : Byte) (s : State) :
    hostWriteByte sp k b s = s ∨ hostWriteByte sp k b s = s.setMem sp ((s.mem sp).write k b) := by
  unfold hostWriteByte
  split
  · exact .inl rfl
  · split
    · exact .inr rfl
    · exact .inl rfl

theorem hostWriteByte_status (sp : Space) (k : Nat) (b : Byte) (s : State) :
    (hostWriteByte sp k b s).status = s.status := by
  rcases hostWriteByte_eq sp k b s with h | h <;> simp [h]

/-- Settles O2: a command ends DONE or in ERROR and every other access but reset keeps STATE; what reset leaves does not
depend on the state it found. -/
theorem resetFromEveryState : Obligations.ResetFromEveryState := by
  refine ⟨fun a s t h hs ht => ?_, fun s rest hbus => ⟨_, (step_of_bus hbus).trans (hostAccess_reset _),
    fun r => read_resetEngine r _, rfl, rfl, rfl, rfl, rfl, byte_resetEngine _⟩⟩
  cases accessEnd_of_hostAccess h with
  | ignored => exact absurd ht hs
  | command _ _ _ i _ hexec =>
    rcases everyCommandEndsDoneOrError i s t hexec with ⟨hend, -⟩ | ⟨hend, -⟩
    · exact nomatch hend.symm.trans ht
    · exact nomatch hend.symm.trans ht
  | rejected => exact nomatch ht
  | register _ _ v r => exact absurd (write_status r v s ▸ ht) hs
  | byteWrite sp k b => exact absurd (hostWriteByte_status sp k b s ▸ ht) hs
  | read => exact absurd ht hs
  | reset => rfl

/-! ## Accesses while BUSY -/

theorem allowedWhileBusy_iff {a : Access} (h : a ≠ .reset) : allowedWhileBusy a = true ↔ a = .regRead 0x004 4 := by
  cases a with
  | regRead off nbytes => simp [allowedWhileBusy]
  | reset => exact absurd rfl h
  | regWrite | byteWrite | byteRead => simp [allowedWhileBusy]

/-- Settles O4: of all accesses but reset the check lets the whole read of STATUS through, and no other. -/
theorem accessWhileBusyIsRefused : Obligations.AccessWhileBusyIsRefused := by
  intro s a rest hbus hbusy hreset
  rw [step_of_bus hbus]
  refine ⟨?_, fun hother => if_pos ⟨hbusy, Bool.eq_false_iff.2 (mt (allowedWhileBusy_iff hreset).1 hother)⟩⟩
  rintro rfl
  exact if_neg fun h => nomatch h.2

/-! ## Commands from the bus -/

/-- A command does not see STATUS, the error registers and the log: its start sets them anew. -/
theorem exec_of_commandStart_eq {s t : State} (h : commandStart s = commandStart t) (i : Instr) :
    exec i s = exec i t := by
  rw [exec_eq_runCommand, exec_eq_runCommand, runCommand, runCommand, h]

/-- Settles O54: the command start overwrites all three. -/
theorem commandsIgnoreEarlierOutcomes : Obligations.CommandsIgnoreEarlierOutcomes := fun i _ _ _ _ =>
  exec_of_commandStart_eq rfl i

theorem step_of_cmdWrite {s : State} {rest : List Access} {c : Word} {i : Instr}
    (hbus : s.bus = .regWrite 0x000 4 c :: rest) (hs : s.status.state ≠ .busy) (hc : decode c = .cmd i) :
    step s = exec i { s with bus := rest } := by
  rw [step_of_bus hbus, hostAccess_cmd (s := { s with bus := rest }) hs, writeCmd, hc]

theorem notBusy_state (t : Status) : t.notBusy.state ≠ .busy := by
  unfold Status.notBusy
  split
  · exact nofun
  · assumption

theorem tableWord_toNat (c : Word) : tableWord 32 c.toNat = c := by
  rw [tableWord, Nat.mod_eq_of_lt c.isLt, BitVec.ofNat_toNat, BitVec.setWidth_eq]

/-- Settles O3: the write of CMD decodes its word, and the STATE it found does not matter to the command. -/
theorem stepRunsTheDecodedCommand : Obligations.StepRunsTheDecodedCommand := by
  refine ⟨fun _ _ _ _ => step_of_cmdWrite, fun s i hi => ?_, fun s => step_of_idleBus⟩
  have hdecode : decode (tableWord 32 (encode i).toNat) = .cmd i := by rw [tableWord_toNat, decode_encode hi]
  rw [step_of_cmdWrite (s := s.withFetchWord 32 (encode i).toNat) rfl (notBusy_state s.status) hdecode]
  exact exec_of_commandStart_eq rfl i

/-! ## Byte writes -/

theorem byte_setMem_of_ne (s : State) {sp sp' : Space} (m : Memory) (h : sp' ≠ sp) (k : Nat) :
    (s.setMem sp m).byte sp' k = s.byte sp' k := byte_congr (setMem_mem_of_ne s m h) (setMem_memDraw s sp m) k

/-- A byte written is read back, and no other byte changes (20_memory.md R73). -/
theorem byte_setMem_write (s : State) (sp : Space) (k : Nat) (b : Byte) (k' : Nat) :
    (s.setMem sp ((s.mem sp).write k b)).byte sp k' = if k' = k then b else s.byte sp k' := by
  rw [State.byte, setMem_mem, setMem_memDraw, read_write]
  split <;> rfl

theorem read_setMem (r : Reg) (s : State) (sp : Space) (m : Memory) : r.read (s.setMem sp m) = r.read s := by
  cases sp <;> cases r <;> rfl

/-- Settles O6: the write lists one byte in one space, and no register reads a space. -/
theorem hostWrittenByteIsReadBack : Obligations.HostWrittenByteIsReadBack := by
  intro s sp k b hs hsp hk
  have hwrite : hostWriteByte sp k b s = s.setMem sp ((s.mem sp).write k b) := by
    rw [hostWriteByte, if_neg hsp, if_pos hk]
  refine ⟨s.setMem sp ((s.mem sp).write k b), by rw [hostAccess_byteWrite hs, hwrite], ?_, fun sp' k' hne => ?_,
    fun r => read_setMem r s sp _, by simp, by simp, by simp, by simp⟩
  · rw [hostAccess_byteRead (by simpa using hs), hostReadByte, setMem_params, if_pos hk, byte_setMem_write, if_pos rfl]
  · by_cases hsame : sp' = sp
    · subst hsame
      rw [byte_setMem_write, if_neg fun h => hne (by rw [h])]
    · exact byte_setMem_of_ne s _ hsame k'

/-! ## The register map -/

/-- The list of the low registers is in the order of their offsets. -/
theorem lowRegs_offset {q : Nat} {r : Reg} (h : lowRegs[q]? = some r) : r.offset = 4 * q := by
  have hq : q < lowRegs.length := (List.getElem?_eq_some_iff.1 h).1
  have hall : ∀ q < lowRegs.length, lowRegs[q]?.map Reg.offset = some (4 * q) := by decide
  have hoff := hall q hq
  rw [h] at hoff
  exact Option.some.inj hoff

theorem diagReg_offset {j : Fin 64} {q : Nat} {r : Reg} (h : diagReg j q = some r) :
    r.offset = 0x200 + 16 * j.val + 4 * q := by
  unfold diagReg at h
  split at h
  · next hq => cases h; subst hq; rfl
  · split at h
    · next hq => cases h; subst hq; simp only [Reg.offset]; omega
    · split at h
      · next hq => cases h; subst hq; simp only [Reg.offset]; omega
      · exact nomatch h

/-- A register is found at its own offset alone, range by range of the map. -/
theorem offset_of_ofOffset {off : Nat} {r : Reg} (h : Reg.ofOffset off = some r) : off = r.offset := by
  unfold Reg.ofOffset at h
  split at h
  · exact nomatch h
  split at h
  · rw [lowRegs_offset h]
    omega
  split at h
  · cases h
    simp only [Reg.offset, Fin.val_ofNat]
    omega
  split at h
  · cases h
    simp only [Reg.offset, Fin.val_ofNat]
    omega
  split at h
  · exact nomatch h
  split at h
  · rw [diagReg_offset h, Fin.val_ofNat]
    omega
  · exact nomatch h

/-- Settles O8: each offset range gives back the offset of the register it answers. -/
theorem registerOffsetsAreUnambiguous : Obligations.RegisterOffsetsAreUnambiguous := fun _ r =>
  ⟨offset_of_ofOffset, fun h => h ▸ ofOffset_offset r⟩

/-! ## The log registers -/

theorem diagField_of_logged {s : State} {j : Nat} {e : DiagEvent} (h : s.diag[j]? = some e) (f : DiagEvent → Word) :
    s.diagField j f = f e := by rw [State.diagField, h]

theorem diagField_of_beyond {s : State} {j : Nat} (h : s.diag.length ≤ j) (f : DiagEvent → Word) :
    s.diagField j f = 0 := by rw [State.diagField, List.getElem?_eq_none h]

/-- Settles O12: the three registers are fields of the same entry of the log. -/
theorem diagRegistersReadTheLog : Obligations.DiagRegistersReadTheLog := by
  intro s j hlen
  refine ⟨Nat.mod_eq_of_lt (by omega), fun e he => ?_, fun hj => ?_⟩
  · exact ⟨diagField_of_logged he _, diagField_of_logged he _, diagField_of_logged he _⟩
  · exact ⟨diagField_of_beyond hj _, diagField_of_beyond hj _, diagField_of_beyond hj _⟩

/-! ## Writes of OPERAND and FILE_SIZE -/

/-- Settles O60: each register's own write stores its value, the halves of FILE_SIZE beside the half they keep. -/
theorem hostWritesOfOperandAndFileSize : Obligations.HostWritesOfOperandAndFileSize := by
  intro s v hs
  refine ⟨hostAccess_write (r := .operand) hs nofun v, ⟨_, hostAccess_write (r := .fileSizeLo) hs nofun v, ?_⟩,
    ⟨_, hostAccess_write (r := .fileSizeHi) hs nofun v, ?_⟩⟩
  · have hsize := s.fileSize.isLt
    rw [append_toNat, BitVec.extractLsb'_toNat, Nat.shiftRight_eq_div_pow]
    omega
  · rw [append_toNat, BitVec.extractLsb'_toNat, Nat.shiftRight_zero, Nat.mul_comm]

/-- Settles O13: the decoder computes on each word. -/
theorem specWordsDecode : Obligations.SpecWordsDecode := ⟨rfl, rfl, rfl, rfl, rfl, rfl, rfl, rfl⟩

end Sys2Proof.Machine

/-! SUPPORT. The packed registers field by field, and the statement about what each register reads (10_state.md
section 2). -/

namespace Sys2Proof.Machine

/-! ## Fields of a packed number -/

/-- A field of a packed register, as arithmetic on the packed number. -/
theorem extractLsb'_ofNat_eq {n a b : Nat} {x : BitVec b} (hab : a + b ≤ 32) (h : n / 2 ^ a % 2 ^ b = x.toNat) :
    (BitVec.ofNat 32 n).extractLsb' a b = x := by
  refine BitVec.eq_of_toNat_eq ?_
  rw [BitVec.extractLsb'_toNat, BitVec.toNat_ofNat, Nat.shiftRight_eq_div_pow, ← h]
  have hsplit : (2 : Nat) ^ 32 = 2 ^ a * 2 ^ (32 - a) := by rw [← Nat.pow_add]; congr 1; omega
  have hdvd : 2 ^ b ∣ 2 ^ (32 - a) := Nat.pow_dvd_pow 2 (by omega)
  rw [hsplit, Nat.mod_mul_right_div_self, Nat.mod_mod_of_dvd _ hdvd]

theorem extractLsb'_ofNat_eq_zero {n a b : Nat} (hab : a + b ≤ 32) (h : n / 2 ^ a % 2 ^ b = 0) :
    (BitVec.ofNat 32 n).extractLsb' a b = 0 := extractLsb'_ofNat_eq hab (h.trans BitVec.toNat_zero.symm)

/-- A single bit of a packed register, likewise. -/
theorem getLsbD_ofNat_eq {n k : Nat} {b : Bool} (hk : k < 32) (h : n / 2 ^ k % 2 = flagBit b) :
    (BitVec.ofNat 32 n).getLsbD k = b := by
  rw [BitVec.getLsbD_ofNat, Nat.testBit_eq_decide_div_mod_eq, h, decide_eq_true hk]
  cases b <;> rfl

theorem flagBit_le (b : Bool) : flagBit b ≤ 1 := by cases b <;> decide

theorem selBit_eq_flagBit (sel : Sel) : selBit sel = flagBit (decide (sel = .data)) := by cases sel <;> rfl

/-! ## Each packed register -/

theorem status_word_fields (t : Status) :
    (t.state, t.word.extractLsb' 0 2) ∈
      ([(.idle, 0), (.busy, 1), (.done, 2), (.error, 3)] : List (RunState × BitVec 2)) ∧
    t.word.getLsbD 2 = t.outValid ∧ t.word.getLsbD 3 = t.wPow2 ∧ t.word.getLsbD 4 = t.wMult ∧
    t.word.getLsbD 5 = t.wDup ∧ t.word.extractLsb' 6 26 = 0 := by
  have hcode : t.state.code ≤ 3 := by cases t.state <;> decide
  have h2 := flagBit_le t.outValid
  have h3 := flagBit_le t.wPow2
  have h4 := flagBit_le t.wMult
  have h5 := flagBit_le t.wDup
  refine ⟨?_, getLsbD_ofNat_eq (by decide) (by omega), getLsbD_ofNat_eq (by decide) (by omega),
    getLsbD_ofNat_eq (by decide) (by omega), getLsbD_ofNat_eq (by decide) (by omega),
    extractLsb'_ofNat_eq_zero (by decide) (by omega)⟩
  have hstate : t.word.extractLsb' 0 2 = BitVec.ofNat 2 t.state.code :=
    extractLsb'_ofNat_eq (by decide) (by rw [BitVec.toNat_ofNat]; omega)
  rw [hstate]
  cases t.state <;> decide

theorem errRegs_word_fields (e : ErrRegs) :
    (e.code, e.word.extractLsb' 0 8) ∈
      ([(.none, 0), (.badCmd, 1), (.badBpw, 2), (.badWidth, 3), (.noPerm, 4), (.addrWidth, 5), (.count, 6),
        (.range, 7), (.alloc, 8)] : List (ErrCode × BitVec 8)) ∧
    e.word.getLsbD 8 = decide (e.sel = .data) ∧ e.word.extractLsb' 9 23 = 0 := by
  have hcode : e.code.code ≤ 8 := by cases e.code <;> decide
  have hsel := flagBit_le (decide (e.sel = .data))
  rw [ErrRegs.word, selBit_eq_flagBit]
  refine ⟨?_, getLsbD_ofNat_eq (by decide) (by omega), extractLsb'_ofNat_eq_zero (by decide) (by omega)⟩
  rw [extractLsb'_ofNat_eq (x := BitVec.ofNat 8 e.code.code) (by decide) (by rw [BitVec.toNat_ofNat]; omega)]
  cases e.code <;> decide

theorem cfg_word_fields (c : Cfg) :
    c.word.getLsbD 0 = c.aen ∧ c.word.getLsbD 1 = c.den ∧ c.word.getLsbD 2 = c.big ∧ c.word.getLsbD 3 = false ∧
    c.word.extractLsb' 4 3 = c.bpw ∧ c.word.extractLsb' 7 25 = 0 := by
  have hbpw := c.bpw.isLt
  have h0 := flagBit_le c.aen
  have h1 := flagBit_le c.den
  have h2 := flagBit_le c.big
  have h3 : flagBit false = 0 := rfl
  exact ⟨getLsbD_ofNat_eq (by decide) (by omega), getLsbD_ofNat_eq (by decide) (by omega),
    getLsbD_ofNat_eq (by decide) (by omega), getLsbD_ofNat_eq (by decide) (by omega),
    extractLsb'_ofNat_eq (by decide) (by omega), extractLsb'_ofNat_eq_zero (by decide) (by omega)⟩

theorem fieldPair_fields (lo hi : BitVec 6) :
    (fieldPair lo hi).extractLsb' 0 6 = lo ∧ (fieldPair lo hi).extractLsb' 6 2 = 0 ∧
    (fieldPair lo hi).extractLsb' 8 6 = hi ∧ (fieldPair lo hi).extractLsb' 14 18 = 0 := by
  have hlo := lo.isLt
  have hhi := hi.isLt
  exact ⟨extractLsb'_ofNat_eq (by decide) (by omega), extractLsb'_ofNat_eq_zero (by decide) (by omega),
    extractLsb'_ofNat_eq (by decide) (by omega), extractLsb'_ofNat_eq_zero (by decide) (by omega)⟩

theorem diagEvent_word_fields (e : DiagEvent) :
    (e.kind, e.word.extractLsb' 0 4) ∈
      ([(.notPow2, 1), (.notMult, 2), (.dup, 3)] : List (WarnKind × BitVec 4)) ∧
    e.word.getLsbD 4 = decide (e.sel = .data) ∧ e.word.extractLsb' 5 27 = 0 := by
  have hkind : e.kind.code ≤ 3 := by cases e.kind <;> decide
  have hsel := flagBit_le (decide (e.sel = .data))
  rw [DiagEvent.word, selBit_eq_flagBit]
  refine ⟨?_, getLsbD_ofNat_eq (by decide) (by omega), extractLsb'_ofNat_eq_zero (by decide) (by omega)⟩
  rw [extractLsb'_ofNat_eq (x := BitVec.ofNat 4 e.kind.code) (by decide) (by rw [BitVec.toNat_ofNat]; omega)]
  cases e.kind <;> decide

/-! ## Registers that hold one value -/

/-- The two halves of a 64-bit register give its value back. -/
theorem halves_toNat (x : BitVec 64) :
    (x.extractLsb' 0 32).toNat + 2 ^ 32 * (x.extractLsb' 32 32).toNat = x.toNat := by
  rw [BitVec.extractLsb'_toNat, BitVec.extractLsb'_toNat, Nat.shiftRight_eq_div_pow, Nat.shiftRight_eq_div_pow]
  omega

/-- A register index is inside the file, so its entry is the one `permAt` reads. -/
theorem permAt_get (p : PermFile) (i : Fin 32) : permAt p i.val = (p.get i).toNat := by
  rw [permAt, Vector.getElem?_eq_getElem i.isLt]
  rfl

theorem get_setWidth_toNat (p : PermFile) (i : Fin 32) : ((p.get i).setWidth 32).toNat = permAt p i.val := by
  rw [BitVec.toNat_setWidth_of_le (by decide), permAt_get]

/-- Settles O9: each packed register is a number put together from its fields, taken apart again by division. -/
theorem packedRegisterFields : Obligations.PackedRegisterFields := by
  intro s
  obtain ⟨herr, hsel, hzero⟩ := errRegs_word_fields s.err
  refine ⟨status_word_fields s.status, ⟨herr, hsel, hzero, rfl, rfl⟩, cfg_word_fields s.cfg,
    ⟨halves_toNat s.fileSize, halves_toNat s.workingSize⟩, fieldPair_fields s.nab s.ndb, fieldPair_fields s.apw s.dpw,
    ⟨rfl, rfl, BitVec.toNat_setWidth_of_le (by decide), BitVec.toNat_setWidth_of_le (by decide)⟩,
    fun i => ⟨get_setWidth_toNat s.aperm i, get_setWidth_toNat s.dperm i⟩, fun j e he => ?_⟩
  have hread : (Reg.diagEvent j).read s = e.word := diagField_of_logged he _
  rw [hread]
  exact diagEvent_word_fields e

end Sys2Proof.Machine

/-! SUPPORT. What the commands that compute one register, size or parse leave and keep, and the statements about them
(40_parser.md R122; 41_swizzler.md section 2; 42_endian.md section 2; 43_transform.md section 1). -/

namespace Sys2Proof.Machine

/-! ## SWIZZLE -/

theorem getLsbD_swizzleResult (v : Word) (p : PermFile) {w : Nat} (hw : w ≤ 32) (i : Nat) :
    (BitVec.ofNat 32 (swizzleWord v.toNat p w)).getLsbD i = (decide (i < w) && v.getLsbD (permAt p i)) := by
  rw [BitVec.getLsbD_ofNat, testBit_swizzleWord, ← Bool.and_assoc, ← Bool.decide_and,
    decide_eq_decide.2 (show i < 32 ∧ i < w ↔ i < w by omega)]
  rfl

/-- Settles O26: the result is the swizzled OPERAND, whose bits the swizzler's own law gives. -/
theorem swizzleResult : Obligations.SwizzleResult := fun _ _ h1 h32 =>
  ⟨_, getLsbD_swizzleResult _ _ h32, exec_swizzle_of_loaded h1 h32⟩

/-- Settles O27: the two width checks come before the swizzle. -/
theorem swizzleWidthChecks : Obligations.SwizzleWidthChecks := fun _ _ =>
  ⟨exec_swizzle_of_noPerm, exec_swizzle_of_above32⟩

/-! ## DECODE and ENCODE -/

theorem packedBytes_getD (v : Word) {n j : Nat} (hj : j < n) : (packedBytes v n).getD j 0 = v.extractLsb' (8 * j) 8 := by
  simp [packedBytes, List.getD_eq_getElem?_getD, hj]

section
variable {s : State} (h : BpwLegal s)
include h

/-- A bit of a word of BPW bytes, held in a register. -/
theorem getLsbD_codecResult (b : List Byte) (big : Bool) (k : Nat) :
    (BitVec.ofNat 32 (decodeWord b s.cfg.bpw.toNat big)).getLsbD k =
      (decide (k < 8 * s.cfg.bpw.toNat) && (b.getD (bytePlace s.cfg.bpw.toNat big (k / 8)) 0).getLsbD (k % 8)) := by
  have hle := h.2
  rw [BitVec.getLsbD_ofNat, testBit_decodeWord, ← Bool.and_assoc, ← Bool.decide_and,
    decide_eq_decide.2 (show k < 32 ∧ k < 8 * s.cfg.bpw.toNat ↔ k < 8 * s.cfg.bpw.toNat by omega)]
  rfl

theorem getLsbD_decodeResult (k : Nat) :
    s.decodeResult.getLsbD k = (decide (k < 8 * s.cfg.bpw.toNat) &&
      s.operand.getLsbD (8 * bytePlace s.cfg.bpw.toNat s.cfg.big (k / 8) + k % 8)) := by
  rw [State.decodeResult, getLsbD_codecResult h]
  by_cases hk : k < 8 * s.cfg.bpw.toNat
  · rw [packedBytes_getD _ (bytePlace_lt _ (by omega)), BitVec.getLsbD_extractLsb',
      decide_eq_true (Nat.mod_lt k (by decide : 0 < 8)), Bool.true_and]
  · rw [decide_eq_false hk, Bool.false_and, Bool.false_and]

theorem getLsbD_encodeResult (k : Nat) :
    s.encodeResult.getLsbD k = (decide (k < 8 * s.cfg.bpw.toNat) &&
      s.operand.getLsbD (8 * bytePlace s.cfg.bpw.toNat s.cfg.big (k / 8) + k % 8)) := by
  rw [State.encodeResult, getLsbD_codecResult h]
  by_cases hk : k < 8 * s.cfg.bpw.toNat
  · have hbyte : k / 8 < s.cfg.bpw.toNat := by omega
    have hplace := bytePlace_lt s.cfg.big hbyte
    have hbit : 8 * bytePlace s.cfg.bpw.toNat s.cfg.big (k / 8) + k % 8 < 8 * s.cfg.bpw.toNat := by omega
    have hencoded := getLsbD_encodeWord (s.operand.toNat % 2 ^ (8 * s.cfg.bpw.toNat)) s.cfg.big hbyte
      (Nat.mod_lt k (by decide : 0 < 8))
    change _ = Nat.testBit _ (8 * bytePlace s.cfg.bpw.toNat s.cfg.big (k / 8) + k % 8) at hencoded
    rw [Nat.testBit_mod_two_pow, decide_eq_true hbit, Bool.true_and] at hencoded
    exact congrArg _ hencoded
  · rw [decide_eq_false hk, Bool.false_and, Bool.false_and]

end

/-- Settles O28: DECODE takes the bytes of OPERAND apart and ENCODE puts them together, each in the same order. -/
theorem decodeAndEncodeResult : Obligations.DecodeAndEncodeResult := by
  intro s i h hi
  rcases hi with rfl | rfl
  · exact ⟨_, getLsbD_decodeResult h, exec_decode_of_legal h⟩
  · exact ⟨_, getLsbD_encodeResult h, exec_encode_of_legal h⟩

/-! ## Sizing -/

theorem floorLog2_bounds {n : Nat} (hn : 1 ≤ n) : 2 ^ floorLog2 n ≤ n ∧ n < 2 ^ (floorLog2 n + 1) :=
  ⟨Nat.log2_self_le (by omega), Nat.lt_log2_self⟩

/-- A power of two at or above `n` is at or above the next power of two: the one below is less than `n`. -/
theorem nextPow2_le {n k : Nat} (h : n ≤ 2 ^ k) : nextPow2 n ≤ 2 ^ k := by
  unfold nextPow2
  split
  · exact h
  next hpow =>
    split
    · exact Nat.two_pow_pos k
    next hn =>
      have hbelow := (floorLog2_bounds (n := n) (by omega)).1
      have hne : n ≠ 2 ^ k := fun he => hpow ((isPow2_iff n).2 ⟨k, he⟩)
      have hlt : 2 ^ floorLog2 n < 2 ^ k := by omega
      exact Nat.pow_le_pow_right (by decide) ((Nat.pow_lt_pow_iff_right (by decide)).1 hlt)

theorem ceilMult_le {n b m : Nat} (hb : 1 ≤ b) (hm : n ≤ m) (hmul : m % b = 0) : ceilMult n b ≤ m := by
  rw [← ceilMult_of_mod_eq_zero hb hmul]
  exact Nat.mul_le_mul_right b (Nat.div_le_div_right (by omega))

/-- Settles O31: each function against the powers of two and the multiples around its argument. -/
theorem sizingNotation : Obligations.SizingNotation :=
  ⟨isPow2_iff, fun _ => floorLog2_bounds, fun n => ⟨nextPow2_eq_two_pow n, le_nextPow2 n, fun _ => nextPow2_le⟩,
    fun n _ hb => ⟨Nat.mul_mod_left _ _, le_ceilMult n hb, fun _ => ceilMult_le hb⟩⟩

/-- Settles O34: the sizing phase is all that SIZE does. -/
theorem sizeResult : Obligations.SizeResult := fun _ => exec_size_of_sizingOk

/-- Settles O35: the check on the word count stops both commands before the sizes are written. -/
theorem addressWidthError : Obligations.AddressWidthError := by
  intro s i hb hw hi
  refine exec_of_badWords hb (fun hs => ?_) hi
  obtain ⟨-, h2, h33⟩ := hs
  omega

/-! ## What no command but a parse writes -/

/-- The permutation and the width of a selector are the same in both states. -/
def SamePerm (sel : Sel) (s t : State) : Prop := t.perm sel = s.perm sel ∧ t.pw sel = s.pw sel

section
variable {s t : State}

theorem ResultEnd.samePerm (h : ResultEnd s t) (sel : Sel) : SamePerm sel s t := by
  cases h <;> cases sel <;> exact ⟨rfl, rfl⟩

theorem SizeEnd.samePerm (h : SizeEnd s t) (sel : Sel) : SamePerm sel s t := by
  cases h <;> cases sel <;> exact ⟨rfl, rfl⟩

/-- A PARSE writes the permutation of its own selector alone. -/
theorem ParseEnd.samePerm {sel sel' : Sel} {w : Nat} (h : ParseEnd s sel w t) (hne : sel' ≠ sel) :
    SamePerm sel' s t := by
  cases sel <;> cases sel'
  case addr.addr | data.data => exact absurd rfl hne
  all_goals cases h <;> exact ⟨rfl, rfl⟩

/-- The state before the data parse of a TRANSFORM, as one update. -/
theorem addrLoaded_eq (s : State) (pa : PermFile) :
    s.addrLoaded pa = { s with
      workingSize := BitVec.ofNat 64 s.sizing.ws
      nab := BitVec.ofNat 6 s.sizing.nab
      ndb := BitVec.ofNat 6 s.sizing.ndb
      apw := if s.cfg.aen then BitVec.ofNat 6 s.sizing.nab else s.apw
      aperm := if s.cfg.aen then pa else s.aperm } := by
  unfold State.addrLoaded State.loadedIf
  cases s.cfg.aen <;> rfl

theorem TransformEnd.samePerm_addr (h : TransformEnd s t) (haen : s.cfg.aen = false) : SamePerm .addr s t := by
  cases h with
  | badBpw | badWords => exact ⟨rfl, rfl⟩
  | badAddr _ hen => exact absurd (haen.symm.trans hen) (by decide)
  | badData _ _ pa =>
    rw [addrLoaded_eq, haen]
    exact ⟨rfl, rfl⟩
  | full _ _ _ pa pd => exact (prepared_addr_of_disabled pa pd haen).symm
  | done _ pa pd => exact (prepared_addr_of_disabled pa pd haen).symm

theorem TransformEnd.samePerm_data (h : TransformEnd s t) (hden : s.cfg.den = false) : SamePerm .data s t := by
  cases h with
  | badBpw | badWords | badAddr => exact ⟨rfl, rfl⟩
  | badData _ _ _ _ hen => exact absurd (hden.symm.trans hen) (by decide)
  | full _ _ _ pa pd => exact (prepared_data_of_disabled pa pd hden).symm
  | done _ pa pd => exact (prepared_data_of_disabled pa pd hden).symm

end

/-- A changed permutation is not the same permutation. -/
theorem SamePerm.absurd {sel : Sel} {s t : State} {P : Prop} (h : SamePerm sel s t)
    (hne : t.perm sel ≠ s.perm sel ∨ t.pw sel ≠ s.pw sel) : P :=
  (hne.elim (· h.1) (· h.2)).elim

/-- Settles O49: in each end of each command the permutations it does not parse are the same. -/
theorem onlyParsesWritePermutations : Obligations.OnlyParsesWritePermutations := by
  intro i s t h
  cases i with
  | size =>
    have same := (sizeEnd_of_exec h).samePerm
    exact ⟨(same .addr).absurd, (same .data).absurd⟩
  | transform =>
    have hend := transformEnd_of_exec h
    refine ⟨fun hne => .inr ⟨rfl, ?_⟩, fun hne => .inr ⟨rfl, ?_⟩⟩
    · exact Decidable.byContradiction fun haen => (hend.samePerm_addr (Bool.eq_false_iff.2 haen)).absurd hne
    · exact Decidable.byContradiction fun hden => (hend.samePerm_data (Bool.eq_false_iff.2 hden)).absurd hne
  | parseA w => exact ⟨fun _ => .inl ⟨w, rfl⟩, ((parseEnd_of_exec (sel := .addr) h).samePerm (sel' := .data) nofun).absurd⟩
  | parseD w => exact ⟨((parseEnd_of_exec (sel := .data) h).samePerm (sel' := .addr) nofun).absurd, fun _ => .inl ⟨w, rfl⟩⟩
  | swizzleA | swizzleD | decode | encode =>
    have same := (exec_result_end (by decide) h).samePerm
    exact ⟨(same .addr).absurd, (same .data).absurd⟩

/-! ## Frames -/

theorem any_kind_eq_false {es : List DiagEvent} {k : WarnKind} (h : ∀ e ∈ es, e.kind ≠ k) :
    es.any (fun e => decide (e.kind = k)) = false := by simpa using h

/-- Sizing warns about its paddings alone (60_exceptions.md R198). -/
theorem kind_ne_dup_of_mem_sizeLog {s : State} : ∀ e ∈ s.sizeLog, e.kind ≠ .dup := by
  intro e he
  rcases mem_sizingEvents.1 he with ⟨-, rfl⟩ | ⟨-, rfl⟩ <;> exact nofun

/-- A parse warns about repeated tokens alone (60_exceptions.md R198). -/
theorem kind_of_mem_dupEvents {sel : Sel} {toks : List (List Byte)} {n : Nat} :
    ∀ e ∈ dupEvents sel toks n, e.kind = .dup := by
  intro e he
  obtain ⟨t, -, rfl⟩ := List.mem_map.1 he
  rfl

theorem ParseError.kind_of_mem {sel : Sel} {toks : List (List Byte)} {w : Nat} {e : ErrRegs} {es : List DiagEvent}
    (h : ParseError sel toks w e es) : ∀ e ∈ es, e.kind = .dup := by
  rcases h with ⟨-, rfl, -⟩ | ⟨-, t, -, -, -, rfl, -⟩
  · exact fun _ he => absurd he List.not_mem_nil
  · exact kind_of_mem_dupEvents

/-- Settles O51: none of the effects of these commands touches a space, and OUT_VALID is cleared at their start. -/
theorem registerCommandFrames : Obligations.RegisterCommandFrames := by
  refine ⟨fun i s t hi h => ?_, fun s t h => ?_⟩
  · cases exec_result_end hi h with
    | stopped e he => exact ⟨rfl, rfl, rfl, fun sp _ => by cases sp <;> rfl, fun _ => rfl⟩
    | done v => exact ⟨rfl, rfl, rfl, fun sp _ => by cases sp <;> rfl, nofun⟩
  · have hdup := any_kind_eq_false (kind_ne_dup_of_mem_sizeLog (s := s))
    cases sizeEnd_of_exec h with
    | badBpw => exact ⟨rfl, rfl, rfl, fun sp _ => by cases sp <;> rfl⟩
    | badWords => exact ⟨rfl, rfl, hdup, fun sp _ => by cases sp <;> rfl⟩
    | done => exact ⟨rfl, rfl, hdup, fun sp _ => by cases sp <;> rfl⟩

/-- Settles O52: a parse touches the registers of its own selector, and logs DUP events alone. -/
theorem parseFrame : Obligations.ParseFrame := by
  intro sel w s t h
  have quiet {es : List DiagEvent} {k : WarnKind} (hk : k ≠ .dup) (hdup : ∀ e ∈ es, e.kind = .dup) :
      es.any (fun e => decide (e.kind = k)) = false :=
    any_kind_eq_false fun e he hek => hk (hek.symm.trans (hdup e he))
  cases parseEnd_of_exec h with
  | badWidth => exact ⟨by cases sel <;> rfl, rfl, rfl, rfl, fun sp _ => by cases sp <;> rfl⟩
  | failed _ _ e es he =>
    exact ⟨by cases sel <;> rfl, rfl, quiet nofun he.kind_of_mem, quiet nofun he.kind_of_mem,
      fun sp _ => by cases sel <;> cases sp <;> rfl⟩
  | done _ _ _ p _ =>
    exact ⟨by cases sel <;> rfl, rfl, quiet nofun kind_of_mem_dupEvents, quiet nofun kind_of_mem_dupEvents,
      fun sp _ => by cases sel <;> cases sp <;> rfl⟩

/-! ## A PARSE with other contents of the spec spaces -/

/-- `s` with other contents of ASPEC and DSPEC. -/
def State.withSpecs (s : State) (ma md : Memory) : State := { s with aspec := ma, dspec := md }

@[simp] theorem warnAll_withSpecs (es : List DiagEvent) (s : State) (ma md : Memory) :
    warnAll es (s.withSpecs ma md) = (warnAll es s).withSpecs ma md := by
  induction es generalizing s with
  | nil => rfl
  | cons e es ih => exact ih (warn e s)

@[simp] theorem setPw_withSpecs (s : State) (ma md : Memory) (sel : Sel) (w : BitVec 6) :
    (s.withSpecs ma md).setPw sel w = (s.setPw sel w).withSpecs ma md := by cases sel <;> rfl
@[simp] theorem setPerm_withSpecs (s : State) (ma md : Memory) (sel : Sel) (p : PermFile) :
    (s.withSpecs ma md).setPerm sel p = (s.setPerm sel p).withSpecs ma md := by cases sel <;> rfl
@[simp] theorem losePerm_withSpecs (s : State) (ma md : Memory) (sel : Sel) :
    (s.withSpecs ma md).losePerm sel = (s.losePerm sel).withSpecs ma md := by cases sel <;> rfl
@[simp] theorem perm_withSpecs (s : State) (ma md : Memory) (sel : Sel) :
    (s.withSpecs ma md).perm sel = s.perm sel := by cases sel <;> rfl
@[simp] theorem raiseFatal_withSpecs (c : ErrCode) (i0 i1 : Word) (sel : Sel) (s : State) (ma md : Memory) :
    raiseFatal c i0 i1 sel (s.withSpecs ma md) = (raiseFatal c i0 i1 sel s).withSpecs ma md := rfl

/-- With the same spec string both runs read the same tokens, and neither writes a spec space. -/
theorem parseBody_withSpecs {s : State} {ma md : Memory} {sel : Sel}
    (h : (s.withSpecs ma md).specString sel = s.specString sel) (w : Nat) :
    (parseBody sel w s).Rel (fun u v => v = u.withSpecs ma md) (parseBody sel w (s.withSpecs ma md)) := by
  unfold parseBody
  by_cases hw : w < 1 ∨ 32 < w
  · rw [if_pos hw, if_pos hw]
    exact rfl
  rw [if_neg hw, if_neg hw]
  unfold parsePermutation
  rw [h, perm_withSpecs]
  by_cases hlen : (splitTokens (s.specString sel)).length ≠ w
  · rw [if_pos hlen, if_pos hlen]
    simp [Res.Rel]
  rw [if_neg hlen, if_neg hlen]
  rcases scanTokens sel w (splitTokens (s.specString sel)) 0 { perm := s.perm sel, seen := 0, events := [] }
    with ⟨a, _ | v⟩
  · simp [Res.Rel]
  · simp [Res.Rel]

/-- Settles O22: the spec string is all a parse reads of ASPEC and DSPEC. -/
theorem parseReadsOnlyItsSpecString : Obligations.ParseReadsOnlyItsSpecString := by
  intro sel w s t m m' hspec h
  rw [exec_parseCmd] at h ⊢
  have hstart : ((commandStart s).withSpecs m m').specString sel = (commandStart s).specString sel := by
    cases sel <;> exact hspec
  have hbody := parseBody_withSpecs hstart w
  obtain ⟨t', ht', rfl⟩ := runCommand_rel (s' := s.withSpecs m m') hbody (fun u v hv => congrArg commandDone hv) h
  exact ht'

end Sys2Proof.Machine

/-! SUPPORT. The statements about what a TRANSFORM leaves when it ends DONE and in each of its errors (43_transform.md
section 3; 60_exceptions.md section 2). -/

namespace Sys2Proof.Machine

/-! ## The host's part after a command -/

section
variable {i : Instr} {s t : State} (h : exec i s = .next t)
include h

theorem exec_cfg : t.cfg = s.cfg := (commandsLeaveTheHostSide.1 i s t h).2.1

theorem exec_memDraw : t.memDraw = s.memDraw :=
  have hhost : t.hostSide.memDraw = s.hostSide.memDraw := congrArg State.memDraw (exec_hostSide h)
  hhost

/-- The padded input is the host's (20_memory.md R62). -/
theorem exec_inByte (k : Nat) : t.inByte k = s.inByte k := by
  obtain ⟨-, -, hsize, -, -, -, -, -, hbytes⟩ := commandsLeaveTheHostSide.1 i s t h
  rw [State.inByte, State.inByte, hsize, hbytes .ibuf k nofun]

theorem exec_byte_obuf (hobuf : t.obuf = s.obuf) (k : Nat) : t.byte .obuf k = s.byte .obuf k :=
  byte_congr (sp := .obuf) hobuf (exec_memDraw h) k

end

/-! ## The registers of a TRANSFORM that passes its checks -/

/-- Settles O36: storing the output changes OBUF and OUT_VALID of the prepared state alone. -/
theorem transformRegisters : Obligations.TransformRegisters := by
  intro s h
  obtain ⟨pa, pd, hpa, hpd, hexec⟩ := exec_transform_of_passed h
  have hs := h.1
  exact ⟨_, hexec, rfl, rfl, rfl, prepared_workingSize_toNat hs pa pd, prepared_nab_toNat hs pa pd,
    prepared_ndb_toNat hs pa pd, prepared_addr hs pa pd hpa, prepared_data hs pa pd hpd,
    prepared_addr_of_disabled pa pd, prepared_data_of_disabled pa pd⟩

/-! ## Which commands store an output -/

section
variable {s t : State}

/-- A TRANSFORM sets OUT_VALID exactly when it passes all its checks (43_transform.md R181, R185). -/
theorem TransformEnd.outValid_iff (h : TransformEnd s t) : t.status.outValid = true ↔ TransformReady s := by
  cases h with
  | badBpw hb => exact ⟨nofun, fun hr => absurd hr.1.1 hb⟩
  | badWords _ hs => exact ⟨nofun, fun hr => absurd hr.1 hs⟩
  | badAddr _ haen hbad => exact ⟨nofun, fun hr => absurd (hr.2.1.1 haen) hbad⟩
  | badData _ _ _ _ hden hbad => exact ⟨nofun, fun hr => absurd (hr.2.1.2 hden) hbad⟩
  | full _ _ hcap => exact ⟨nofun, fun hr => absurd hcap (Nat.not_lt.2 hr.2.2)⟩
  | done hready => exact ⟨fun _ => hready, fun _ => rfl⟩

/-- The state keeps OBUF and OUT_VALID is clear: what every command but a TRANSFORM leaves. -/
def NoOutput (s t : State) : Prop := t.status.outValid = false ∧ t.obuf = s.obuf

theorem exec_noOutput {i : Instr} (hi : i ≠ .transform) (h : exec i s = .next t) : NoOutput s t := by
  have parse (sel : Sel) (w : Nat) (h : ParseEnd s sel w t) : NoOutput s t := by
    cases h <;> cases sel <;> exact ⟨rfl, rfl⟩
  cases i with
  | size => cases sizeEnd_of_exec h <;> exact ⟨rfl, rfl⟩
  | transform => exact absurd rfl hi
  | parseA w => exact parse .addr w (parseEnd_of_exec h)
  | parseD w => exact parse .data w (parseEnd_of_exec h)
  | swizzleA | swizzleD | decode | encode => cases exec_result_end (by decide) h <;> exact ⟨rfl, rfl⟩

/-- A TRANSFORM that does not pass its checks ends in ERROR, so it keeps OBUF (60_exceptions.md R194). -/
theorem TransformEnd.state_of_not_ready (h : TransformEnd s t) (hr : ¬ TransformReady s) : t.status.state = .error := by
  cases h with
  | done hready => exact absurd hready hr
  | _ => rfl

end

/-- Settles O48: only the last phase of a TRANSFORM stores an output, and it sets OUT_VALID with it. -/
theorem onlyTransformWritesOutput : Obligations.OnlyTransformWritesOutput := by
  intro i s t h
  by_cases hi : i = .transform
  · subst hi
    have hend := transformEnd_of_exec h
    refine ⟨hend.outValid_iff.trans (and_iff_right rfl).symm, fun hv => ?_⟩
    have hr : ¬ TransformReady s := fun hr => absurd (hv.symm.trans (hend.outValid_iff.2 hr)) (by decide)
    exact (fatalErrorLeavesOutputBuffer .transform s t h (hend.state_of_not_ready hr)).2
  · obtain ⟨hv, hobuf⟩ := exec_noOutput hi h
    exact ⟨⟨fun ht => absurd (hv.symm.trans ht) (by decide), fun ht => absurd ht.1 hi⟩,
      fun _ => exec_byte_obuf h hobuf⟩

/-! ## The frame -/

theorem TransformEnd.frame {s t : State} (h : TransformEnd s t) :
    t = { s with status := t.status, err := t.err, diag := t.diag, workingSize := t.workingSize, nab := t.nab,
                 ndb := t.ndb, apw := t.apw, aperm := t.aperm, dpw := t.dpw, dperm := t.dperm, obuf := t.obuf,
                 draw := t.draw } := by
  cases h with
  | badData _ _ pa =>
    rw [addrLoaded_eq]
    rfl
  | _ => rfl

/-- Settles O53: the phases before the output keep OBUF, and the output lies below WORKING_SIZE. -/
theorem transformFrame : Obligations.TransformFrame := by
  intro s t h
  obtain ⟨-, -, -, -, -, -, -, -, hbytes⟩ := commandsLeaveTheHostSide.1 .transform s t h
  refine ⟨(transformEnd_of_exec h).frame, hbytes, fun k hk => ?_⟩
  by_cases hr : TransformReady s
  · obtain ⟨u, hu, hstatus, -, -, hsize, -⟩ := transformRegisters s hr
    obtain rfl : u = t := Host.Outcome.next.inj (hu.symm.trans h)
    have hdone : u.status.state = .done := hstatus ▸ rfl
    exact (transformOutputBytes s u hr h).2.2 k (hsize ▸ hk hdone)
  · exact (fatalErrorLeavesOutputBuffer .transform s t h ((transformEnd_of_exec h).state_of_not_ready hr)).2 k

/-! ## The errors of the spec strings -/

/-- Settles O43: the first parse that fails stops the command, with the log and the registers of the phases before it. -/
theorem transformSpecErrorsInOrder : Obligations.TransformSpecErrorsInOrder := by
  refine ⟨fun s hs haen hbad => ?_, fun s hs hok hden hbad => ?_⟩
  · obtain ⟨e, es, he, hexec⟩ := exec_transform_of_badAddr hs haen hbad
    exact ⟨e, es, freePerm s.draw, s.draw + 1, he, hexec⟩
  · obtain ⟨pa, e, es, hpa, he, hexec⟩ := exec_transform_of_badData hs hok hden hbad
    rw [addrLoaded_eq] at hexec
    refine ⟨e, es, if s.cfg.aen then pa else s.aperm, freePerm s.draw, s.draw + 1, he, fun haen => ?_, fun haen => ?_,
      hexec⟩
    · rw [if_pos haen]
      exact hpa haen
    · rw [haen]
      rfl

/-- A failed parse is COUNT or RANGE, and no other error. -/
theorem ParseError.code_cases {sel : Sel} {toks : List (List Byte)} {w : Nat} {e : ErrRegs} {es : List DiagEvent}
    (h : ParseError sel toks w e es) : e.code ≠ .badBpw ∧ e.code ≠ .addrWidth ∧ e.code ≠ .alloc := by
  rw [h.code_eq]
  split <;> decide

section
variable {s : State} (hs : SizingOk s)
include hs

theorem resized_workingSize_toNat : s.resized.workingSize.toNat = s.sizing.ws :=
  Nat.mod_eq_of_lt (Nat.lt_trans (sizing_ws_lt hs) (by decide))

theorem resized_nab_toNat : s.resized.nab.toNat = s.sizing.nab := ofNat6_toNat (sizing_nab hs).2

theorem resized_ndb_toNat : s.resized.ndb.toNat = s.sizing.ndb := ofNat6_toNat (sizing_ndb hs)

end

/-- Settles O44: each error leaves the state of the phases before the one that raised it. -/
theorem failedTransformKeepsEarlierWork : Obligations.FailedTransformKeepsEarlierWork := by
  intro s t h herror
  have hlog : s.sizeLog <+: s.transformEvents := ⟨_, (List.append_assoc _ _ _).symm⟩
  cases transformEnd_of_exec h with
  | badBpw =>
    exact ⟨fun _ => rfl, nofun, fun hne => absurd rfl hne, fun hc => hc.elim nofun nofun, fun hc => hc.elim nofun nofun,
      nofun, fun hne => absurd rfl hne⟩
  | badWords =>
    exact ⟨nofun, fun _ => ⟨rfl, rfl, rfl, rfl, rfl, rfl, rfl⟩, fun _ hne => absurd rfl hne,
      fun hc => hc.elim nofun nofun, fun hc => hc.elim nofun nofun, nofun, fun _ => List.prefix_refl _⟩
  | badAddr hs _ _ e es he =>
    obtain ⟨h1, h2, h3⟩ := he.code_cases
    exact ⟨fun hc => absurd hc h1, fun hc => absurd hc h2,
      fun _ _ => ⟨resized_workingSize_toNat hs, resized_nab_toNat hs, resized_ndb_toNat hs⟩, fun _ _ => ⟨rfl, rfl, rfl⟩,
      fun _ hsel => (nomatch he.sel_eq.symm.trans hsel), fun hc => absurd hc h3, fun _ => List.prefix_append _ _⟩
  | badData hs _ pa hpa _ _ e es he =>
    obtain ⟨h1, h2, h3⟩ := he.code_cases
    have hpre : s.sizeLog <+: s.sizeLog ++ s.addrLog ++ es := ⟨_, (List.append_assoc _ _ _).symm⟩
    rw [addrLoaded_eq]
    refine ⟨fun hc => absurd hc h1, fun hc => absurd hc h2,
      fun _ _ => ⟨resized_workingSize_toNat hs, resized_nab_toNat hs, resized_ndb_toNat hs⟩,
      fun _ hsel => (nomatch he.sel_eq.symm.trans hsel), fun _ _ => ⟨rfl, fun haen => ?_, fun haen => ?_⟩,
      fun hc => absurd hc h3, fun _ => hpre⟩
    · exact prepared_addr hs pa s.dperm hpa haen
    · exact prepared_addr_of_disabled pa s.dperm haen
  | full hs _ _ pa pd hpa hpd =>
    exact ⟨nofun, nofun, fun _ _ => ⟨prepared_workingSize_toNat hs pa pd, prepared_nab_toNat hs pa pd,
      prepared_ndb_toNat hs pa pd⟩, fun hc => hc.elim nofun nofun, fun hc => hc.elim nofun nofun,
      fun _ => ⟨prepared_addr hs pa pd hpa, prepared_data hs pa pd hpd, prepared_addr_of_disabled pa pd,
        prepared_data_of_disabled pa pd⟩, fun _ => hlog⟩
  | done => exact nomatch herror

/-! ## Two runs that differ in what earlier parses left -/

/-- The error of a failed parse and its events depend on the tokens and the width alone. -/
theorem ParseError.unique {sel : Sel} {toks : List (List Byte)} {w : Nat} {e e' : ErrRegs} {es es' : List DiagEvent}
    (h : ParseError sel toks w e es) (h' : ParseError sel toks w e' es') : e' = e ∧ es' = es := by
  rcases h with ⟨hlen, rfl, rfl⟩ | ⟨hlen, t, -, hr, hbad, rfl, rfl⟩ <;>
    rcases h' with ⟨hlen', rfl, rfl⟩ | ⟨hlen', t', -, hr', hbad', rfl, rfl⟩
  · exact ⟨rfl, rfl⟩
  · exact absurd hlen' hlen
  · exact absurd hlen hlen'
  · have hle : t' ≤ t := Nat.not_lt.1 fun hlt => hbad (hr' t hlt)
    have hge : t ≤ t' := Nat.not_lt.1 fun hlt => hbad' (hr t' hlt)
    obtain rfl : t = t' := Nat.le_antisymm hge hle
    exact ⟨rfl, rfl⟩

/-- Two good parses of one spec string agree below the width, whatever entries they found. -/
theorem PermParsed.agree {toks : List (List Byte)} {w : Nat} {old old' p p' : PermFile} (h : PermParsed toks w old p)
    (h' : PermParsed toks w old' p') : ∀ i, i < w → permAt p' i = permAt p i := by
  intro i hi
  have hslot : w - 1 - (w - 1 - i) = i := by omega
  have hp := h.1 (w - 1 - i) (by omega)
  have hp' := h'.1 (w - 1 - i) (by omega)
  rw [hslot] at hp hp'
  exact hp'.trans hp.symm

/-- The swizzler reads the entries below its width alone (41_swizzler.md R141). -/
theorem swizzleWord_congr {p p' : PermFile} {w : Nat} (h : ∀ i, i < w → permAt p' i = permAt p i) (v : Nat) :
    swizzleWord v p' w = swizzleWord v p w :=
  swizzleWord_eq_of_testBit (swizzleWord_lt v w p) fun j hj => by
    rw [testBit_swizzleWord, decide_eq_true hj, Bool.true_and, h j hj]

/-- `s` with other contents of the permutation registers. -/
def State.withPerms (s : State) (wa wd : BitVec 6) (pa pd : PermFile) : State :=
  { s with apw := wa, dpw := wd, aperm := pa, dperm := pd }

/-- The two output phases store the same image when the enabled permutations agree below their widths. -/
theorem outputImage_prepared_congr (s : State) (wa wd : BitVec 6) (pa pd : PermFile) {qa qa' qd qd' : PermFile}
    (ha : s.cfg.aen = true → ∀ i, i < s.sizing.nab → permAt qa' i = permAt qa i)
    (hd : s.cfg.den = true → ∀ i, i < s.sizing.ndb → permAt qd' i = permAt qd i) :
    outputImage ((s.withPerms wa wd pa pd).prepared qa' qd') s.sizing s.cfg.bpw.toNat =
      outputImage (s.prepared qa qd) s.sizing s.cfg.bpw.toNat := by
  have haddr (pos : Nat) : outAddr ((s.withPerms wa wd pa pd).prepared qa' qd') s.sizing s.cfg.bpw.toNat pos =
      outAddr (s.prepared qa qd) s.sizing s.cfg.bpw.toNat pos := by
    cases haen : s.cfg.aen with
    | false => simp [outAddr, State.prepared, State.withPerms, haen]
    | true =>
      have hsw := swizzleWord_congr (ha haen) (pos / s.cfg.bpw.toNat)
      simp [outAddr, State.prepared, State.withPerms, haen, hsw]
  have hword (pos : Nat) : outWord ((s.withPerms wa wd pa pd).prepared qa' qd') s.sizing s.cfg.bpw.toNat pos =
      outWord (s.prepared qa qd) s.sizing s.cfg.bpw.toNat pos := by
    cases hden : s.cfg.den with
    | false => simp [outWord, State.prepared, State.withPerms, hden]; rfl
    | true =>
      have hsw := swizzleWord_congr (hd hden)
      simp [outWord, State.prepared, State.withPerms, hden, hsw]; rfl
  have hstore : storeWord ((s.withPerms wa wd pa pd).prepared qa' qd') s.sizing s.cfg.bpw.toNat =
      storeWord (s.prepared qa qd) s.sizing s.cfg.bpw.toNat := by
    funext m pos
    rw [storeWord, storeWord, haddr, hword]
    rfl
  rw [outputImage, outputImage, hstore]
  rfl

/-- Everything a TRANSFORM computes but the permutation registers. -/
def SameComputed (t t' : State) : Prop :=
  t'.status = t.status ∧ t'.err = t.err ∧ t'.diag = t.diag ∧ t'.workingSize = t.workingSize ∧ t'.nab = t.nab ∧
    t'.ndb = t.ndb ∧ t'.obuf = t.obuf

/-- The same end gives the same outcome, whatever else the two states hold. -/
theorem sameComputed_ended {u u' : State} {st : RunState} {ov : Bool} {e : ErrRegs} {es es' : List DiagEvent}
    (hes : es' = es) (hws : u'.workingSize = u.workingSize) (hnab : u'.nab = u.nab) (hndb : u'.ndb = u.ndb)
    (hobuf : u'.obuf = u.obuf) : SameComputed (u.ended st ov e es) (u'.ended st ov e es') := by
  subst hes
  exact ⟨rfl, rfl, rfl, hws, hnab, hndb, hobuf⟩

/-- Two prepared states that store one image end with the same outcome. -/
theorem sameComputed_setOutput (s : State) (wa wd : BitVec 6) (pa pd qa qa' qd qd' : PermFile) {m m' : Memory}
    (hm : m' = m) :
    SameComputed (((s.prepared qa qd).setOutput m).ended .done true ErrRegs.clear s.transformEvents)
      ((((s.withPerms wa wd pa pd).prepared qa' qd').setOutput m').ended .done true ErrRegs.clear
        (s.withPerms wa wd pa pd).transformEvents) := sameComputed_ended rfl rfl rfl rfl hm

/-- Both runs end the same way: the checks read the spec strings, and the output the parsed entries. -/
theorem exec_transform_withPerms (s : State) (wa wd : BitVec 6) (pa pd : PermFile) :
    ∃ t t', exec .transform s = .next t ∧ exec .transform (s.withPerms wa wd pa pd) = .next t' ∧
      SameComputed t t' := by
  by_cases hb : BpwLegal s
  case neg => exact ⟨_, _, exec_of_badBpw hb (by decide), exec_of_badBpw (s := s.withPerms wa wd pa pd) hb (by decide),
    sameComputed_ended rfl rfl rfl rfl rfl⟩
  by_cases hs : SizingOk s
  case neg => exact ⟨_, _, exec_of_badWords hb hs (.inr rfl),
    exec_of_badWords (s := s.withPerms wa wd pa pd) hb hs (.inr rfl),
    sameComputed_ended rfl rfl rfl rfl rfl⟩
  by_cases ha : s.cfg.aen = true → SpecOk s .addr s.sizing.nab
  case neg =>
    obtain ⟨haen, hbad⟩ := Classical.not_imp.1 ha
    obtain ⟨e, es, he, h⟩ := exec_transform_of_badAddr hs haen hbad
    obtain ⟨e', es', he', h'⟩ := exec_transform_of_badAddr (s := s.withPerms wa wd pa pd) hs haen hbad
    obtain ⟨rfl, rfl⟩ := ParseError.unique he he'
    exact ⟨_, _, h, h', sameComputed_ended rfl rfl rfl rfl rfl⟩
  by_cases hd : s.cfg.den = true → SpecOk s .data s.sizing.ndb
  case neg =>
    obtain ⟨hden, hbad⟩ := Classical.not_imp.1 hd
    obtain ⟨qa, e, es, -, he, h⟩ := exec_transform_of_badData hs ha hden hbad
    obtain ⟨qa', e', es', -, he', h'⟩ := exec_transform_of_badData (s := s.withPerms wa wd pa pd) hs ha hden hbad
    obtain ⟨rfl, rfl⟩ := ParseError.unique he he'
    rw [addrLoaded_eq] at h h'
    exact ⟨_, _, h, h', sameComputed_ended rfl rfl rfl rfl rfl⟩
  by_cases hcap : s.params.bufBytes < s.sizing.ws
  · obtain ⟨qa, qd, -, -, h⟩ := exec_transform_of_full hs ⟨ha, hd⟩ hcap
    obtain ⟨qa', qd', -, -, h'⟩ := exec_transform_of_full (s := s.withPerms wa wd pa pd) hs ⟨ha, hd⟩ hcap
    exact ⟨_, _, h, h', sameComputed_ended rfl rfl rfl rfl rfl⟩
  · have hready : TransformReady s := ⟨hs, ⟨ha, hd⟩, Nat.not_lt.1 hcap⟩
    obtain ⟨qa, qd, hqa, hqd, h⟩ := exec_transform_of_passed hready
    obtain ⟨qa', qd', hqa', hqd', h'⟩ := exec_transform_of_passed (s := s.withPerms wa wd pa pd) hready
    have himage := outputImage_prepared_congr s wa wd pa pd (fun haen => (hqa haen).agree (hqa' haen))
      fun hden => (hqd hden).agree (hqd' hden)
    exact ⟨_, _, h, h', sameComputed_setOutput s wa wd pa pd qa qa' qd qd' himage⟩

/-- Settles O45: the two runs take the same way, and a disabled permutation is not written. -/
theorem transformIgnoresEarlierParses : Obligations.TransformIgnoresEarlierParses := by
  intro s t t' wa wd pa pd h h'
  obtain ⟨u, u', hu, hu', hstatus, herr, hdiag, hws, hnab, hndb, hobuf⟩ := exec_transform_withPerms s wa wd pa pd
  obtain rfl : u = t := Host.Outcome.next.inj (hu.symm.trans h)
  obtain rfl : u' = t' := Host.Outcome.next.inj (hu'.symm.trans h')
  have hdraw : u'.memDraw = u.memDraw := (exec_memDraw h').trans (exec_memDraw h).symm
  have hend := transformEnd_of_exec h'
  exact ⟨hstatus, herr, hdiag, hws, hnab, hndb, byte_congr (sp := .obuf) hobuf hdraw,
    fun haen => (hend.samePerm_addr haen).symm, fun hden => (hend.samePerm_data hden).symm⟩

/-! ## The address permutation (R179) -/

/-- Every bit of a word is some bit of its swizzle by a bijection, so words with one swizzle are one word. -/
theorem swizzleWord_injective {p : PermFile} {w v v' : Nat} (h : IsBijection p w) (hv : v < 2 ^ w) (hv' : v' < 2 ^ w)
    (heq : swizzleWord v p w = swizzleWord v' p w) : v = v' := by
  refine Nat.eq_of_testBit_eq fun j => ?_
  by_cases hj : j < w
  · obtain ⟨i, hi, rfl⟩ := h.exists_permAt_eq hj
    have hbit := congrArg (Nat.testBit · i) heq
    simpa [testBit_swizzleWord, hi] using hbit
  · have hle : 2 ^ w ≤ 2 ^ j := Nat.pow_le_pow_right (by decide) (Nat.not_lt.1 hj)
    rw [Nat.testBit_lt_two_pow (Nat.lt_of_lt_of_le hv hle), Nat.testBit_lt_two_pow (Nat.lt_of_lt_of_le hv' hle)]

/-- One-to-one on the words of a width, so onto them: with one left out there would be
`2 ^ w + 1` words below `2 ^ w`. -/
theorem exists_swizzleWord_eq {p : PermFile} {w d : Nat} (h : IsBijection p w) (hd : d < 2 ^ w) :
    ∃ v, v < 2 ^ w ∧ swizzleWord v p w = d := by
  refine Decidable.byContradiction fun hout => ?_
  have hnodup : ((List.range (2 ^ w)).map fun v => swizzleWord v p w).Nodup :=
    List.pairwise_map.2 (List.pairwise_lt_range.imp_of_mem fun hv hv' hlt heq =>
      Nat.ne_of_lt hlt (swizzleWord_injective h (List.mem_range.1 hv) (List.mem_range.1 hv') heq))
  have hsub : d :: ((List.range (2 ^ w)).map fun v => swizzleWord v p w) ⊆ List.range (2 ^ w) := by
    refine List.cons_subset.2 ⟨List.mem_range.2 hd, fun k hk => ?_⟩
    obtain ⟨v, -, rfl⟩ := List.mem_map.1 hk
    exact List.mem_range.2 (swizzleWord_lt v w p)
  have hmiss : d ∉ (List.range (2 ^ w)).map fun v => swizzleWord v p w := fun hk => by
    obtain ⟨v, hv, heq⟩ := List.mem_map.1 hk
    exact hout ⟨v, List.mem_range.1 hv, heq⟩
  have hlen := (List.nodup_cons.2 ⟨hmiss, hnodup⟩).length_le_of_subset hsub
  rw [List.length_cons, List.length_map, List.length_range] at hlen
  exact Nat.not_succ_le_self _ hlen

/-- Settles O39: with a power of two of words the destinations are the swizzled indices, one of each. -/
theorem bijectiveAddressPermutationIsOneToOne : Obligations.BijectiveAddressPermutationIsOneToOne := by
  intro s d hs haen hbij hwords hd
  have hbpw := hs.1.1
  have hdest (i : Nat) : outAddr s s.sizing s.cfg.bpw.toNat (i * s.cfg.bpw.toNat) =
      swizzleWord i s.aperm s.sizing.nab * s.cfg.bpw.toNat := by rw [outAddr_mul s s.sizing hbpw, if_pos haen]
  rw [hwords] at hd ⊢
  obtain ⟨i, hi, heq⟩ := exists_swizzleWord_eq hbij hd
  refine ⟨i, hi, by rw [hdest, heq], fun j hj hjd => swizzleWord_injective hbij hj hi ?_⟩
  rw [hdest] at hjd
  rw [heq, Nat.eq_of_mul_eq_mul_right hbpw hjd]

/-! ## The output without an address permutation -/

section
variable {s t : State} (hr : TransformReady s) (haen : s.cfg.aen = false) (h : exec .transform s = .next t)
include hr haen h

/-- With no address permutation every word stays at its place. -/
theorem byte_obuf_of_unpermuted {k : Nat} (hk : k < s.sizing.ws) :
    t.byte .obuf k = (encodeWord (outWord t s.sizing s.cfg.bpw.toNat (k / s.cfg.bpw.toNat * s.cfg.bpw.toNat))
      s.cfg.bpw.toNat s.cfg.big).getD (k % s.cfg.bpw.toNat) 0 := by
  have hbpw := hr.1.1.1
  have hcfg : t.cfg = s.cfg := exec_cfg h
  have hdest (pos : Nat) : outAddr t s.sizing s.cfg.bpw.toNat pos = pos := by rw [outAddr, hcfg, haen]; rfl
  have hword : k / s.cfg.bpw.toNat < s.words := Nat.div_lt_of_lt_mul (by rwa [Nat.mul_comm, ← sizing_ws_eq])
  have hbyte := (transformOutputBytes s t hr h).1 (k / s.cfg.bpw.toNat) (k % s.cfg.bpw.toNat) hword
    (Nat.mod_lt k hbpw) fun i hi _ => by
      rw [hdest, hdest]
      exact Nat.ne_of_gt (Nat.mul_lt_mul_of_pos_right hi hbpw)
  rwa [hdest, Nat.div_add_mod'] at hbyte

end

/-- With neither permutation a word is encoded as it was decoded (42_endian.md R152). -/
theorem byte_obuf_of_copy {s t : State} (hr : TransformReady s) (haen : s.cfg.aen = false) (hden : s.cfg.den = false)
    (h : exec .transform s = .next t) {k : Nat} (hk : k < s.sizing.ws) : t.byte .obuf k = s.inByte k := by
  have hcfg : t.cfg = s.cfg := exec_cfg h
  have hbytes := encodeWord_decodeWord (n := s.cfg.bpw.toNat) s.cfg.big
    (b := t.inBytes (k / s.cfg.bpw.toNat * s.cfg.bpw.toNat) s.cfg.bpw.toNat) (by simp [State.inBytes])
  have hplace := Nat.div_add_mod' k s.cfg.bpw.toNat
  have hword : outWord t s.sizing s.cfg.bpw.toNat (k / s.cfg.bpw.toNat * s.cfg.bpw.toNat) = decodeWord
      (t.inBytes (k / s.cfg.bpw.toNat * s.cfg.bpw.toNat) s.cfg.bpw.toNat) s.cfg.bpw.toNat s.cfg.big := by
    rw [outWord, hcfg, hden]
    rfl
  rw [byte_obuf_of_unpermuted hr haen h hk, hword, hbytes]
  simp [State.inBytes, List.getD_eq_getElem?_getD, Nat.mod_lt k hr.1.1.1, hplace, exec_inByte h]

/-- Settles O40: each byte of the padded input stays at its place. -/
theorem transformWithoutPermutationsCopies : Obligations.TransformWithoutPermutationsCopies :=
  fun _ _ hr haen hden h _ hk => byte_obuf_of_copy hr haen hden h hk

/-! ## Bit reversal of every byte (R185) -/

theorem permAt_of_reversalSpec {s : State} (hs : s.specString .data = reversalSpec 8) {old p : PermFile}
    (hp : PermParsed (s.tokens .data) 8 old p) {i : Nat} (hi : i < 8) : permAt p i = 7 - i := by
  have hslot : 8 - 1 - (7 - i) = i := by omega
  have hentry := hp.1 (7 - i) (by omega)
  rw [hslot, tokenAt_of_specText (idx := List.range 8) hs (by decide) (by simp; omega)] at hentry
  rw [hentry]
  simp [List.getD_eq_getElem?_getD, show 7 - i < 8 by omega]

/-- The swizzle by the reversal of eight bits (41_swizzler.md R141). -/
theorem ofNat_swizzleWord_reversal {p : PermFile} (hp : ∀ i, i < 8 → permAt p i = 7 - i) (b : Byte) :
    BitVec.ofNat 8 (swizzleWord b.toNat p 8) = b.reverse := by
  refine BitVec.eq_of_getLsbD_eq fun i hi => ?_
  rw [BitVec.getLsbD_ofNat, testBit_swizzleWord, hp i hi, decide_eq_true hi, BitVec.getLsbD_reverse,
    BitVec.getMsbD_eq_getLsbD, decide_eq_true hi]
  rfl

/-- Settles O41: with one byte a word every word is a byte, swizzled by the reversal at its own place. -/
theorem transformReversesEveryByte : Obligations.TransformReversesEveryByte := by
  intro s t hr haen hden hbpw hspec h
  have hone : s.cfg.bpw.toNat = 1 := by rw [hbpw]; rfl
  have hws : s.sizing.ws = s.fileSize.toNat := by
    simp [State.sizing, paddedSize, paddedPow2, hone, haen, Nat.mod_one]
  have hndb : s.sizing.ndb = 8 := by simp [State.sizing, hone]
  obtain ⟨u, hu, -, -, -, hsize, -, -, -, hdata, -⟩ := transformRegisters s hr
  obtain rfl : u = t := Host.Outcome.next.inj (hu.symm.trans h)
  obtain ⟨-, hparsed⟩ := hdata hden
  rw [hndb] at hparsed
  have hperm : ∀ i, i < 8 → permAt u.dperm i = 7 - i := fun i => permAt_of_reversalSpec hspec hparsed
  have hcfg : u.cfg = s.cfg := exec_cfg h
  refine ⟨BitVec.eq_of_toNat_eq (hsize.trans hws), fun k hk => ?_⟩
  have hbyte : u.inByte k = s.byte .ibuf k := (exec_inByte h k).trans (if_pos hk)
  have hin : u.inBytes k 1 = [s.byte .ibuf k] := by simp [State.inBytes, hbyte]
  rw [byte_obuf_of_unpermuted hr haen h (hws ▸ hk), hone, Nat.div_one, Nat.mul_one, Nat.mod_one, encodeWord_one]
  have hword : outWord u s.sizing 1 k = swizzleWord (s.byte .ibuf k).toNat u.dperm 8 := by
    rw [outWord, hin, decodeWord_one, hcfg, hden, hndb]
    rfl
  rw [hword]
  exact ofNat_swizzleWord_reversal hperm _

end Sys2Proof.Machine

/-! SUPPORT. The command line without permutations, from its accesses to its output file, and the statement about it
(30_encoding.md R96, R97; 60_exceptions.md R206). -/

namespace Sys2Proof.Machine

/-! ## Host programs -/

theorem run_ofStmts_cons {x : HostStmt} {xs : List HostStmt} {h h' : HostRun} (hx : performAll x.accesses h = .next h') :
    (HostProg.ofStmts (x :: xs)).run h = (HostProg.ofStmts xs).run h' := by
  rw [HostProg.ofStmts, HostProg.run, hx]

theorem performAll_wr {h : HostRun} (hb : h.engine.status.state ≠ .busy) {r : Reg} (hr : r ≠ .cmd) (v : Word) :
    performAll (HostStmt.wr r v).accesses h = .next { h with engine := r.write v h.engine } :=
  performAll_regWrite hb hr v []

theorem performAll_wrbStmt {h : HostRun} (hb : h.engine.status.state ≠ .busy) {sp : Space} (hsp : sp ≠ .obuf)
    (bs : List Byte) :
    performAll (HostStmt.wrb sp 0 bs).accesses h = .next { h with
      engine := h.engine.setMem sp ((h.engine.mem sp).writeBytes 0 (bs.take (h.engine.params.size sp))) } := by
  have hwrb := performAll_wrb hsp bs 0 [] hb
  rwa [List.append_nil] at hwrb

/-- `run` starts a TRANSFORM and reads STATUS once it is over (R95). -/
theorem performAll_run {h : HostRun} {t : State} (hb : h.engine.status.state ≠ .busy)
    (hexec : exec .transform h.engine = .next t) :
    ∃ h', performAll HostStmt.run.accesses h = .next h' ∧ h'.engine = { t with rdata := t.status.word } := by
  have hcmd : hostAccess (wrAccess .cmd (encode .transform)) h.engine = .next t := by
    have hdecode : decode (encode .transform) = .cmd .transform := decode_encode rfl
    rw [wrAccess, show Reg.cmd.offset = 0x000 from rfl, hostAccess_cmd hb, writeCmd, hdecode]
    exact hexec
  have hnext : t.status.state ≠ .busy := by
    rcases everyCommandEndsDoneOrError .transform _ t hexec with ⟨hend, -⟩ | ⟨hend, -⟩ <;> rw [hend] <;> exact nofun
  have hread : hostAccess (rdAccess .status) t = .next { t with rdata := t.status.word } := hostAccess_read hnext .status
  rw [HostStmt.accesses, performAll, hcmd]
  change ∃ h', performAll [rdAccess .status] { h with engine := t } = .next h' ∧ _
  rw [performAll, hread]
  exact ⟨_, rfl, rfl⟩

/-! ## The engine the command line sets up -/

/-- A word of CFG read back field by field (10_state.md R28). -/
theorem ofWord_word (c : Cfg) : Cfg.ofWord c.word = c := by
  obtain ⟨haen, hden, hbig, -, hbpw, -⟩ := cfg_word_fields c
  rw [Cfg.ofWord, haen, hden, hbig, hbpw]

/-- The CFG of an invocation without permutations (R97). -/
def Invocation.plainCfg (v : Invocation) : Cfg :=
  { aen := false, den := false, big := v.big, bpw := BitVec.ofNat 3 v.bytesPerWord }

/-- The engine when the TRANSFORM of an invocation without permutations starts. -/
def Invocation.setUp (v : Invocation) (s : State) : State :=
  { s with
    cfg := v.plainCfg
    ibuf := s.ibuf.writeBytes 0 (v.input.take s.params.bufBytes)
    fileSize := BitVec.ofNat 64 v.input.length }

theorem wrsize_words (n : Nat) :
    BitVec.ofNat 32 (n / 2 ^ 32) ++ BitVec.ofNat 32 (n % 2 ^ 32) = BitVec.ofNat 64 n := by
  refine BitVec.eq_of_toNat_eq ?_
  rw [append_toNat, BitVec.toNat_ofNat, BitVec.toNat_ofNat, BitVec.toNat_ofNat]
  omega

section
variable {v : Invocation} (hlegal : v.legal = true)
include hlegal

theorem bytesPerWord_bounds : 1 ≤ v.bytesPerWord ∧ v.bytesPerWord ≤ 4 := of_decide_eq_true hlegal

theorem plainCfg_bpw_toNat : v.plainCfg.bpw.toNat = v.bytesPerWord := by
  have hle := (bytesPerWord_bounds hlegal).2
  exact Nat.mod_eq_of_lt (by omega)

/-- The statements of an invocation without permutations, in the order of R97. -/
theorem stmts_of_plain (ha : v.addr = none) (hd : v.data = none) :
    v.stmts = [.wr .cfg v.plainCfg.word, .wrb .ibuf 0 v.input, .wrsize v.input.length, .run] := by
  rw [Invocation.stmts, ha, hd, Cfg.word, plainCfg_bpw_toNat hlegal]
  rfl

/-- The program sets the engine up and transforms. -/
theorem run_of_plain (ha : v.addr = none) (hd : v.data = none) {s t : State} (hs : s.status.state ≠ .busy)
    (hexec : exec .transform (v.setUp s) = .next t) (l : RunState) (rs : List Word) :
    ∃ h', (HostProg.ofStmts v.stmts).run ⟨s, l, rs⟩ = .next h' ∧ h'.engine = { t with rdata := t.status.word } := by
  have hcfg : performAll (HostStmt.wr .cfg v.plainCfg.word).accesses ⟨s, l, rs⟩ =
      .next ⟨{ s with cfg := v.plainCfg }, l, rs⟩ := by
    rw [performAll_wr (h := ⟨s, l, rs⟩) hs (by decide), Reg.write, ofWord_word]
  have hwrb : performAll (HostStmt.wrb .ibuf 0 v.input).accesses ⟨{ s with cfg := v.plainCfg }, l, rs⟩ =
      .next ⟨{ v.setUp s with fileSize := s.fileSize }, l, rs⟩ := performAll_wrbStmt hs (by decide) v.input
  have hsize : performAll (HostStmt.wrsize v.input.length).accesses ⟨{ v.setUp s with fileSize := s.fileSize }, l, rs⟩ =
      .next ⟨v.setUp s, l, rs⟩ := by
    rw [performAll_wrsize (h := ⟨{ v.setUp s with fileSize := s.fileSize }, l, rs⟩) hs, wrsize_words]
    rfl
  obtain ⟨h', hrun, hengine⟩ := performAll_run (h := ⟨v.setUp s, l, rs⟩) hs hexec
  refine ⟨h', ?_, hengine⟩
  rw [stmts_of_plain hlegal ha hd, run_ofStmts_cons hcfg, run_ofStmts_cons hwrb, run_ofStmts_cons hsize,
    run_ofStmts_cons hrun]
  rfl

/-- The answer is what is read off the engine then. -/
theorem swizzle_of_plain (ha : v.addr = none) (hd : v.data = none) {s t : State} (hs : s.status.state ≠ .busy)
    (hexec : exec .transform (v.setUp s) = .next t) :
    v.swizzle s = some (.next (cliResult { t with rdata := t.status.word })) := by
  obtain ⟨h', hrun, hengine⟩ := run_of_plain hlegal ha hd hs hexec s.status.state []
  rw [Invocation.swizzle, if_pos hlegal, hrun, ← hengine]

end

/-! ## Its output -/

theorem transformEvents_of_plain {s : State} (haen : s.cfg.aen = false) (hden : s.cfg.den = false) :
    s.transformEvents = sizingEvents s.fileSize.toNat s.cfg.bpw.toNat false := by
  rw [State.transformEvents, haen, hden]
  simp

/-- The padded input is the bytes the host wrote, and zeros from there on (43_transform.md R167). -/
theorem inBytes_setUp {v : Invocation} {s : State} {n : Nat} (hlen : v.input.length ≤ n) (hn : n ≤ s.params.bufBytes)
    (hsize : (v.setUp s).fileSize.toNat = v.input.length) :
    (List.range n).map (v.setUp s).inByte = v.input ++ List.replicate (n - v.input.length) 0 := by
  refine List.ext_getElem (by simp; omega) fun k hk _ => ?_
  rw [List.getElem_map, List.getElem_range, List.getElem_append]
  split
  · next hin =>
    have hread : ((v.setUp s).mem .ibuf).read k = some v.input[k] := by
      have htake : v.input.take s.params.bufBytes = v.input := List.take_of_length_le (by omega)
      change Memory.read (s.ibuf.writeBytes 0 (v.input.take s.params.bufBytes)) k = _
      rw [htake, read_writeBytes, dif_pos ⟨Nat.zero_le k, hin⟩]
      rfl
    rw [State.inByte, hsize, if_pos hin]
    exact byte_of_read hread
  · next hin =>
    rw [State.inByte, hsize, if_neg hin, List.getElem_replicate]

/-- A finished TRANSFORM is written out as its bytes of OBUF below WORKING_SIZE (60_exceptions.md R206). -/
theorem cliResult_of_done {t : State} (hdone : t.status.state = .done) (hfits : t.workingSize.toNat ≤ t.params.bufBytes)
    (v : Word) :
    cliResult { t with rdata := v } =
      .written ((List.range t.workingSize.toNat).map (t.byte .obuf)) t.diag := by
  have hbytes : (List.range t.workingSize.toNat).map (fun k => hostReadByte .obuf k { t with rdata := v }) =
      (List.range t.workingSize.toNat).map (t.byte .obuf) := List.map_congr_left fun k hk =>
    if_pos (Nat.lt_of_lt_of_le (List.mem_range.1 hk) hfits)
  rw [cliResult, if_pos (show _ = _ from hdone), hbytes]

/-- Settles O59: the accesses set the engine up, its TRANSFORM passes every check, and it copies the padded input. -/
theorem commandLineWithoutPermutationsCopies : Obligations.CommandLineWithoutPermutationsCopies := by
  intro v s hinv hlegal ha hd h2 hcap h33
  obtain ⟨h1, -⟩ := bytesPerWord_bounds hlegal
  have hlen := le_paddedSize v.input.length h1 false
  have hbpw : (v.setUp s).cfg.bpw.toNat = v.bytesPerWord := plainCfg_bpw_toNat hlegal
  have hsize : (v.setUp s).fileSize.toNat = v.input.length := Nat.mod_eq_of_lt (by omega)
  have hws : (v.setUp s).sizing.ws = paddedSize v.input.length v.bytesPerWord false := by
    rw [← hsize, ← hbpw]
    rfl
  have hwords : (v.setUp s).words = paddedSize v.input.length v.bytesPerWord false / v.bytesPerWord := by
    rw [State.words, hws, hbpw]
  have hready : TransformReady (v.setUp s) := by
    refine ⟨⟨?_, ?_, ?_⟩, ⟨nofun, nofun⟩, hws ▸ hcap⟩
    · rw [BpwLegal, hbpw]
      exact bytesPerWord_bounds hlegal
    · rw [hwords, Nat.le_div_iff_mul_le h1]
      exact h2
    · rw [hwords]
      exact Nat.lt_of_le_of_lt (Nat.div_le_self _ _) h33
  obtain ⟨t, hexec, hstatus, -, hdiag, htsize, -⟩ := transformRegisters _ hready
  have hparams : t.params = s.params := (commandsLeaveTheHostSide.1 .transform _ t hexec).1
  have hdone : t.status.state = .done := hstatus ▸ rfl
  have hcopy : (List.range (v.setUp s).sizing.ws).map (t.byte .obuf) =
      (List.range (v.setUp s).sizing.ws).map (v.setUp s).inByte :=
    List.map_congr_left fun k hk => byte_obuf_of_copy hready rfl rfl hexec (List.mem_range.1 hk)
  rw [swizzle_of_plain hlegal ha hd hinv.notBusy hexec,
    cliResult_of_done hdone (by rw [htsize, hws, hparams]; exact hcap), htsize, hcopy, hws,
    inBytes_setUp hlen hcap hsize, hdiag, transformEvents_of_plain (s := v.setUp s) rfl rfl, hsize, hbpw]

end Sys2Proof.Machine
